-- ==== Sys2Proof/Word.lean ====
section
/-! DEFINITION. The word types of LFM-CORE: only what the spec itself treats as bits. -/

namespace Sys2Proof

/-- A byte of `FB` or `TX` (10_state R36, R37). -/
abbrev Byte := BitVec 8

/-- A raw sample: `ADC_BITS = 12` bits, so `0 <= raw <= ADC_MAX` cannot be broken (R9, R82, R292). -/
abbrev Sample := BitVec 12

/-- A host register or a host data word (R40, R64). -/
abbrev HostWord := BitVec 64

/-- A command word (R80). -/
abbrev CmdWord := BitVec 32

end Sys2Proof
end

