-- ==== Sys2Proof/Syntax.lean ====
section
/-! DEFINITION. The 22 operations of 30_encoding R84 (spec/opcode_table.json), one constructor each,
with the operands of their immediate sub-formats (R82). -/

namespace Sys2Proof

/-- The operations. `m2`, `nd` are the level operand of sub-format `CL`. -/
inductive Instr where
  | nop
  | setFreq (f : BitVec 19)
  | setThresh
  | bufReset
  | winReset
  | winPush (raw : Sample)
  | winSelect (k : BitVec 8)
  | winMedian
  | pushSample (raw : Sample)
  | calibrate
  | histClear
  | histAppend (m2 : BitVec 13) (nd : Bool)
  | histMatch
  | synchronize
  | hbReset
  | hbAppend (m2 : BitVec 13) (nd : Bool)
  | hbFlush (idle : Bool)
  | decode
  | receiveFrame
  | sendBit (b r : Bool)
  | sendPreamble
  | transmitFrame
deriving DecidableEq, Repr

end Sys2Proof
end

