-- ==== Sys2Proof/WellFormed.lean ====
section
/-! DEFINITION. Which terms of `Instr` are written by the operation syntax of 30_encoding R99. The
operand types already hold every range of R82 (19-bit frequency, 12-bit sample, 8-bit rank, 13-bit
doubled median), so the one check left is the spelling of the no-data operand. -/

namespace Sys2Proof

/-- The no-data operand has one spelling, `nodata`: `IMM = 0x2000`, that is `nd = 1` and `m2 = 0`
(R99); with `nd = 1` the field `m2` is not used (R82). -/
abbrev levelOperandWellFormed (m2 : BitVec 13) (nd : Bool) : Prop := nd = true → m2 = 0

/-- Well-formed instructions: the ones the syntax of R99 can write. -/
abbrev Instr.WellFormed : Instr → Prop
  | .nop => True
  | .setFreq _ => True
  | .setThresh => True
  | .bufReset => True
  | .winReset => True
  | .winPush _ => True
  | .winSelect _ => True
  | .winMedian => True
  | .pushSample _ => True
  | .calibrate => True
  | .histClear => True
  | .histAppend m2 nd => levelOperandWellFormed m2 nd
  | .histMatch => True
  | .synchronize => True
  | .hbReset => True
  | .hbAppend m2 nd => levelOperandWellFormed m2 nd
  | .hbFlush _ => True
  | .decode => True
  | .receiveFrame => True
  | .sendBit _ _ => True
  | .sendPreamble => True
  | .transmitFrame => True

end Sys2Proof
end

