-- ==== Sys2Proof/Decode.lean ====
section
/-! DEFINITION. The command word (30_encoding R80 to R86): the opcode table, the decoder, the encoder,
and the decoder as the opcode table numbers its bits. -/

namespace Sys2Proof

/-- Why a word is no command: its opcode byte is not in the table of R84 (R85). -/
inductive DecodeError where
  /-- `OPC` is none of the 22 opcodes; the host gets `IllegalCommand`, so this is safe. -/
  | illegalOpcode (opc : BitVec 8)
deriving DecidableEq, Repr

/-- `OPC = w[7:0]` (R81). -/
def opcField (w : CmdWord) : BitVec 8 := w.extractLsb' 0 8

/-- `IMM = w[31:8]` (R81). -/
def immField (w : CmdWord) : BitVec 24 := w.extractLsb' 8 24

/-- The level operand of sub-format `CL` as the syntax of R99 spells it: `IMM[12:0]` is `m2` and
`IMM[13]` is `nd`; with `nd = 1` the bits of `m2` are not used (R82). -/
def levelField (imm : BitVec 24) : BitVec 13 × Bool :=
  if imm.getLsbD 13 then (0, true) else (imm.extractLsb' 0 13, false)

/-- The opcode table of R84, opcode byte first, in the table's order; an operation takes its operand
from the immediate by the sub-format R82 gives it. -/
def opcodeTable : List (BitVec 8 × (BitVec 24 → Instr)) :=
  [ (0x00, fun _ => .nop),
    (0x01, fun imm => .setFreq (imm.extractLsb' 0 19)),
    (0x02, fun _ => .setThresh),
    (0x03, fun _ => .bufReset),
    (0x10, fun _ => .winReset),
    (0x11, fun imm => .winPush (imm.extractLsb' 0 12)),
    (0x12, fun imm => .winSelect (imm.extractLsb' 0 8)),
    (0x13, fun _ => .winMedian),
    (0x20, fun imm => .pushSample (imm.extractLsb' 0 12)),
    (0x21, fun _ => .calibrate),
    (0x30, fun _ => .histClear),
    (0x31, fun imm => .histAppend (levelField imm).1 (levelField imm).2),
    (0x32, fun _ => .histMatch),
    (0x33, fun _ => .synchronize),
    (0x40, fun _ => .hbReset),
    (0x41, fun imm => .hbAppend (levelField imm).1 (levelField imm).2),
    (0x42, fun imm => .hbFlush (imm.getLsbD 0)),
    (0x43, fun _ => .decode),
    (0x44, fun _ => .receiveFrame),
    (0x50, fun imm => .sendBit (imm.getLsbD 0) (imm.getLsbD 1)),
    (0x51, fun _ => .sendPreamble),
    (0x52, fun _ => .transmitFrame) ]

/-- The decoder: total on command words, refusing by name every opcode outside R84 (R85). -/
def decodeWord (w : CmdWord) : Except DecodeError Instr :=
  match opcodeTable.find? (fun row => row.1 == opcField w) with
  | some row => .ok (row.2 (immField w))
  | none => .error (.illegalOpcode (opcField w))

/-- The opcode byte of an operation (R84). -/
def opcodeOf : Instr → BitVec 8
  | .nop => 0x00
  | .setFreq _ => 0x01
  | .setThresh => 0x02
  | .bufReset => 0x03
  | .winReset => 0x10
  | .winPush _ => 0x11
  | .winSelect _ => 0x12
  | .winMedian => 0x13
  | .pushSample _ => 0x20
  | .calibrate => 0x21
  | .histClear => 0x30
  | .histAppend _ _ => 0x31
  | .histMatch => 0x32
  | .synchronize => 0x33
  | .hbReset => 0x40
  | .hbAppend _ _ => 0x41
  | .hbFlush _ => 0x42
  | .decode => 0x43
  | .receiveFrame => 0x44
  | .sendBit _ _ => 0x50
  | .sendPreamble => 0x51
  | .transmitFrame => 0x52

/-- The immediate of a level operand: `m2` in `IMM[12:0]`, `nd` in `IMM[13]` (R82). -/
def levelImm (m2 : BitVec 13) (nd : Bool) : BitVec 24 :=
  (BitVec.ofBool nd ++ m2).setWidth 24

/-- The immediate of an operation (R82, R99). -/
def immOf : Instr → BitVec 24
  | .nop => 0
  | .setFreq f => f.setWidth 24
  | .setThresh => 0
  | .bufReset => 0
  | .winReset => 0
  | .winPush raw => raw.setWidth 24
  | .winSelect k => k.setWidth 24
  | .winMedian => 0
  | .pushSample raw => raw.setWidth 24
  | .calibrate => 0
  | .histClear => 0
  | .histAppend m2 nd => levelImm m2 nd
  | .histMatch => 0
  | .synchronize => 0
  | .hbReset => 0
  | .hbAppend m2 nd => levelImm m2 nd
  | .hbFlush idle => (BitVec.ofBool idle).setWidth 24
  | .decode => 0
  | .receiveFrame => 0
  | .sendBit b r => (BitVec.ofBool r ++ BitVec.ofBool b).setWidth 24
  | .sendPreamble => 0
  | .transmitFrame => 0

/-- The encoder: the command word of an operation, `IMM` above `OPC` (R81, R99). -/
def encodeWord (i : Instr) : CmdWord := immOf i ++ opcodeOf i

/-- The immediate bits that the sub-format of an opcode uses; the others are ignored (R82, 93 U2).
For `CL` these are `m2` and `nd`. -/
def usedImmMask (opc : BitVec 8) : BitVec 24 :=
  if opc = 0x01 then 0x07FFFF
  else if opc = 0x11 ∨ opc = 0x20 then 0x000FFF
  else if opc = 0x12 then 0x0000FF
  else if opc = 0x31 ∨ opc = 0x41 then 0x003FFF
  else if opc = 0x42 then 0x000001
  else if opc = 0x50 then 0x000003
  else 0

/-- The instruction the decoder reads from the low `nbits` bits of `w`, bit 0 the least significant
bit of the command word and every higher bit zero. -/
def decodeTableWord (nbits w : Nat) : Option Instr :=
  match decodeWord (BitVec.ofNat 32 (w % 2 ^ nbits)) with
  | .ok i => some i
  | .error _ => none

end Sys2Proof
end

