-- ==== Sys2Proof/Config.lean ====
section
/-! DEFINITION. The constants of the hardware, the implementation parameters of 00_scope R9, and the
free values: answers of the environment and of a write-only register that the spec does not fix. -/

namespace Sys2Proof.Config

/-- `ADC_MAX` (R9). -/
def adcMax : Nat := 4095
/-- `HIST_LEN` (R9). -/
def histLen : Nat := 16
/-- `MIN_SYNC_BITS` (R9). -/
def minSyncBits : Nat := 10
/-- `DEBOUNCE_MIN` (R9, R163). -/
def debounceMin : Nat := 6
/-- `FREQ_MAX` (R9, R257). -/
def freqMax : Nat := 500000
/-- The hold classifier's limit: `diff * f <= 750 000` is a single hold (R96). -/
def doubleLimit : Int := 750000
/-- The idle limit: `g * f > 10 000 000` exceeds it (R97). -/
def idleLimit : Int := 10000000
/-- The `ID` register (R40): ASCII "LFM", revision 1. -/
def idWord : HostWord := 0x000000004C464D01

/-- `PREAMBLE_PATTERN`, `P[0]` to `P[15]` (R9, R92); `true` is the symbol 1. -/
def preamblePattern : List Bool :=
  [true, false, true, false, true, false, true, false,
   false, true, false, true, false, true, false, true]

/-- The implementation parameters a deployment fixes (R9, 93 U13). They ride in `State` because
`step` takes nothing else (log 4). -/
structure Params where
  /-- `WINDOW_N` -/
  windowN : Nat
  /-- `WINDOW_MAX` -/
  windowMax : Nat
  /-- `SETTLE_US` -/
  settleUs : Nat
  /-- `SYNC_TIMEOUT_US` -/
  syncTimeoutUs : Nat
  /-- `MAX_PACKET_SIZE` -/
  maxPacketSize : Nat
  /-- `MAX_PACKET_HALF_BITS` -/
  maxPacketHalfBits : Nat
  /-- `PLACEHOLDER` -/
  placeholder : Byte
  /-- `AMBIG_EPS` -/
  ambigEps : Rat
  /-- `PREAMBLE_HALF_US` -/
  preambleHalfUs : Rat
  /-- `DEFAULT_THRESHOLD` -/
  defaultThreshold : Nat
  /-- `TX_MAX` -/
  txMax : Nat
deriving DecidableEq, Repr

/-- The bounds R9 puts on the parameters. -/
structure Params.Legal (p : Params) : Prop where
  windowN_pos : 1 ≤ p.windowN
  windowN_le : p.windowN ≤ p.windowMax
  windowMax_le : p.windowMax ≤ 256
  packet_pos : 1 ≤ p.maxPacketSize
  packet_le : p.maxPacketSize ≤ 65535
  halfBits_pos : 1 ≤ p.maxPacketHalfBits
  halfBits_le : p.maxPacketHalfBits ≤ 61440
  eps_nonneg : 0 ≤ p.ambigEps
  preamble_pos : 0 < p.preambleHalfUs
  threshold_pos : 0 < p.defaultThreshold
  threshold_lt : p.defaultThreshold < adcMax
  txMax_pos : 1 ≤ p.txMax
  txMax_le : p.txMax ≤ 65535

/-- The default instance of R9 and 95_test_vectors section 1. DESIGN CHOICE (log 4); its
`PREAMBLE_HALF_US` is DESIGN CHOICE (log 5). Unsafe for a claim that leans on one of the values. -/
def defaultParams : Params :=
  { windowN := 11, windowMax := 100, settleUs := 40000, syncTimeoutUs := 2000000,
    maxPacketSize := 128, maxPacketHalfBits := 2048, placeholder := 0x20, ambigEps := 0,
    preambleHalfUs := 50000, defaultThreshold := 2048, txMax := 128 }

/-- FREE VALUE (log 2): the `n`-th answer of `ReadSample` that no script queued (R14, R292). -/
opaque sampleAnswer : Nat → Sample

/-- FREE VALUE (log 2): the `n`-th clock word that no script queued (R14, R293). -/
opaque clockAnswer : Nat → HostWord

/-- FREE VALUE (log 9): what a host read of the write-only register `CMD` returns (R40), after so many
draws of the environment. -/
opaque cmdReadback : Nat → HostWord

end Sys2Proof.Config
end

