-- ==== Sys2Proof/Machine/State.lean ====
section
/-! DEFINITION. The state of LFM-CORE as plain data: every register, flag, register file and memory
that 10_state R20 to R39 names, and the model's own fields (parameters, host script, environment). -/

namespace Sys2Proof.Machine

open Sys2Proof.Config

/-- Why a step stops. The block has no trap and no stop of any kind: an error is a value in `CODE`
(60_exceptions R275, R281), so this type has no constructor and no step of the model faults. -/
inductive Fault where
deriving DecidableEq, Repr

/-- Why an instruction has no meaning here. -/
inductive Refusal where
  /-- Raised only by an arm of `exec` that has no meaning yet; safe. No arm raises it now. -/
  | notModelled (mnemonic : String)
deriving DecidableEq, Repr

/-- A `LevelEstimate` (00_scope R15): no data, or an exact ratio. -/
inductive Level where
  | noData
  | ratio (q : Rat)
deriving DecidableEq, Repr

/-- The sequencer phase (10_state R24). -/
inductive Phase where
  | idle
  | cal1
  | cal2
  | scan
  | settle
  | decode
  | txPre
  | txData
deriving DecidableEq, Repr

/-- The outcome codes (60_exceptions R270); the codes 8 to 15 do not exist. -/
inductive Code where
  | ok
  | insufficientSpread
  | syncTimeout
  | ambiguousBit
  | capacityExceeded
  | illegalCommand
  | badConfig
  | notLocked
deriving DecidableEq, Repr

/-- What an append answers (44 R205, R207): `full`, or `ok` with the mark `skip` of the byte it
closed (`false` when it closed none). -/
inductive Answer where
  | ok (skip : Bool)
  | full
deriving DecidableEq, Repr

/-- What `PAIR` answers (44 R198). -/
inductive PairBit where
  | zero
  | one
  | ambiguous
deriving DecidableEq, Repr

/-- One host action or one idle moment of the host (46 R259), or the platform's reset. -/
inductive HostAction where
  /-- Read the register at a word address. -/
  | read (addr : Nat)
  /-- Write the register at a word address; at address 0 this issues a command. -/
  | write (addr : Nat) (data : HostWord)
  /-- The host does nothing in this step, so that the sequencer may run an iteration. -/
  | tick
  /-- The `rst` input of the block, between two steps (70 R310). -/
  | rst
  /-- The `rst` input inside a step, once its first `calls` environment calls have been made (70 R312):
  the step of a command word written to `CMD`, or of an iteration. -/
  | rstInside (command : Option HostWord) (calls : Nat)
deriving DecidableEq, Repr

/-- What the ports show, one entry per call of 00_scope R14 and per host read. -/
inductive PortEvent where
  | feed
  | nowUs (now : Int)
  | readSample (raw : Sample)
  | actuate (level : Bool)
  | wait (us : Rat)
  | emitFrame (bytes : List Byte)
  | hostRead (addr : Nat) (data : HostWord)
deriving DecidableEq, Repr

/-- A slot of `WIN`: `none` is `SENTINEL` (10_state R33). -/
abbrev Slot := Option Sample

/-- A slot of `HIST`: `none` is `empty` (10_state R34). -/
abbrev HistSlot := Option Level

/-- A byte memory as (address, byte) cells. -/
abbrev Memory := List Host.Cell

/-- What an address with no cell reads as: the reset content 0x00 of `TX` (R45). -/
def Memory.unlisted : Byte := 0

/-- The canonical form: addresses strictly rising and no cell equal to what an unlisted address
reads as. -/
abbrev Memory.wf (m : Memory) : Prop :=
  m.Pairwise (fun c d => c.1 < d.1) ∧ ∀ c ∈ m, c.2 ≠ Memory.unlisted

/-- Configuration registers (R21). -/
structure CfgRegs where
  /-- `FREQ` -/
  freq : Nat
  /-- `THR_NUM` -/
  thrNum : Nat
  /-- `THR_DEN` -/
  thrDen : Nat
deriving DecidableEq, Repr

/-- Conditioner registers and flags (R22, R30). -/
structure CondRegs where
  /-- `MEDIAN2` -/
  median2 : Nat
  /-- `LEVEL` -/
  level : Level
  /-- `NODATA` -/
  nodata : Bool
  /-- `HIGH` -/
  high : Bool
deriving DecidableEq, Repr

/-- Transition-detector registers (R23). -/
structure DetRegs where
  /-- `CUR` -/
  cur : Option Rat
  /-- `T_LAST` -/
  tLast : Int
  /-- `DEB` -/
  deb : Nat
deriving DecidableEq, Repr

/-- Sequencer registers (R24, R25). -/
structure SeqRegs where
  /-- `PHASE` -/
  phase : Phase
  /-- `T_START` -/
  tStart : Int
  /-- `T_SETTLE` -/
  tSettle : Int
  /-- `FIRST` -/
  first : Bool
  /-- `OP` -/
  op : BitVec 8
deriving DecidableEq, Repr

/-- Calibration registers (R26, R27). -/
structure CalRegs where
  /-- `CNT` -/
  cnt : Nat
  /-- `CMIN` -/
  cmin : Nat
  /-- `CMAX` -/
  cmax : Nat
  /-- `MID2` -/
  mid2 : Nat
  /-- `LO_SUM` -/
  loSum : Nat
  /-- `HI_SUM` -/
  hiSum : Nat
  /-- `LO_CNT` -/
  loCnt : Nat
  /-- `HI_CNT` -/
  hiCnt : Nat
  /-- `CAL_NUM` -/
  calNum : Nat
  /-- `CAL_DEN` -/
  calDen : Nat
  /-- `CAL_VALID` -/
  calValid : Bool
deriving DecidableEq, Repr

/-- Decoder registers and memories (R28, R29, R30, R35, R36): `hb` and `fb` hold the defined elements,
so their lengths are `HB_LEN` and `FB_LEN` (log 6). -/
structure DecRegs where
  /-- `HB[0]` to `HB[HB_LEN - 1]` -/
  hb : List Level
  /-- `FB[0]` to `FB[FB_LEN - 1]` -/
  fb : List Byte
  /-- `AMBIG_COUNT` -/
  ambigCount : Nat
  /-- `CAPX` -/
  capx : Bool
  /-- `PARTIAL` -/
  partialByte : Bool
  /-- `AMBIG` -/
  ambig : Bool
  /-- `CARRY` -/
  carry : Option Level
deriving DecidableEq, Repr

/-- Control flags (R30), the outcome code (R31), and the frame length that `RESULT` shows (R43). -/
structure CtlRegs where
  /-- `BUSY` -/
  busy : Bool
  /-- `DONE` -/
  done : Bool
  /-- `LOCKED` -/
  locked : Bool
  /-- `MATCH` -/
  matched : Bool
  /-- `DROPPED` -/
  dropped : Bool
  /-- `CODE` -/
  code : Code
  /-- The length in bytes of the last emitted frame (R43), 0 once a scan timed out without one (44 R223,
  log 7). -/
  frameLen : Nat
deriving DecidableEq, Repr

/-- Operand and result registers (R38). -/
structure ArgRegs where
  /-- `ARG0` -/
  arg0 : Nat
  /-- `ARG1` -/
  arg1 : Nat
  /-- `CAL_SCAN1` -/
  calScan1 : Nat
  /-- `CAL_SCAN2` -/
  calScan2 : Nat
  /-- `SELECT_OUT`; `none` is `SENTINEL` -/
  selectOut : Slot
deriving DecidableEq, Repr

/-- Encoder registers and the transmit buffer (R30, R32, R37). -/
structure TxRegs where
  /-- `LED` -/
  led : Bool
  /-- `TX_LEN` -/
  txLen : Nat
  /-- `TX_IDX` -/
  txIdx : Nat
  /-- `BIT_IDX` -/
  bitIdx : Nat
  /-- `TX` -/
  mem : Memory
deriving DecidableEq, Repr

/-- The environment as the model holds it: the MODEL's own fields (log 2, log 3, log 11). -/
structure Env where
  /-- Queued answers of `ReadSample`, next first. -/
  samples : List Sample
  /-- Queued clock words, next first. -/
  clock : List HostWord
  /-- The last answer of `NowUs`. -/
  lastNow : Int
  /-- How many free values have been drawn. -/
  draws : Nat
  /-- What the ports showed, oldest first. -/
  calls : List PortEvent
deriving DecidableEq, Repr

/-- The machine: the spec's state (R20), then the model's own fields. -/
structure State where
  /-- Configuration registers (R21). -/
  cfg : CfgRegs
  /-- Conditioner registers (R22). -/
  cond : CondRegs
  /-- Transition-detector registers (R23). -/
  det : DetRegs
  /-- Sequencer registers (R24, R25). -/
  seq : SeqRegs
  /-- Calibration registers (R26, R27). -/
  cal : CalRegs
  /-- Decoder registers and memories (R28, R29, R35, R36). -/
  dec : DecRegs
  /-- Control flags, outcome code and frame length (R30, R31, R43). -/
  ctl : CtlRegs
  /-- Operand and result registers (R38). -/
  arg : ArgRegs
  /-- Encoder registers and memory (R32, R37). -/
  tx : TxRegs
  /-- `WIN`, oldest slot first (R33). -/
  win : List Slot
  /-- `HIST`, oldest slot first (R34). -/
  hist : List HistSlot
  /-- The instance's parameters (log 4). -/
  params : Params
  /-- The environment (log 2). -/
  env : Env
  /-- The host's pending actions, first to happen first (log 1). -/
  script : List HostAction
deriving DecidableEq, Repr

/-- The environment before anything happened: nothing queued, nothing drawn, any clock still
possible (log 2, log 3). -/
def Env.start : Env :=
  { samples := [], clock := [], lastNow := -2 ^ 63, draws := 0, calls := [] }

/-- The block after reset, for the instance `p` (R45, R311), beside an environment and a script. -/
def State.resetOf (p : Params) (env : Env) (script : List HostAction) : State :=
  { cfg := { freq := 0, thrNum := p.defaultThreshold, thrDen := 1 },
    cond := { median2 := 0, level := .noData, nodata := true, high := false },
    det := { cur := none, tLast := 0, deb := 0 },
    seq := { phase := .idle, tStart := 0, tSettle := 0, first := false, op := 0x00 },
    cal := { cnt := 0, cmin := 0, cmax := 0, mid2 := 0, loSum := 0, hiSum := 0, loCnt := 0,
             hiCnt := 0, calNum := 0, calDen := 1, calValid := false },
    dec := { hb := [], fb := [], ambigCount := 0, capx := false, partialByte := false,
             ambig := false, carry := none },
    ctl := { busy := false, done := false, locked := false, matched := false, dropped := false,
             code := .ok, frameLen := 0 },
    arg := { arg0 := 0, arg1 := 0, calScan1 := 4096, calScan2 := 50000, selectOut := none },
    tx := { led := false, txLen := 0, txIdx := 0, bitIdx := 7, mem := [] },
    win := List.replicate p.windowN none,
    hist := List.replicate histLen none,
    params := p,
    env := env,
    script := script }

/-- The machine right after reset: the default instance with no host action pending (R45, log 4). -/
def State.reset : State := State.resetOf defaultParams Env.start []

end Sys2Proof.Machine
end

