-- ==== Sys2Proof/Machine/Ops.lean ====
section
/-! DEFINITION. The named operations over memory, the environment's calls and the control registers
that every instruction shares: among them `raise` (an error), command acceptance, and the end of an
operation. -/

namespace Sys2Proof.Machine

open Sys2Proof.Config

/-! ### Byte memory (`TX`) -/

/-- The byte at an address; an address with no cell reads as `Memory.unlisted`. -/
def memRead : Memory → Nat → Byte
  | [], _ => Memory.unlisted
  | c :: m, a => if c.1 = a then c.2 else memRead m a

/-- Writing a byte, keeping the canonical form: cells stay sorted, and a byte equal to what an
unlisted address reads as is not listed. -/
def memWrite : Memory → Nat → Byte → Memory
  | [], a, b => if b = Memory.unlisted then [] else [(a, b)]
  | c :: m, a, b =>
    if c.1 < a then c :: memWrite m a b
    else
      let rest := if c.1 = a then m else c :: m
      if b = Memory.unlisted then rest else (a, b) :: rest

/-! ### Views of the state (00_scope R13) -/

/-- `HB_LEN` (R28). -/
def hbLen (s : State) : Nat := s.dec.hb.length

/-- `FB_LEN` (R28). -/
def fbLen (s : State) : Nat := s.dec.fb.length

/-- `MemRead(WIN, i)`: slot `i` of the window. -/
def winAt (s : State) (i : Nat) : Slot := (s.win[i]?).getD none

/-- `MemRead(HIST, i)`: slot `i` of the history. -/
def histAt (s : State) (i : Nat) : HistSlot := (s.hist[i]?).getD none

/-- `MemRead(HB, i)`, none where no element is defined (R35). -/
def hbAt (s : State) (i : Nat) : Option Level := s.dec.hb[i]?

/-- `MemRead(FB, i)`, none where no element is defined (R36). -/
def fbAt (s : State) (i : Nat) : Option Byte := s.dec.fb[i]?

/-- `MemRead(TX, i)` (R37). -/
def txAt (s : State) (i : Nat) : Byte := memRead s.tx.mem i

/-- The shift of 40 R112 and 43 R171: the oldest element leaves, the others move one place down and
`x` comes last. -/
def shiftAppend {α : Type} (l : List α) (x : α) : List α := l.drop 1 ++ [x]

/-! ### The environment's calls (00_scope R14, 60 R292 to R298) -/

/-- Record what the ports show. -/
def record (e : PortEvent) (s : State) : State :=
  { s with env := { s.env with calls := s.env.calls ++ [e] } }

/-- `Feed()` (R294). -/
def feed (s : State) : State := record .feed s

/-- `Actuate(b)`: the line takes level `b` and `LED` mirrors it (45 R235, R295). -/
def actuate (b : Bool) (s : State) : State :=
  record (.actuate b) { s with tx := { s.tx with led := b } }

/-- `Wait(d)`: the block does nothing for exactly `d` microseconds (45 R237, R298). -/
def wait (d : Rat) (s : State) : State := record (.wait d) s

/-- `EmitFrame(bytes)` (R296). -/
def emitFrame (bytes : List Byte) (s : State) : State := record (.emitFrame bytes) s

/-- `ReadSample()`: the next queued answer, or the next free value (R292, log 2). -/
def readSample (s : State) : Sample × State :=
  match s.env.samples with
  | raw :: rest => (raw, record (.readSample raw) { s with env := { s.env with samples := rest } })
  | [] =>
    let raw := sampleAnswer s.env.draws
    (raw, record (.readSample raw) { s with env := { s.env with draws := s.env.draws + 1 } })

/-- `NowUs()`: the next queued clock word, or the next free value, read as a signed 64-bit integer and
never less than the previous answer (R293, log 3). -/
def nowUs (s : State) : Int × State :=
  match s.env.clock with
  | w :: rest =>
    let now := max s.env.lastNow w.toInt
    (now, record (.nowUs now) { s with env := { s.env with clock := rest, lastNow := now } })
  | [] =>
    let now := max s.env.lastNow (clockAnswer s.env.draws).toInt
    (now, record (.nowUs now)
      { s with env := { s.env with draws := s.env.draws + 1, lastNow := now } })

/-! ### Errors, acceptance, and the end of an operation -/

/-- End a multi-step operation: `PHASE <- IDLE`, `BUSY <- 0`, `DONE <- 1` (46 R255). -/
def endOperation (s : State) : State :=
  { s with seq := { s.seq with phase := .idle },
           ctl := { s.ctl with busy := false, done := true } }

/-- `raise E()`, the taking of an error, and all there is to it: `CODE <- E`; a multi-step operation
in progress ends; `DONE <- 1`. Nothing is saved and no handler runs (60 R275). There is no return
operation beside it: the block is simply ready for the next command (60 R281). -/
def raise (e : Code) (s : State) : State :=
  if s.ctl.busy then
    { s with seq := { s.seq with phase := .idle },
             ctl := { s.ctl with busy := false, done := true, code := e } }
  else { s with ctl := { s.ctl with done := true, code := e } }

/-- The end of a single-step operation: `CODE <- c`, `DONE <- 1` (46 R255). -/
def complete (c : Code) (s : State) : State :=
  { s with ctl := { s.ctl with done := true, code := c } }

/-- A command written while `BUSY = 1`: `DROPPED <- 1` and nothing else (46 R255, 60 R277). -/
def dropCommand (s : State) : State :=
  { s with ctl := { s.ctl with dropped := true } }

/-- Admission of a command: `DONE <- 0`, `DROPPED <- 0`, and `LOCKED <- 0` unless the command is
`NOP` (46 R255). -/
def admission (keepsLock : Bool) (s : State) : State :=
  { s with ctl := { s.ctl with done := false, dropped := false,
                               locked := s.ctl.locked && keepsLock } }

/-- Command acceptance for one opcode (46 R255): dropped while `BUSY = 1`; else admitted; then the
precondition's error is raised, or the operation's own rule runs. `pre` is the error the
precondition fails with on the state before admission (so that it sees `was_locked`). -/
def command (keepsLock : Bool) (pre : Option Code) (rule : State → State) (s : State) :
    Host.Outcome State Fault Refusal :=
  if s.ctl.busy then .next (dropCommand s)
  else
    match pre with
    | some e => .next (raise e (admission keepsLock s))
    | none => .next (rule (admission keepsLock s))

/-- The start of a multi-step operation: `BUSY <- 1`, `OP` and `PHASE` are set (46 R255, R25). -/
def startOperation (op : BitVec 8) (phase : Phase) (s : State) : State :=
  { s with seq := { s.seq with op := op, phase := phase },
           ctl := { s.ctl with busy := true } }

/-- A command word whose opcode is not in the table: dropped while `BUSY = 1`, else
`IllegalCommand`; it is not accepted, so nothing but `CODE` and `DONE` changes (30 R85, 46 R255). -/
def illegalCommand (s : State) : State :=
  if s.ctl.busy then dropCommand s else raise .illegalCommand s

/-! ### Preconditions (46 R255) -/

/-- `FREQ != 0`, else `BadConfig`. -/
def needsFreq (s : State) : Option Code :=
  if s.cfg.freq = 0 then some .badConfig else none

/-- `FREQ != 0`, else `BadConfig`; then `was_locked = 1`, else `NotLocked`. -/
def needsFreqAndLock (s : State) : Option Code :=
  if s.cfg.freq = 0 then some .badConfig
  else if s.ctl.locked then none
  else some .notLocked

end Sys2Proof.Machine
end

