-- ==== Sys2Proof/Machine/Calibrator.lean ====
section
/-! DEFINITION. The threshold calibrator: `CALIBRATE`, its two scans and its end (41 R130 to R139). -/

namespace Sys2Proof.Machine

open Sys2Proof.Config

/-- The start of `CALIBRATE` (R131); `OP` is set as every start rule sets it (log 8). -/
def startCalibrate (s : State) : State :=
  startOperation 0x21 .cal1
    { s with cal := { s.cal with
        calValid := false, calNum := 0, calDen := 1, cmin := adcMax, cmax := 0,
        loSum := 0, loCnt := 0, hiSum := 0, hiCnt := 0, cnt := s.arg.calScan1 } }

/-- `CALIBRATE` (R130). -/
def execCalibrate (s : State) : Host.Outcome State Fault Refusal :=
  command false none startCalibrate s

/-- The running minimum and maximum after one sample, and the count (R132). -/
def scanMinMax (raw : Nat) (c : CalRegs) : CalRegs :=
  { c with cmin := min c.cmin raw, cmax := max c.cmax raw, cnt := c.cnt - 1 }

/-- The partition of one sample: strictly below the midpoint, strictly above it, or in neither group;
and the count (R133). -/
def scanPartition (raw : Nat) (c : CalRegs) : CalRegs :=
  if 2 * raw < c.mid2 then
    { c with loSum := c.loSum + raw, loCnt := c.loCnt + 1, cnt := c.cnt - 1 }
  else if c.mid2 < 2 * raw then
    { c with hiSum := c.hiSum + raw, hiCnt := c.hiCnt + 1, cnt := c.cnt - 1 }
  else { c with cnt := c.cnt - 1 }

/-- A `CAL1` iteration (R132). -/
def cal1Iteration (s : State) : State :=
  let r := readSample s
  let c := scanMinMax r.1.toNat r.2.cal
  if c.cnt = 0 then
    { r.2 with cal := { c with mid2 := c.cmin + c.cmax, cnt := r.2.arg.calScan2 },
               seq := { r.2.seq with phase := .cal2 } }
  else { r.2 with cal := c }

/-- The end of `CALIBRATE` (R134): the exact mean of the two group means, unreduced, or
`InsufficientSpread`. -/
def endCalibrate (s : State) : State :=
  if s.cal.loCnt = 0 ∨ s.cal.hiCnt = 0 then endOperation (raise .insufficientSpread s)
  else
    endOperation
      { s with
        cal := { s.cal with
          calNum := s.cal.loSum * s.cal.hiCnt + s.cal.hiSum * s.cal.loCnt,
          calDen := 2 * s.cal.loCnt * s.cal.hiCnt,
          calValid := true },
        ctl := { s.ctl with code := .ok } }

/-- A `CAL2` iteration (R133), with the end rule it may reach. -/
def cal2Iteration (s : State) : State :=
  let r := readSample s
  let t : State := { r.2 with cal := scanPartition r.1.toNat r.2.cal }
  if t.cal.cnt = 0 then endCalibrate t else t

end Sys2Proof.Machine
end

