-- ==== Sys2Proof/Machine/Operands.lean ====
section
/-! DEFINITION. The operand forms of 30_encoding R82 as the machine uses them, and the time constants
computed from the frequency (R94 to R97). -/

namespace Sys2Proof.Machine

open Sys2Proof.Config

/-- `Ratio(m2 / (2 * THR))` with the `THR` of this moment (R82, 42 R147). -/
def levelOf (m2 : Nat) (s : State) : Level :=
  .ratio (mkRat ((m2 * s.cfg.thrDen : Nat) : Int) (2 * s.cfg.thrNum))

/-- The level operand of sub-format `CL` (R82): `NoData` when `nd = 1`. -/
def levelOperand (m2 : BitVec 13) (nd : Bool) (s : State) : Level :=
  if nd then .noData else levelOf m2.toNat s

/-- `HALF_US(f) = 1 000 000 / (2 * f)`, exact (R94). -/
def halfUs (f : Nat) : Rat := mkRat 1000000 (2 * f)

/-- The half-period that the rate select of `SEND_BIT` chooses (sub-format `CB`, 45 R236). -/
def halfPeriod (r : Bool) (s : State) : Rat :=
  if r then s.params.preambleHalfUs else halfUs s.cfg.freq

/-- How many slots a hold of `diff` microseconds is worth: 1 when `diff * f <= 750 000`, else 2
(R96, 43 R164). -/
def holdSlots (diff : Int) (f : Nat) : Nat :=
  if diff * (f : Int) ≤ doubleLimit then 1 else 2

/-- A gap `g` exceeds the idle limit: `g * f > 10 000 000` (R97, 44 R217). -/
def idleExceeded (g : Int) (f : Nat) : Bool := decide (idleLimit < g * (f : Int))

end Sys2Proof.Machine
end

