-- ==== Sys2Proof/Machine/Flags.lean ====
section
/-! DEFINITION. Every flag computation of the spec: the comparator, the symbol of a ratio, the pair
table, the calibration group test, and the outcome code of a frame. -/

namespace Sys2Proof.Machine

open Sys2Proof.Config

/-- `hi(Ratio(q))`, and so `sym(Ratio(q)) = 1`: `q >= 1` (00_scope R15). -/
def hi (q : Rat) : Bool := decide (1 ≤ q)

/-- `HIGH` after a median: `m2 * THR_DEN >= 2 * THR_NUM` (40 R116, 42 R147). -/
def highFlag (m2 : Nat) (s : State) : Bool :=
  decide (2 * s.cfg.thrNum ≤ m2 * s.cfg.thrDen)

/-- A history slot agrees with a pattern symbol: it holds a ratio with that symbol; an empty slot
and a `NoData` slot agree with nothing (30 R93). -/
def slotAgrees (slot : HistSlot) (p : Bool) : Bool :=
  match slot with
  | some (.ratio q) => hi q == p
  | some .noData => false
  | none => false

/-- The suffix match: the ten newest slots agree with `P[6]` to `P[15]` (43 R172). -/
def suffixMatches (h : List HistSlot) : Bool :=
  ((h.drop (histLen - minSyncBits)).zip
    (preamblePattern.drop (histLen - minSyncBits))).all (fun x => slotAgrees x.1 x.2)

/-- `PAIR(a, b)` (44 R198): the epsilon test first when `AMBIG_EPS > 0`, then the table. -/
def pair (p : Params) (a b : Level) : PairBit :=
  match a, b with
  | .ratio qa, .ratio qb =>
    if 0 < p.ambigEps ∧ qa - qb < p.ambigEps ∧ qb - qa < p.ambigEps then .ambiguous
    else
      match hi qa, hi qb with
      | false, true => .one
      | true, false => .zero
      | false, false => .ambiguous
      | true, true => .ambiguous
  | .noData, _ => .ambiguous
  | .ratio _, .noData => .ambiguous

/-- The code of a finalized frame: `CapacityExceeded`, then `AmbiguousBit`, then `OK`
(44 R211, 60 R280). -/
def frameCode (capx ambig : Bool) : Code :=
  if capx then .capacityExceeded else if ambig then .ambiguousBit else .ok

/-- The code of a host-issued `HB_APPEND` (44 R205). -/
def answerCode : Answer → Code
  | .full => .capacityExceeded
  | .ok true => .ambiguousBit
  | .ok false => .ok

end Sys2Proof.Machine
end

