-- ==== Sys2Proof/Machine/Buffers.lean ====
section
/-! DEFINITION. The operations over the five buffers that more than one instruction uses: the window
and its median (40), the history (43), the half-bit and frame buffers with their guards, and the
finalizing of a frame (44). -/

namespace Sys2Proof.Machine

open Sys2Proof.Config

/-! ### The window (40 R110 to R118) -/

/-- `valid(W)`: the slots that are not `SENTINEL`, in window order (R110). -/
def validSamples (w : List Slot) : List Nat := w.filterMap (fun x => x.map BitVec.toNat)

/-- `sorted(W)` (R110); a sorted copy, so the window keeps its order (R118). -/
def sortedSamples (w : List Slot) : List Nat := (validSamples w).insertionSort (· ≤ ·)

/-- The `k`-th smallest valid entry, `SENTINEL` when there is none (R114). -/
def orderStatistic (k : Nat) (w : List Slot) : Slot :=
  ((sortedSamples w)[k]?).map (BitVec.ofNat 12)

/-- Twice the median of a sorted list, none for the empty list (R116). -/
def doubledMedian (l : List Nat) : Option Nat :=
  if l.length = 0 then none
  else if l.length % 2 = 1 then some (2 * l.getD ((l.length - 1) / 2) 0)
  else some (l.getD (l.length / 2 - 1) 0 + l.getD (l.length / 2) 0)

/-- The effect of `WIN_RESET` (R111). -/
def winReset (s : State) : State := { s with win := List.replicate s.params.windowN none }

/-- The effect of `WIN_PUSH` (R112). -/
def winPush (raw : Sample) (s : State) : State := { s with win := shiftAppend s.win (some raw) }

/-- The effect of `WIN_MEDIAN` (R116): `LEVEL`, `NODATA`, `HIGH`, and `MEDIAN2` unless the window is
empty. -/
def winMedian (s : State) : State :=
  match doubledMedian (sortedSamples s.win) with
  | none => { s with cond := { s.cond with level := .noData, nodata := true, high := false } }
  | some m2 =>
    { s with cond := { median2 := m2, level := levelOf m2 s, nodata := false,
                       high := highFlag m2 s } }

/-- The effect of `PUSH_SAMPLE`: push, then median (42 R148). -/
def pushSample (raw : Sample) (s : State) : State := winMedian (winPush raw s)

/-! ### The history (43 R167 to R173) -/

/-- The effect of `HIST_CLEAR` (R170). -/
def histClear (s : State) : State :=
  { s with hist := List.replicate histLen none, ctl := { s.ctl with matched := false } }

/-- The effect of `HIST_APPEND` (R171). -/
def histAppend (lv : Level) (s : State) : State := { s with hist := shiftAppend s.hist (some lv) }

/-- The effect of `HIST_MATCH`; its answer is the new `MATCH` (R172). -/
def histMatch (s : State) : State :=
  { s with ctl := { s.ctl with matched := suffixMatches s.hist } }

/-! ### The half-bit buffer and the frame buffer (44 R195 to R208) -/

/-- The effect of `HB_RESET` (R204). -/
def hbReset (s : State) : State :=
  { s with dec := { s.dec with hb := [], fb := [], ambigCount := 0, capx := false,
                               partialByte := false, ambig := false } }

/-- The pairs of one group, first pair first, packed most significant bit first below bit `k`; an
ambiguous pair gives the placeholder and the mark; an incomplete pair ends the byte (R196, R200). -/
def decodePairs (p : Params) : Nat → List Level → Byte → Byte × Bool
  | k + 1, a :: b :: rest, byte =>
    match pair p a b with
    | .ambiguous => (p.placeholder, true)
    | .one => decodePairs p k rest (byte ||| (1#8 <<< k))
    | .zero => decodePairs p k rest byte
  | 0, _, byte => (byte, false)
  | _ + 1, [], byte => (byte, false)
  | _ + 1, [_], byte => (byte, false)

/-- `BYTE_DECODE(start, n)`: the byte and its `skip` mark (R200). -/
def byteDecode (start n : Nat) (s : State) : Byte × Bool :=
  decodePairs s.params 8 ((s.dec.hb.drop start).take n) 0

/-- `BYTE_CLOSE(start, n)`: the byte capacity guard, else decode one group and store the byte at
`FB_LEN` (R207). -/
def byteClose (start n : Nat) (s : State) : Answer × State :=
  if fbLen s = s.params.maxPacketSize then
    (.full, { s with dec := { s.dec with capx := true } })
  else
    let r := byteDecode start n s
    (.ok r.2,
     { s with dec := { s.dec with
        fb := s.dec.fb ++ [r.1],
        ambigCount := if r.2 then s.dec.ambigCount + 1 else s.dec.ambigCount,
        ambig := s.dec.ambig || r.2 } })

/-- Storing one half-bit at `HB_LEN`, no guard. -/
def storeHalfBit (lv : Level) (s : State) : State :=
  { s with dec := { s.dec with hb := s.dec.hb ++ [lv] } }

/-- `HB_APPEND lv`: the half-bit capacity guard, else store, and close the byte on every 16th
half-bit (R205, R206). -/
def hbAppend (lv : Level) (s : State) : Answer × State :=
  if hbLen s = s.params.maxPacketHalfBits then
    (.full, { s with dec := { s.dec with capx := true } })
  else
    let s' := storeHalfBit lv s
    if hbLen s' % 16 = 0 then byteClose (hbLen s' - 16) 16 s' else (.ok false, s')

/-! ### Finalizing a frame (44 R209 to R213) -/

/-- Completion at idle: an odd count of half-bits is completed with the level still current (R209). -/
def completeAtIdle (idle : Bool) (s : State) : State :=
  match s.det.cur with
  | some q =>
    if idle = true ∧ hbLen s % 16 % 2 = 1 ∧ hbLen s < s.params.maxPacketHalfBits then
      let s' := storeHalfBit (.ratio q) s
      if hbLen s' % 16 = 0 then (byteClose (hbLen s' - 16) 16 s').2 else s'
    else s
  | none => s

/-- The partial final byte (R210). -/
def flushPartial (s : State) : State :=
  let r := hbLen s % 16
  if 0 < r then
    let s' := (byteClose (hbLen s - r) r s).2
    { s' with dec := { s'.dec with partialByte := true } }
  else s

/-- Frame hand-over: one `EmitFrame` call, then the outcome code (R211) and the length of the frame that
was emitted (10 R43, log 7). -/
def handOver (s : State) : State :=
  let s' := emitFrame s.dec.fb s
  { s' with ctl := { s'.ctl with code := frameCode s'.dec.capx s'.dec.ambig,
                                 frameLen := fbLen s' } }

/-- `FINALIZE(idle)` (R213). -/
def finalize (idle : Bool) (s : State) : State := handOver (flushPartial (completeAtIdle idle s))

/-! ### Both paths -/

/-- The effect of `BUF_RESET` (46 R258). -/
def bufReset (s : State) : State :=
  let s' := hbReset (histClear (winReset s))
  { s' with det := { cur := none, tLast := 0, deb := 0 },
            dec := { s'.dec with carry := none },
            cond := { median2 := 0, level := .noData, nodata := true, high := false } }

end Sys2Proof.Machine
end

