-- ==== Sys2Proof/Machine/Conditioner.lean ====
section
/-! DEFINITION. The signal conditioner: `SET_THRESH` and `PUSH_SAMPLE` (42). -/

namespace Sys2Proof.Machine

open Sys2Proof.Config

/-- `n / d` is no legal threshold: not `0 < n / d < ADC_MAX` (R146). -/
def badThreshold (n d : Nat) : Bool := decide (d = 0 ∨ n = 0 ∨ adcMax * d ≤ n)

/-- The rule of `SET_THRESH` (R146). -/
def setThresh (s : State) : State :=
  if badThreshold s.arg.arg0 s.arg.arg1 then raise .badConfig s
  else complete .ok { s with cfg := { s.cfg with thrNum := s.arg.arg0, thrDen := s.arg.arg1 } }

/-- `SET_THRESH` (R146). -/
def execSetThresh (s : State) : Host.Outcome State Fault Refusal :=
  command false none setThresh s

/-- `PUSH_SAMPLE raw` (R148). -/
def execPushSample (raw : Sample) (s : State) : Host.Outcome State Fault Refusal :=
  command false none (fun t => complete .ok (pushSample raw t)) s

end Sys2Proof.Machine
end

