-- ==== Sys2Proof/Machine/Control.lean ====
section
/-! DEFINITION. The control operations: `NOP`, `SET_FREQ`, `BUF_RESET` (46). -/

namespace Sys2Proof.Machine

open Sys2Proof.Config

/-- `NOP`, the only accepted command that keeps `LOCKED` (R256). -/
def execNop (s : State) : Host.Outcome State Fault Refusal :=
  command true none (complete .ok) s

/-- The rule of `SET_FREQ f` (R257). -/
def setFreq (f : Nat) (s : State) : State :=
  if f = 0 ∨ freqMax < f then raise .badConfig s
  else complete .ok { s with cfg := { s.cfg with freq := f } }

/-- `SET_FREQ f` (R257). -/
def execSetFreq (f : BitVec 19) (s : State) : Host.Outcome State Fault Refusal :=
  command false none (setFreq f.toNat) s

/-- `BUF_RESET` (R258). -/
def execBufReset (s : State) : Host.Outcome State Fault Refusal :=
  command false none (fun t => complete .ok (bufReset t)) s

end Sys2Proof.Machine
end

