-- ==== Sys2Proof/Machine/Detector.lean ====
section
/-! DEFINITION. The transition detector `TD_STEP` (43 R160 to R166), shared by the synchronizer and
the decoder. -/

namespace Sys2Proof.Machine

open Sys2Proof.Config

/-- `DEB` after counting the current push, saturating (R163). -/
def countPush (deb : Nat) : Nat := min (deb + 1) debounceMin

/-- Accept `q` as the current level at clock value `now` (R161, R165). -/
def acceptLevel (q : Rat) (now : Int) (s : State) : State :=
  { s with det := { cur := some q, tLast := now, deb := 0 } }

/-- `TD_STEP(e, now)` (R165): the answer is none for `k = 0`, else `k` and the level `lv` of the hold
that just ended. -/
def tdStep (e : Level) (now : Int) (s : State) : Option (Nat × Level) × State :=
  let s' := { s with det := { s.det with deb := countPush s.det.deb } }
  match e with
  | .noData => (none, s')
  | .ratio q =>
    match s.det.cur with
    | none => (none, acceptLevel q now s')
    | some c =>
      if hi q ≠ hi c ∧ debounceMin ≤ s'.det.deb then
        (some (holdSlots (now - s.det.tLast) s.cfg.freq, .ratio c), acceptLevel q now s')
      else (none, s')

end Sys2Proof.Machine
end

