-- ==== Sys2Proof/Machine/Decoder.lean ====
section
/-! DEFINITION. The Manchester decoder: `HB_RESET`, `HB_APPEND`, `HB_FLUSH`, `DECODE` and
`RECEIVE_FRAME`, and the `DECODE` iteration (44). -/

namespace Sys2Proof.Machine

/-- `HB_RESET` (R204). -/
def execHbReset (s : State) : Host.Outcome State Fault Refusal :=
  command false none (fun t => complete .ok (hbReset t)) s

/-- The rule of a host-issued `HB_APPEND` (R205). -/
def hostHbAppend (lv : Level) (s : State) : State :=
  complete (answerCode (hbAppend lv s).1) (hbAppend lv s).2

/-- `HB_APPEND m2` or `HB_APPEND nodata` (R205). -/
def execHbAppend (m2 : BitVec 13) (nd : Bool) (s : State) : Host.Outcome State Fault Refusal :=
  command false none (fun t => hostHbAppend (levelOperand m2 nd t) t) s

/-- The rule of `HB_FLUSH idle`: `FINALIZE(idle)`, whose code stands (R212). -/
def hbFlush (idle : Bool) (s : State) : State :=
  let t := finalize idle s
  complete t.ctl.code t

/-- `HB_FLUSH idle` (R212). -/
def execHbFlush (idle : Bool) (s : State) : Host.Outcome State Fault Refusal :=
  command false none (hbFlush idle) s

/-- Passing from lock to decoding: the carry becomes the first half-bit (R214). -/
def enterDecode (s : State) : State :=
  let s' := { s with seq := { s.seq with phase := .decode } }
  match s'.dec.carry with
  | none => s'
  | some lv =>
    let t := (hbAppend lv s').2
    { t with dec := { t.dec with carry := none } }

/-- The start of `DECODE` (R215). -/
def startDecode (s : State) : State :=
  enterDecode (startOperation 0x43 .decode (hbReset s))

/-- `DECODE` (R215): needs the bit rate, then the lock. -/
def execDecode (s : State) : Host.Outcome State Fault Refusal :=
  command false (needsFreqAndLock s) startDecode s

/-- The start of a synchronizing operation: fresh buffers, `FIRST <- 1`, `SCAN` (43 R175, R220). -/
def startScan (op : BitVec 8) (s : State) : State :=
  let s' := startOperation op .scan (bufReset s)
  { s' with seq := { s'.seq with first := true } }

/-- `RECEIVE_FRAME` (R220): needs the bit rate. -/
def execReceiveFrame (s : State) : Host.Outcome State Fault Refusal :=
  command false (needsFreq s) (startScan 0x44) s

/-- Append up to `n` copies of the ended hold; the first `full` ends it (R216, R218). -/
def appendHold : Nat → Level → State → Answer × State
  | 0, _, s => (.ok false, s)
  | n + 1, lv, s =>
    match hbAppend lv s with
    | (.full, t) => (.full, t)
    | (.ok _, t) => appendHold n lv t

/-- A `DECODE` iteration (R216), with the end rules it may reach (R217, R218, R219). -/
def decodeIteration (s : State) : State :=
  let n := nowUs (feed s)
  if idleExceeded (n.1 - n.2.det.tLast) n.2.cfg.freq then endOperation (finalize true n.2)
  else
    let r := readSample n.2
    let p := pushSample r.1 r.2
    match tdStep p.cond.level n.1 p with
    | (none, t) => t
    | (some (k, lv), t) =>
      match appendHold k lv t with
      | (.full, u) => endOperation (finalize false u)
      | (.ok _, u) => u

end Sys2Proof.Machine
end

