-- ==== Sys2Proof/Machine/Encoder.lean ====
section
/-! DEFINITION. The Manchester encoder: `SEND_BIT`, `SEND_PREAMBLE`, `TRANSMIT_FRAME`, and the `TX_PRE`
and `TX_DATA` steps (45). -/

namespace Sys2Proof.Machine

/-- `BIT_CELL(b, hp)`: high then low for a 0, low then high for a 1 (R235, 30 R87). -/
def bitCell (b : Bool) (hp : Rat) (s : State) : State :=
  wait hp (actuate b (wait hp (actuate (!b) s)))

/-- `SEND_BIT b, r` (R236): the data rate needs `FREQ`, the preamble rate does not. -/
def execSendBit (b r : Bool) (s : State) : Host.Outcome State Fault Refusal :=
  command false (if r then none else needsFreq s)
    (fun t => complete .ok (bitCell b (halfPeriod r t) t)) s

/-- The start of `SEND_PREAMBLE` (R238). -/
def startPreamble (s : State) : State :=
  startOperation 0x51 .txPre { s with tx := { s.tx with bitIdx := 0 } }

/-- `SEND_PREAMBLE` (R238). -/
def execSendPreamble (s : State) : Host.Outcome State Fault Refusal :=
  command false none startPreamble s

/-- The start of `TRANSMIT_FRAME` (R240). -/
def startTransmit (s : State) : State :=
  startOperation 0x52 .txPre { s with tx := { s.tx with bitIdx := 0, txIdx := 0 } }

/-- `TRANSMIT_FRAME` (R240): needs the bit rate. -/
def execTransmitFrame (s : State) : Host.Outcome State Fault Refusal :=
  command false (needsFreq s) startTransmit s

/-- Completion of a frame: the line is driven low (R243). -/
def endTransmit (s : State) : State :=
  let t := actuate false s
  endOperation { t with ctl := { t.ctl with code := .ok } }

/-- After the last preamble bit: `SEND_PREAMBLE` (`OP = 0x51`) ends, `TRANSMIT_FRAME` goes on to the
data, or to its completion when there is none (R241). -/
def preambleSent (s : State) : State :=
  if s.seq.op = 0x51 then
    endOperation { s with tx := { s.tx with bitIdx := 7 }, ctl := { s.ctl with code := .ok } }
  else
    let t := { s with tx := { s.tx with bitIdx := 7, txIdx := 0 } }
    if t.tx.txLen = 0 then endTransmit t else { t with seq := { t.seq with phase := .txData } }

/-- A `TX_PRE` step: one preamble bit, 0 for the first four and 1 for the last four (R241). -/
def txPreIteration (s : State) : State :=
  let t := bitCell (decide (4 ≤ s.tx.bitIdx)) s.params.preambleHalfUs (feed s)
  if t.tx.bitIdx < 7 then { t with tx := { t.tx with bitIdx := t.tx.bitIdx + 1 } }
  else preambleSent t

/-- The data bit to send: bit `BIT_IDX` of `TX[TX_IDX]` (R242). -/
def currentBit (s : State) : Bool := (memRead s.tx.mem s.tx.txIdx).getLsbD s.tx.bitIdx

/-- A `TX_DATA` step: one data bit, most significant first (R242). -/
def txDataIteration (s : State) : State :=
  let t := bitCell (currentBit s) (halfUs s.cfg.freq) (feed s)
  if 0 < t.tx.bitIdx then { t with tx := { t.tx with bitIdx := t.tx.bitIdx - 1 } }
  else
    let u := { t with tx := { t.tx with bitIdx := 7, txIdx := t.tx.txIdx + 1 } }
    if u.tx.txIdx = u.tx.txLen then endTransmit u else u

end Sys2Proof.Machine
end

