-- ==== Sys2Proof/Machine/Synchronizer.lean ====
section
/-! DEFINITION. The preamble synchronizer: `HIST_CLEAR`, `HIST_APPEND`, `HIST_MATCH`, `SYNCHRONIZE`,
and the `SCAN` and `SETTLE` iterations (43). -/

namespace Sys2Proof.Machine

/-- `HIST_CLEAR` (R170). -/
def execHistClear (s : State) : Host.Outcome State Fault Refusal :=
  command false none (fun t => complete .ok (histClear t)) s

/-- `HIST_APPEND m2` or `HIST_APPEND nodata` (R171). -/
def execHistAppend (m2 : BitVec 13) (nd : Bool) (s : State) : Host.Outcome State Fault Refusal :=
  command false none (fun t => complete .ok (histAppend (levelOperand m2 nd t) t)) s

/-- `HIST_MATCH` (R172). -/
def execHistMatch (s : State) : Host.Outcome State Fault Refusal :=
  command false none (fun t => complete .ok (histMatch t)) s

/-- `SYNCHRONIZE` (R175): needs the bit rate. -/
def execSynchronize (s : State) : Host.Outcome State Fault Refusal :=
  command false (needsFreq s) (startScan 0x33) s

/-- The match action, with `left` slots of the hold still to come (R177): the history is cleared, the
second slot of a doubled hold is kept in `CARRY`, and `SETTLE` begins. -/
def matchAction (left : Nat) (lv : Level) (now : Int) (s : State) : State :=
  let t := histClear s
  { t with dec := { t.dec with carry := if 0 < left then some lv else t.dec.carry },
           seq := { t.seq with tSettle := now, phase := .settle } }

/-- Append the slots of an ended hold one by one, testing the suffix match after each; a match leaves
the loop (R176). -/
def scanHold : Nat → Level → Int → State → State
  | 0, _, _, s => s
  | n + 1, lv, now, s =>
    let t := histMatch (histAppend lv s)
    if t.ctl.matched then matchAction n lv now t else scanHold n lv now t

/-- The timeout end of a synchronizing operation (R179); no frame was emitted, so the length in `RESULT`
is 0 (44 R223, log 7). -/
def endTimeout (s : State) : State :=
  let t := raise .syncTimeout s
  endOperation { t with ctl := { t.ctl with locked := false, frameLen := 0 } }

/-- `T_START` is latched by the first iteration (R176). -/
def latchStart (now : Int) (s : State) : State :=
  if s.seq.first then { s with seq := { s.seq with tStart := now, first := false } } else s

/-- A `SCAN` iteration (R176), with the timeout end it may reach. -/
def scanIteration (s : State) : State :=
  let n := nowUs (feed s)
  let s' := latchStart n.1 n.2
  if (s'.params.syncTimeoutUs : Int) ≤ n.1 - s'.seq.tStart then endTimeout s'
  else
    let r := readSample s'
    let p := pushSample r.1 r.2
    match tdStep p.cond.level n.1 p with
    | (none, t) => t
    | (some (k, lv), t) => scanHold k lv n.1 t

/-- The success end: `SYNCHRONIZE` (`OP = 0x33`) locks and ends, `RECEIVE_FRAME` goes on to decode
(R179). -/
def lockReached (s : State) : State :=
  if s.seq.op = 0x33 then
    endOperation { s with ctl := { s.ctl with locked := true, code := .ok } }
  else enterDecode s

/-- A `SETTLE` iteration (R178): only the clock is watched. -/
def settleIteration (s : State) : State :=
  let n := nowUs (feed s)
  if (n.2.params.settleUs : Int) ≤ n.1 - n.2.seq.tSettle then lockReached n.2 else n.2

end Sys2Proof.Machine
end

