-- ==== Sys2Proof/Machine/Utility.lean ====
section
/-! DEFINITION. The utility operations: `WIN_RESET`, `WIN_PUSH`, `WIN_SELECT`, `WIN_MEDIAN` (40). -/

namespace Sys2Proof.Machine

/-- `WIN_RESET` (R111). -/
def execWinReset (s : State) : Host.Outcome State Fault Refusal :=
  command false none (fun t => complete .ok (winReset t)) s

/-- `WIN_PUSH raw` (R112). -/
def execWinPush (raw : Sample) (s : State) : Host.Outcome State Fault Refusal :=
  command false none (fun t => complete .ok (winPush raw t)) s

/-- The effect of `WIN_SELECT k` (R114). -/
def winSelect (k : Nat) (s : State) : State :=
  { s with arg := { s.arg with selectOut := orderStatistic k s.win } }

/-- `WIN_SELECT k` (R114). -/
def execWinSelect (k : BitVec 8) (s : State) : Host.Outcome State Fault Refusal :=
  command false none (fun t => complete .ok (winSelect k.toNat t)) s

/-- `WIN_MEDIAN` (R116). -/
def execWinMedian (s : State) : Host.Outcome State Fault Refusal :=
  command false none (fun t => complete .ok (winMedian t)) s

end Sys2Proof.Machine
end

