-- ==== Sys2Proof/Machine/Dispatch.lean ====
section
/-! DEFINITION. One arm per operation of the opcode table: the write of its command word to `CMD`. -/

namespace Sys2Proof.Machine

def exec (i : Instr) (s : State) : Host.Outcome State Fault Refusal :=
  match i with
  | .nop => Sys2Proof.Machine.execNop s
  | .setFreq f => Sys2Proof.Machine.execSetFreq f s
  | .setThresh => Sys2Proof.Machine.execSetThresh s
  | .bufReset => Sys2Proof.Machine.execBufReset s
  | .winReset => Sys2Proof.Machine.execWinReset s
  | .winPush raw => Sys2Proof.Machine.execWinPush raw s
  | .winSelect k => Sys2Proof.Machine.execWinSelect k s
  | .winMedian => Sys2Proof.Machine.execWinMedian s
  | .pushSample raw => Sys2Proof.Machine.execPushSample raw s
  | .calibrate => Sys2Proof.Machine.execCalibrate s
  | .histClear => Sys2Proof.Machine.execHistClear s
  | .histAppend m2 nd => Sys2Proof.Machine.execHistAppend m2 nd s
  | .histMatch => Sys2Proof.Machine.execHistMatch s
  | .synchronize => Sys2Proof.Machine.execSynchronize s
  | .hbReset => Sys2Proof.Machine.execHbReset s
  | .hbAppend m2 nd => Sys2Proof.Machine.execHbAppend m2 nd s
  | .hbFlush idle => Sys2Proof.Machine.execHbFlush idle s
  | .decode => Sys2Proof.Machine.execDecode s
  | .receiveFrame => Sys2Proof.Machine.execReceiveFrame s
  | .sendBit b r => Sys2Proof.Machine.execSendBit b r s
  | .sendPreamble => Sys2Proof.Machine.execSendPreamble s
  | .transmitFrame => Sys2Proof.Machine.execTransmitFrame s

end Sys2Proof.Machine
end

