-- ==== Sys2Proof/Machine/HostPort.lean ====
section
/-! DEFINITION. The host register map: reads and writes of 10_state R40 to R43, and the reset input
(70 R310 to R312). -/

namespace Sys2Proof.Machine

open Sys2Proof.Config

/-- The code of a phase in `STATUS` (10_state R24). -/
def phaseCode : Phase → Nat
  | .idle => 0
  | .cal1 => 1
  | .cal2 => 2
  | .scan => 3
  | .settle => 4
  | .decode => 5
  | .txPre => 6
  | .txData => 7

/-- The number of an outcome code (60 R270). -/
def codeNumber : Code → Nat
  | .ok => 0
  | .insufficientSpread => 1
  | .syncTimeout => 2
  | .ambiguousBit => 3
  | .capacityExceeded => 4
  | .illegalCommand => 5
  | .badConfig => 6
  | .notLocked => 7

/-- A `width`-bit field of a register whose bit 0 stands at bit `lo`. -/
def field (lo width n : Nat) : HostWord := BitVec.ofNat 64 (n % 2 ^ width) <<< lo

/-- A flag at bit `lo` of a register. -/
def flagAt (lo : Nat) (b : Bool) : HostWord := field lo 1 b.toNat

/-- The code of a level in a slot: 1 for `NoData`, 2 for a ratio below 1, 3 for a ratio of at least 1
(R41). -/
def levelCode : Level → Nat
  | .noData => 1
  | .ratio q => if hi q then 3 else 2

/-- The slot code of R41; an empty slot is 0. -/
def slotCode : Option Level → HostWord
  | none => 0
  | some lv => BitVec.ofNat 64 (levelCode lv)

/-- A window slot as the host sees it: all ones for `SENTINEL` (R40). -/
def slotWord : Slot → HostWord
  | none => BitVec.allOnes 64
  | some raw => raw.setWidth 64

/-- `CUR_HIGH` (R42). -/
def curHigh (s : State) : Bool :=
  match s.det.cur with
  | none => false
  | some q => hi q

/-- `STATUS` (R42). -/
def statusWord (s : State) : HostWord :=
  flagAt 0 s.ctl.busy ||| flagAt 1 s.ctl.done ||| flagAt 2 s.ctl.locked |||
  flagAt 3 s.ctl.matched ||| flagAt 4 s.cond.nodata ||| flagAt 5 s.cond.high |||
  flagAt 6 s.tx.led ||| flagAt 7 s.cal.calValid ||| field 8 4 (phaseCode s.seq.phase) |||
  field 12 3 s.det.deb ||| flagAt 15 s.det.cur.isSome ||| flagAt 16 (curHigh s) |||
  flagAt 17 s.dec.carry.isSome ||| flagAt 18 s.ctl.dropped

/-- `RESULT` (R43); its frame length is the one latched at the last hand-over (log 7). -/
def resultWord (s : State) : HostWord :=
  field 0 4 (codeNumber s.ctl.code) ||| flagAt 4 s.dec.ambig ||| flagAt 5 s.dec.capx |||
  flagAt 6 s.dec.partialByte ||| field 16 16 s.dec.ambigCount ||| field 32 16 s.ctl.frameLen

/-- A host read (R40, R41); an address outside the map reads 0, and `CMD` is write-only, so what a
read of it returns is a free value (log 9). -/
def hostRead (a : Nat) (s : State) : HostWord :=
  if a = 0x000 then cmdReadback s.env.draws
  else if a = 0x001 then statusWord s
  else if a = 0x002 then resultWord s
  else if a = 0x003 then field 0 63 s.arg.arg0
  else if a = 0x004 then field 0 63 s.arg.arg1
  else if a = 0x005 then field 0 19 s.cfg.freq
  else if a = 0x006 then field 0 63 s.cfg.thrNum
  else if a = 0x007 then field 0 63 s.cfg.thrDen
  else if a = 0x008 then (if s.cal.calValid then field 0 63 s.cal.calNum else 0)
  else if a = 0x009 then (if s.cal.calValid then field 0 63 s.cal.calDen else 1)
  else if a = 0x00A then field 0 24 s.arg.calScan1
  else if a = 0x00B then field 0 24 s.arg.calScan2
  else if a = 0x00C then field 0 13 s.cond.median2
  else if a = 0x00D then slotWord s.arg.selectOut
  else if a = 0x00E then field 0 64 (hbLen s)
  else if a = 0x00F then field 0 64 (fbLen s)
  else if a = 0x010 then field 0 64 s.tx.txLen
  else if a = 0x011 then BitVec.ofInt 64 s.det.tLast
  else if a = 0x012 then BitVec.ofInt 64 s.seq.tStart
  else if a = 0x013 then idWord
  else if 0x100 ≤ a ∧ a < 0x100 + s.params.windowN then slotWord (winAt s (a - 0x100))
  else if 0x200 ≤ a ∧ a < 0x200 + histLen then slotCode (histAt s (a - 0x200))
  else if 0x1000 ≤ a ∧ a < 0x1000 + s.params.maxPacketHalfBits then slotCode (hbAt s (a - 0x1000))
  else if 0x10000 ≤ a ∧ a < 0x10000 + s.params.maxPacketSize then
    ((fbAt s (a - 0x10000)).getD 0).setWidth 64
  else if 0x20000 ≤ a ∧ a < 0x20000 + s.params.txMax then (txAt s (a - 0x20000)).setWidth 64
  else 0

/-- A host read as an action: nothing changes but what the port shows, so a second read answers the
same (20 R67). -/
def hostReadAction (a : Nat) (s : State) : State := record (.hostRead a (hostRead a s)) s

/-- A host write to a register other than `CMD` while the block is idle: out-of-range values,
read-only registers and unlisted addresses ignore it (R40, R41, 46 R263, log 10). -/
def writeRegister (a : Nat) (d : HostWord) (s : State) : State :=
  if a = 0x003 then { s with arg := { s.arg with arg0 := d.toNat % 2 ^ 63 } }
  else if a = 0x004 then { s with arg := { s.arg with arg1 := d.toNat % 2 ^ 63 } }
  else if a = 0x00A then
    if d.toNat % 2 ^ 24 = 0 then s
    else { s with arg := { s.arg with calScan1 := d.toNat % 2 ^ 24 } }
  else if a = 0x00B then
    if d.toNat % 2 ^ 24 = 0 then s
    else { s with arg := { s.arg with calScan2 := d.toNat % 2 ^ 24 } }
  else if a = 0x010 then
    if s.params.txMax < d.toNat then s else { s with tx := { s.tx with txLen := d.toNat } }
  else if 0x20000 ≤ a ∧ a < 0x20000 + s.params.txMax then
    { s with tx := { s.tx with mem := memWrite s.tx.mem (a - 0x20000) (d.setWidth 8) } }
  else s

/-- A host write to a register other than `CMD`: ignored while `BUSY = 1` (R41, 46 R263). -/
def hostWrite (a : Nat) (d : HostWord) (s : State) : State :=
  if s.ctl.busy then s else writeRegister a d s

/-- The `rst` input: every piece of the block's state takes its reset value at once, with no
environment call; the instance, the environment and the host's script are not the block's (70 R310 to
R312, log 14). -/
def resetBlock (s : State) : State := State.resetOf s.params s.env s.script

/-- One call of a step made again on its own: what is left is the environment after that call. -/
def replay (s : State) (e : PortEvent) : State :=
  match e with
  | .nowUs _ => (nowUs s).2
  | .readSample _ => (readSample s).2
  | .feed => record e s
  | .actuate _ => record e s
  | .wait _ => record e s
  | .emitFrame _ => record e s
  | .hostRead _ _ => record e s

/-- `rst` inside the step from `s` to `t`, once its first `calls` calls have been made (70 R312): those
calls have happened, no later one does, and the block is reset. -/
def cutReset (calls : Nat) (s t : State) : State :=
  resetBlock (((t.env.calls.drop s.env.calls.length).take calls).foldl replay s)

end Sys2Proof.Machine
end

