-- ==== Sys2Proof/Machine/Sequencer.lean ====
section
/-! DEFINITION. One iteration of the multi-step operation in progress, chosen by `PHASE` (10_state R24,
46 R259). -/

namespace Sys2Proof.Machine

/-- One iteration of the operation in progress; an idle block does nothing (46 R259, 60 R288). -/
def iterate (s : State) : State :=
  match s.seq.phase with
  | .idle => s
  | .cal1 => cal1Iteration s
  | .cal2 => cal2Iteration s
  | .scan => scanIteration s
  | .settle => settleIteration s
  | .decode => decodeIteration s
  | .txPre => txPreIteration s
  | .txData => txDataIteration s

end Sys2Proof.Machine
end

