-- ==== Sys2Proof/Machine/Issue.lean ====
section
/-! DEFINITION. What one step of the machine does (46 R259): one host action, among them the issue of a
command word, or one iteration of the operation in progress. -/

namespace Sys2Proof.Machine

/-- The address of `CMD` (10_state R40). -/
def cmdAddress : Nat := 0x000

/-- A host write of a command word to `CMD` (46 R255). -/
def issueWord (w : CmdWord) (s : State) : Host.Outcome State Fault Refusal :=
  match Sys2Proof.decodeWord w with
  | .ok i => exec i s
  | .error _ => .next (illegalCommand s)

/-- The step that a reset inside it cuts short: of a command word, or of an iteration. -/
def issueOrIterate (command : Option HostWord) (s : State) : Host.Outcome State Fault Refusal :=
  match command with
  | some w => issueWord (w.setWidth 32) s
  | none => .next (iterate s)

/-- The `rst` input inside a step (70 R312, log 14). -/
def actCut (command : Option HostWord) (calls : Nat) (s : State) :
    Host.Outcome State Fault Refusal :=
  match issueOrIterate command s with
  | .next t => .next (cutReset calls s t)
  | .fault r => .fault r
  | .refused r => .refused r

/-- One host action, or the reset input (46 R259, 70 R310); `tick` leaves the step to the
sequencer. -/
def act (a : HostAction) (s : State) : Host.Outcome State Fault Refusal :=
  match a with
  | .read addr => .next (hostReadAction addr s)
  | .write addr data =>
    if addr = cmdAddress then issueWord (data.setWidth 32) s else .next (hostWrite addr data s)
  | .tick => .next (iterate s)
  | .rst => .next (resetBlock s)
  | .rstInside command calls => actCut command calls s

/-- One step: the next action of the host's script, or an iteration when no action is pending
(46 R259, log 1, log 16). -/
def advance (s : State) : Host.Outcome State Fault Refusal :=
  match s.script with
  | [] => .next (iterate s)
  | a :: rest => act a { s with script := rest }

/-- The host action that issues the word whose bits are `w`, every bit from `nbits` on zero. -/
def issueAction (nbits w : Nat) : HostAction :=
  .write cmdAddress (BitVec.ofNat 64 (w % 2 ^ nbits))

/-- `s` with the command word as the host's next action and the block free to accept it: a command is
taken from `CMD` only while `BUSY = 0` (20 R73, log 1). -/
def placeWord (nbits w : Nat) (s : State) : State :=
  { s with script := issueAction nbits w :: s.script,
           ctl := { s.ctl with busy := false },
           seq := { s.seq with phase := .idle } }

end Sys2Proof.Machine
end

