-- ==== Sys2Proof/Machine/Step.lean ====
section
/-! DEFINITION. The step function, and where an instruction is placed so that the next step runs it. -/

namespace Sys2Proof.Machine

/-- One step of the machine (46 R259). -/
def step (s : State) : Host.Outcome State Fault Refusal := advance s

/-- `s` with the instruction whose low `nbits` bits are `w` placed where `step` takes its next one:
the host's next action writes it to `CMD` (log 1). -/
def State.withFetchWord (s : State) (nbits w : Nat) : State := placeWord nbits w s

end Sys2Proof.Machine
end

