-- ==== Sys2Proof/Safety.lean ====
section
/-! DEFINITION. What a good state of LFM-CORE is: the invariants of 10_state R44 and the ranges of R21 to
R38, and the words in which the statements speak of runs. -/

namespace Sys2Proof.Machine

open Sys2Proof.Config

/-- The filled slots of a register file form a contiguous trailing block (R44 b, g). -/
def TrailingBlock {α : Type} (l : List (Option α)) : Prop :=
  ∃ (k : Nat) (filled : List α), l = List.replicate k none ++ filled.map some

/-- R44 but for its clause (d), which a second `HB_FLUSH` breaks (log 13), in an instance within the
bounds of R9, with the lengths of the two register files. -/
structure State.Sound (s : State) : Prop where
  /-- R9 -/
  params : s.params.Legal
  /-- R44 (a): `0 < THR < ADC_MAX` -/
  threshold : 0 < s.cfg.thrNum ∧ s.cfg.thrNum < adcMax * s.cfg.thrDen
  /-- R34, R44 (b) -/
  history : s.hist.length = histLen ∧ TrailingBlock s.hist
  /-- R44 (c) -/
  capacity : hbLen s ≤ s.params.maxPacketHalfBits ∧ fbLen s ≤ s.params.maxPacketSize
  /-- R44 (e) -/
  debounce : s.det.deb ≤ debounceMin
  /-- R44 (f) -/
  busy : s.ctl.busy = true ↔ s.seq.phase ≠ .idle
  /-- R33, R44 (g) -/
  window : s.win.length = s.params.windowN ∧ TrailingBlock s.win

/-- R44 (d): `FB_LEN <= HB_LEN div 16 + 1`. -/
def State.FrameWithinHalfBits (s : State) : Prop := fbLen s ≤ hbLen s / 16 + 1

/-- What makes R44 (d) last until a frame is closed twice (44 R212, log 13): whole groups give at most one
byte each, and a final flush one more; a receive loop starts before any flush. -/
structure State.FrameBound (s : State) : Prop where
  bytes : fbLen s ≤ hbLen s / 16 + s.dec.partialByte.toNat
  running : s.seq.phase = .scan ∨ s.seq.phase = .settle ∨ s.seq.phase = .decode →
    s.dec.partialByte = false

/-- The calibration registers: their widths (R26, R27), what the accumulators of a running second
scan mean (R133), and that a valid result is a legal threshold (R135). -/
structure State.CalibrationSound (s : State) : Prop where
  scans : 1 ≤ s.arg.calScan1 ∧ s.arg.calScan1 < 2 ^ 24 ∧ 1 ≤ s.arg.calScan2 ∧ s.arg.calScan2 < 2 ^ 24
  counts : s.cal.cnt < 2 ^ 24 ∧ s.cal.loCnt + s.cal.hiCnt < 2 ^ 24
  extremes : s.cal.cmin ≤ adcMax ∧ s.cal.cmax ≤ adcMax ∧ s.cal.mid2 ≤ 2 * adcMax
  sums : s.cal.loSum ≤ adcMax * s.cal.loCnt ∧ s.cal.hiSum ≤ adcMax * s.cal.hiCnt
  result : s.cal.calNum < 2 ^ 63 ∧ s.cal.calDen < 2 ^ 63
  legal : s.cal.calValid = true → 0 < s.cal.calNum ∧ s.cal.calNum < adcMax * s.cal.calDen
  scan1 : s.seq.phase = .cal1 → s.cal.loCnt = 0 ∧ s.cal.hiCnt = 0
  scan2 : s.seq.phase = .cal2 → 1 ≤ s.cal.cnt ∧ s.cal.cnt + s.cal.loCnt + s.cal.hiCnt < 2 ^ 24 ∧
    2 * s.cal.loSum + s.cal.loCnt ≤ s.cal.mid2 * s.cal.loCnt ∧
    s.cal.mid2 * s.cal.hiCnt + s.cal.hiCnt ≤ 2 * s.cal.hiSum

/-- A signed 64-bit integer. -/
def InInt64 (t : Int) : Prop := -2 ^ 63 ≤ t ∧ t < 2 ^ 63

/-- The ranges of the remaining registers (R21, R22, R23, R25, R28, R32, R38, R43) and the flags that
mirror another register (R30). -/
structure State.InRange (s : State) : Prop where
  freq : s.cfg.freq ≤ freqMax
  threshold : s.cfg.thrNum < 2 ^ 63 ∧ s.cfg.thrDen < 2 ^ 63
  args : s.arg.arg0 < 2 ^ 63 ∧ s.arg.arg1 < 2 ^ 63
  median : s.cond.median2 ≤ 2 * adcMax
  nodata : s.cond.nodata = true ↔ s.cond.level = .noData
  high : s.cond.high = true ↔ ∃ q, s.cond.level = .ratio q ∧ 1 ≤ q
  ambig : s.dec.ambigCount ≤ fbLen s ∧ (s.dec.ambig = true ↔ 0 < s.dec.ambigCount)
  frame : s.ctl.frameLen ≤ s.params.maxPacketSize
  transmit : s.tx.txLen ≤ s.params.txMax ∧ s.tx.bitIdx ≤ 7
  times : InInt64 s.det.tLast ∧ InInt64 s.seq.tStart ∧ InInt64 s.seq.tSettle ∧
    InInt64 s.env.lastNow

/-- The transmit buffer is in canonical form and lies below `TX_MAX` (R37). -/
def State.TxCanonical (s : State) : Prop :=
  Memory.wf s.tx.mem ∧ ∀ c ∈ s.tx.mem, c.1 < s.params.txMax

/-- What the sequencer's phase says of `OP`, `FREQ`, `DONE`, `LOCKED` and the counters of the operation in
progress (R24, R25, R30). -/
structure State.SequencerSound (s : State) : Prop where
  busy : s.ctl.busy = true ↔ s.seq.phase ≠ .idle
  running : s.ctl.busy = true → s.ctl.done = false ∧ s.ctl.locked = false
  locked : s.ctl.locked = true → s.cfg.freq ≠ 0
  calibrating : s.seq.phase = .cal1 ∨ s.seq.phase = .cal2 → s.seq.op = 0x21
  synchronizing : s.seq.phase = .scan ∨ s.seq.phase = .settle →
    (s.seq.op = 0x33 ∨ s.seq.op = 0x44) ∧ s.cfg.freq ≠ 0 ∧ s.dec.hb = [] ∧ s.dec.fb = []
  decoding : s.seq.phase = .decode →
    (s.seq.op = 0x43 ∨ s.seq.op = 0x44) ∧ s.cfg.freq ≠ 0 ∧ s.dec.carry = none
  preamble : s.seq.phase = .txPre →
    s.seq.op = 0x51 ∨ (s.seq.op = 0x52 ∧ s.cfg.freq ≠ 0)
  data : s.seq.phase = .txData →
    s.seq.op = 0x52 ∧ s.cfg.freq ≠ 0 ∧ s.tx.txIdx < s.tx.txLen

/-- The machine after `n` steps; the first stop ends the run. It is the run of `Sys2Proof.core`
(`Laws.runSteps_eq_core_run`). -/
def runSteps : Nat → State → Host.Outcome State Fault Refusal
  | 0, s => .next s
  | n + 1, s =>
    match step s with
    | .next t => runSteps n t
    | .fault r => .fault r
    | .refused r => .refused r

/-- The control registers after a command that was accepted by a free block and ended in the same step
with code `c`, lock cleared (46 R255). -/
def endedWith (c : Code) (k : CtlRegs) : CtlRegs :=
  { k with done := true, dropped := false, locked := false, code := c }

/-- The control registers after the start of a multi-step operation (46 R255). -/
def startedFrom (k : CtlRegs) : CtlRegs :=
  { k with busy := true, done := false, dropped := false, locked := false }

/-- The level estimate of a doubled median: the median over the threshold (42 R147). -/
def estimate (m2 : Nat) (c : CfgRegs) : Level :=
  .ratio ((m2 : Rat) / (2 * ((c.thrNum : Rat) / (c.thrDen : Rat))))

/-- The level operand that a `CL` immediate stands for (30 R82). -/
def levelMeant (m2 : BitVec 13) (nd : Bool) (c : CfgRegs) : Level :=
  if nd then .noData else estimate m2.toNat c

/-- The ten newest slots of a history hold ratios with the symbols `P[6]` to `P[15]` (43 R172). -/
def SuffixAgrees (h : List HistSlot) : Prop :=
  ∀ i, 6 ≤ i → i < 16 → ∃ q : Rat,
    h[i]? = some (some (.ratio q)) ∧ (1 ≤ q ↔ preamblePattern[i]? = some true)

/-- The decoder registers of a fresh frame, beside a carry (44 R204). -/
def freshDecoder (carry : Option Level) : DecRegs :=
  { hb := [], fb := [], ambigCount := 0, capx := false, partialByte := false, ambig := false,
    carry := carry }

/-- The fresh receive path of `BUF_RESET` (46 R258): everything it writes but `MATCH`. -/
def freshReceivePath (s : State) : State :=
  { s with win := List.replicate s.params.windowN none, hist := List.replicate histLen none,
           det := { cur := none, tLast := 0, deb := 0 }, dec := freshDecoder none,
           cond := { median2 := 0, level := .noData, nodata := true, high := false } }

/-- The phase edges of the sequencer (R24): from which phase one iteration may pass to which. -/
def phaseEdge : Phase → Phase → Bool
  | .idle, p => decide (p = .idle)
  | .cal1, p => decide (p = .cal1 ∨ p = .cal2)
  | .cal2, p => decide (p = .cal2 ∨ p = .idle)
  | .scan, p => decide (p = .scan ∨ p = .settle ∨ p = .idle)
  | .settle, p => decide (p = .settle ∨ p = .decode ∨ p = .idle)
  | .decode, p => decide (p = .decode ∨ p = .idle)
  | .txPre, p => decide (p = .txPre ∨ p = .txData ∨ p = .idle)
  | .txData, p => decide (p = .txData ∨ p = .idle)

/-- The port events of one bit of the encoder's loops: `Feed`, then the two halves of the cell
(45 R235, R241, R242). -/
def cellEvents (b : Bool) (hp : Rat) : List PortEvent :=
  [.feed, .actuate (!b), .wait hp, .actuate b, .wait hp]

/-- The bits of a byte, most significant first (20 R62). -/
def bitsMsbFirst (v : Byte) : List Bool :=
  [7, 6, 5, 4, 3, 2, 1, 0].map (fun k => v.getLsbD k)

/-- The half-bits of a byte on the line: every bit, most significant first, as the two halves of its
cell (30 R87). -/
def symbolsOf (v : Byte) : List Bool := (bitsMsbFirst v).flatMap (fun b => [!b, b])

/-- The bits of the preamble as sent: four 0 and four 1 (30 R91). -/
def preambleBits : List Bool := [false, false, false, false, true, true, true, true]

/-- The levels a list of port events puts on the line, one per `Actuate`. -/
def lineLevels (l : List PortEvent) : List Bool :=
  l.filterMap (fun e => match e with
    | .actuate b => some b
    | .feed => none
    | .nowUs _ => none
    | .readSample _ => none
    | .wait _ => none
    | .emitFrame _ => none
    | .hostRead _ _ => none)

/-- The microseconds a list of port events waits. -/
def waitedUs (l : List PortEvent) : Rat :=
  (l.map (fun e => match e with
    | .wait d => d
    | .feed => 0
    | .nowUs _ => 0
    | .readSample _ => 0
    | .actuate _ => 0
    | .emitFrame _ => 0
    | .hostRead _ _ => 0)).sum

/-- The frames handed to the sink in a list of port events. -/
def framesIn (l : List PortEvent) : List (List Byte) :=
  l.filterMap (fun e => match e with
    | .emitFrame b => some b
    | .feed => none
    | .nowUs _ => none
    | .readSample _ => none
    | .wait _ => none
    | .actuate _ => none
    | .hostRead _ _ => none)

/-- The head of the script issues the command `i` to a free block. -/
def State.Issues (s : State) (i : Instr) : Prop :=
  s.ctl.busy = false ∧ ∃ d rest, s.script = .write cmdAddress d :: rest ∧
    decodeWord (d.setWidth 32) = .ok i

/-- The head of the script is the reset input, between two steps or inside one. -/
def State.Resets (s : State) : Prop :=
  ∃ rest, s.script = .rst :: rest ∨
    ∃ command calls, s.script = .rstInside command calls :: rest

end Sys2Proof.Machine
end

