-- ==== Sys2Proof/Certificates/Slice0/Obligations.lean ====
section
/-! DEFINITION. What is claimed of the model, from the numbered rules of the spec. An equation
`exec i s = .next { s with … }` says the instruction's effect and its frame at once: every register, flag,
buffer and byte of `TX` that the record does not name is the one of `s`. -/

open Sys2Proof Sys2Proof.Machine Sys2Proof.Config

/-! ### The command word (30) -/

/-- Encoding (R81, R82, R84, R99): every well-formed operation decodes from its own word. -/
def Obligations.DecodeInvertsEncode : Prop :=
  ∀ i : Instr, i.WellFormed → decodeWord (encodeWord i) = .ok i

/-- Decoding (R81, R82): immediate bits that the sub-format does not use are ignored, and what a word
decodes to is well formed, has the word's opcode, and is written back by the encoder. A level operand is no
data when `IMM[13] = 1`, whatever `m2` is, and `m2 = IMM[12:0]` else; that the no-data operand is spelt with
`m2 = 0` is the model's choice (log 17). -/
def Obligations.UnusedImmediateBitsAreIgnored : Prop :=
  (∀ w w' : CmdWord, opcField w = opcField w' →
    immField w &&& usedImmMask (opcField w) = immField w' &&& usedImmMask (opcField w) →
    decodeWord w = decodeWord w') ∧
  (∀ (w : CmdWord) (i : Instr), decodeWord w = .ok i →
    i.WellFormed ∧ opcodeOf i = opcField w ∧ decodeWord (encodeWord i) = .ok i) ∧
  ∀ w : CmdWord,
    (opcField w = 0x31 → decodeWord w = .ok
      (if w.getLsbD 21 then .histAppend 0 true else .histAppend (w.extractLsb' 8 13) false)) ∧
    (opcField w = 0x41 → decodeWord w = .ok
      (if w.getLsbD 21 then .hbAppend 0 true else .hbAppend (w.extractLsb' 8 13) false))

/-- Illegal encodings (R85): the six ranges, and only they, are illegal; issuing one changes `CODE` and
`DONE` alone. -/
def Obligations.IllegalOpcodesChangeCodeAndDoneOnly : Prop :=
  ∀ (w : CmdWord) (s : State), s.ctl.busy = false →
    let o := w.toNat % 256
    let illegal := (0x04 ≤ o ∧ o ≤ 0x0F) ∨ (0x14 ≤ o ∧ o ≤ 0x1F) ∨ (0x22 ≤ o ∧ o ≤ 0x2F) ∨
      (0x34 ≤ o ∧ o ≤ 0x3F) ∨ (0x45 ≤ o ∧ o ≤ 0x4F) ∨ (0x53 ≤ o ∧ o ≤ 0xFF)
    (illegal → issueWord w s =
      .next { s with ctl := { s.ctl with done := true, code := .illegalCommand } }) ∧
    (¬ illegal → ∃ i, decodeWord w = .ok i ∧ issueWord w s = exec i s)

/-- Words written out from the tables of R81, R82 and R84 decode to what they stand for; the first four
are the examples of R99. -/
def Obligations.WrittenWordsDecode : Prop :=
  decodeWord 0x00000A01 = .ok (.setFreq 10) ∧
  decodeWord 0x00096011 = .ok (.winPush 2400) ∧
  decodeWord 0x00200041 = .ok (.hbAppend 0 true) ∧
  decodeWord 0x00000150 = .ok (.sendBit true false) ∧
  decodeWord 0x0012C031 = .ok (.histAppend 4800 false) ∧
  decodeWord 0x00000142 = .ok (.hbFlush true) ∧
  decodeWord 0x00000021 = .ok .calibrate ∧
  decodeWord 0xFFFFFF52 = .ok .transmitFrame

/-! ### Steps and commands (46) -/

/-- A step runs the command the host issues (R80, R259), and the word placed by `withFetchWord` is the next
one issued, to a free block (log 1). -/
def Obligations.StepRunsTheIssuedCommand : Prop :=
  (∀ (s : State) (rest : List HostAction) (d : HostWord) (i : Instr),
    s.script = .write 0x000 d :: rest → decodeWord (d.setWidth 32) = .ok i →
    step s = exec i { s with script := rest }) ∧
  ∀ (s : State) (nbits w : Nat) (i : Instr), decodeTableWord nbits w = some i →
    step (s.withFetchWord nbits w) =
      exec i { s with ctl := { s.ctl with busy := false }, seq := { s.seq with phase := .idle } }

/-- No step stops the machine: an error is a value in `CODE` (R275, R281). -/
def Obligations.StepNeverStops : Prop := ∀ s : State, ∃ t, step s = .next t

/-- When no host action is pending, or the host stays idle, a step is one iteration of the operation in
progress; an idle block does nothing (R259, R288; log 16). -/
def Obligations.StepRunsOneIteration : Prop :=
  (∀ s : State, s.script = [] → step s = .next (iterate s)) ∧
  (∀ (s : State) (rest : List HostAction), s.script = .tick :: rest →
    step s = .next (iterate { s with script := rest })) ∧
  ∀ s : State, s.seq.phase = .idle → iterate s = s

/-- A command written while `BUSY = 1` is dropped and sets `DROPPED`; nothing else changes (R277). -/
def Obligations.BusyBlockDropsCommands : Prop :=
  ∀ s : State, s.ctl.busy = true →
    (∀ w : CmdWord, issueWord w s = .next { s with ctl := { s.ctl with dropped := true } }) ∧
    ∀ i : Instr, exec i s = .next { s with ctl := { s.ctl with dropped := true } }

/-- No configuration changes under a running operation (R320): neither a host write nor an iteration
changes `FREQ`, `THR`, the operand registers, `TX`, `TX_LEN` or the instance's parameters. -/
def Obligations.ConfigurationFixedWhileBusy : Prop :=
  ∀ s t : State, s.ctl.busy = true → ¬ s.Resets → step s = .next t →
    t.cfg = s.cfg ∧ t.arg = s.arg ∧ t.tx.mem = s.tx.mem ∧ t.tx.txLen = s.tx.txLen ∧
    t.params = s.params

/-- Preconditions (R255): an operation that needs the bit rate ends with `BadConfig` while `FREQ = 0`;
`DECODE` with a bit rate but no lock ends with `NotLocked`. `DROPPED` is cleared as well (log 12). -/
def Obligations.PreconditionsAreChecked : Prop :=
  ∀ s : State, s.ctl.busy = false →
    (s.cfg.freq = 0 → ∀ i : Instr,
      (i = .synchronize ∨ i = .receiveFrame ∨ i = .transmitFrame ∨ i = .decode ∨
        ∃ b, i = .sendBit b false) →
      exec i s = .next { s with ctl := endedWith .badConfig s.ctl }) ∧
    (s.cfg.freq ≠ 0 → s.ctl.locked = false →
      exec .decode s = .next { s with ctl := endedWith .notLocked s.ctl })

/-- `NOP` (R256): it clears `DROPPED`, sets `DONE` and `CODE`, and is the only accepted command that keeps
`LOCKED`. -/
def Obligations.NopAloneKeepsTheLock : Prop :=
  ∀ s : State, s.ctl.busy = false →
    exec .nop s =
      .next { s with ctl := { s.ctl with done := true, dropped := false, code := .ok } } ∧
    ∀ i : Instr, i ≠ .nop → ∃ t, exec i s = .next t ∧ t.ctl.locked = false ∧ t.ctl.dropped = false

/-- `SET_FREQ` (R257): a frequency from 1 to 500 000 is installed, another one is `BadConfig` and changes
no configuration; no other operation writes `FREQ`. -/
def Obligations.SetFreqInstallsTheBitRate : Prop :=
  (∀ (s : State) (f : BitVec 19), s.ctl.busy = false →
    exec (.setFreq f) s = .next (if 0 < f.toNat ∧ f.toNat ≤ 500000
      then { s with cfg := { s.cfg with freq := f.toNat }, ctl := endedWith .ok s.ctl }
      else { s with ctl := endedWith .badConfig s.ctl })) ∧
  ∀ s t : State, step s = .next t → t.cfg.freq ≠ s.cfg.freq →
    s.Resets ∨ ∃ f : BitVec 19, s.Issues (.setFreq f) ∧ t.cfg.freq = f.toNat

/-- `SET_THRESH` (R146): `ARG0 / ARG1` is installed when it lies strictly between 0 and `ADC_MAX`, else
`BadConfig` and the old threshold stays; nothing stored is recomputed. No other operation writes `THR`
(R21). -/
def Obligations.SetThreshInstallsTheThreshold : Prop :=
  (∀ s : State, s.ctl.busy = false →
    exec .setThresh s = .next (if s.arg.arg1 = 0 ∨ s.arg.arg0 = 0 ∨ 4095 * s.arg.arg1 ≤ s.arg.arg0
      then { s with ctl := endedWith .badConfig s.ctl }
      else { s with cfg := { s.cfg with thrNum := s.arg.arg0, thrDen := s.arg.arg1 },
                    ctl := endedWith .ok s.ctl })) ∧
  ∀ s t : State, step s = .next t →
    (t.cfg.thrNum, t.cfg.thrDen) ≠ (s.cfg.thrNum, s.cfg.thrDen) → s.Resets ∨ s.Issues .setThresh

/-- `BUF_RESET` (R258): the whole receive path is fresh, `MATCH` and `LOCKED` are cleared, and `FREQ`,
`THR`, the calibration registers, the encoder and the sequencer's times stay. -/
def Obligations.BufResetFreshensTheReceivePath : Prop :=
  ∀ s : State, s.ctl.busy = false →
    exec .bufReset s =
      .next { freshReceivePath s with ctl := { endedWith .ok s.ctl with matched := false } }

/-! ### The window (40) and the conditioner (42) -/

/-- The three buffer resets: `WIN_RESET` (R111) makes every slot of the window the sentinel and keeps the
conditioner's registers; `HIST_CLEAR` (R170) makes sixteen empty slots and clears `MATCH`; `HB_RESET` (R204)
empties the decoder's buffers and clears its flags, but keeps the carry, the window and the detector. -/
def Obligations.BufferResetsEmptyTheirBuffers : Prop :=
  ∀ s : State, s.ctl.busy = false →
    exec .winReset s = .next { s with win := List.replicate s.params.windowN none,
                                      ctl := endedWith .ok s.ctl } ∧
    exec .histClear s = .next { s with hist := List.replicate 16 none,
                                       ctl := { endedWith .ok s.ctl with matched := false } } ∧
    exec .hbReset s = .next { s with dec := freshDecoder s.dec.carry, ctl := endedWith .ok s.ctl }

/-- `WIN_PUSH` (R112): the old `W[i + 1]` is at `W[i]`, the sample is at `W[N - 1]`, the length stays `N`. -/
def Obligations.WinPushShiftsTheWindow : Prop :=
  ∀ (s : State) (raw : Sample), s.ctl.busy = false → s.win.length = s.params.windowN →
    1 ≤ s.params.windowN →
    ∃ w : List Slot,
      exec (.winPush raw) s = .next { s with win := w, ctl := endedWith .ok s.ctl } ∧
      w.length = s.params.windowN ∧
      (∀ i, i + 1 < s.params.windowN → w[i]? = s.win[i + 1]?) ∧
      w[s.params.windowN - 1]? = some (some raw)

/-- `WIN_SELECT k` (R114): the `k`-th smallest valid entry, told by counting, or the sentinel when there are
not more than `k` valid entries; the window keeps its order. -/
def Obligations.WinSelectAnswersTheOrderStatistic : Prop :=
  ∀ (s : State) (k : BitVec 8), s.ctl.busy = false →
    ∃ r : Slot,
      exec (.winSelect k) s =
        .next { s with arg := { s.arg with selectOut := r }, ctl := endedWith .ok s.ctl } ∧
      (r = none ↔ s.win.countP Option.isSome ≤ k.toNat) ∧
      ∀ v : Sample, r = some v →
        some v ∈ s.win ∧
        s.win.countP (fun x => x.any (fun u => decide (u.toNat < v.toNat))) ≤ k.toNat ∧
        k.toNat < s.win.countP (fun x => x.any (fun u => decide (u.toNat ≤ v.toNat)))

/-- `WIN_MEDIAN` (R116): on an empty window no data, `MEDIAN2` kept; else, with `l` the valid entries in
order, the doubled median, its ratio to the threshold, and the comparator. -/
def Obligations.WinMedianEstimatesTheLevel : Prop :=
  ∀ s : State, s.ctl.busy = false →
    ((∀ x ∈ s.win, x = none) →
      exec .winMedian s =
        .next { s with cond := { s.cond with level := .noData, nodata := true, high := false },
                       ctl := endedWith .ok s.ctl }) ∧
    ∀ l : List Nat, l ≠ [] → l.Pairwise (· ≤ ·) →
      l.Perm (s.win.filterMap (fun x => x.map BitVec.toNat)) →
      let m2 := if l.length % 2 = 1 then 2 * l.getD ((l.length - 1) / 2) 0
        else l.getD (l.length / 2 - 1) 0 + l.getD (l.length / 2) 0
      exec .winMedian s =
        .next { s with cond := { median2 := m2, level := estimate m2 s.cfg, nodata := false,
                                 high := decide (2 * s.cfg.thrNum ≤ m2 * s.cfg.thrDen) },
                       ctl := endedWith .ok s.ctl }

/-- `PUSH_SAMPLE` (R148) is `WIN_PUSH` then `WIN_MEDIAN`, and its result is never `NoData`. -/
def Obligations.PushSampleIsPushThenMedian : Prop :=
  ∀ (s : State) (raw : Sample), s.ctl.busy = false →
    ∃ t u : State, exec (.winPush raw) s = .next t ∧ exec .winMedian t = .next u ∧
      exec (.pushSample raw) s = .next u ∧
      u = { s with win := t.win, cond := u.cond, ctl := endedWith .ok s.ctl } ∧
      u.cond.nodata = false ∧ ∃ q, u.cond.level = .ratio q

/-- Law of the median (R117 (d), an inference the spec draws from R116): in a window of two values the more
frequent one decides, and a tie gives their average. -/
def Obligations.MedianFollowsTheMajority : Prop :=
  ∀ (s : State) (lo hi : Sample), s.ctl.busy = false → lo.toNat < hi.toNat →
    (∀ x ∈ s.win, x = none ∨ x = some lo ∨ x = some hi) →
    0 < s.win.count (some lo) + s.win.count (some hi) →
    ∃ t, exec .winMedian s = .next t ∧
      t.cond.median2 =
        if s.win.count (some lo) < s.win.count (some hi) then 2 * hi.toNat
        else if s.win.count (some hi) < s.win.count (some lo) then 2 * lo.toNat
        else lo.toNat + hi.toNat

/-! ### The calibrator (41) -/

/-- `CALIBRATE` at acceptance (R131). That it writes its opcode to `OP` is DEDUCED (log 8). -/
def Obligations.CalibrateStarts : Prop :=
  ∀ s : State, s.ctl.busy = false →
    exec .calibrate s = .next { s with
      cal := { cnt := s.arg.calScan1, cmin := 4095, cmax := 0, mid2 := s.cal.mid2, loSum := 0,
               hiSum := 0, loCnt := 0, hiCnt := 0, calNum := 0, calDen := 1, calValid := false },
      seq := { s.seq with op := 0x21, phase := .cal1 },
      ctl := startedFrom s.ctl }

/-- A whole `CALIBRATE` (R130 to R134, R136): after as many iterations as samples, the threshold is the
exact mean of the two group means, or `InsufficientSpread` when a group is empty; the samples are read in
order and nothing else is called; `THR` and the receive and transmit paths are untouched. That `OP` holds
the opcode afterwards is DEDUCED (log 8). -/
def Obligations.CalibrateComputesTheThreshold : Prop :=
  ∀ (s : State) (first second rest : List Sample),
    s.ctl.busy = false → s.script = [] → first ≠ [] → second ≠ [] →
    first.length = s.arg.calScan1 → second.length = s.arg.calScan2 →
    s.env.samples = first ++ second ++ rest →
    let mid2 := (first.map BitVec.toNat).foldl min 4095 + (first.map BitVec.toNat).foldl max 0
    let lo := (second.map BitVec.toNat).filter (fun r => 2 * r < mid2)
    let hi := (second.map BitVec.toNat).filter (fun r => mid2 < 2 * r)
    ∃ u t : State, exec .calibrate s = .next u ∧
      runSteps (first.length + second.length) u = .next t ∧
      t = { s with
        cal := t.cal,
        seq := { s.seq with op := 0x21, phase := .idle },
        ctl := endedWith (if lo = [] ∨ hi = [] then .insufficientSpread else .ok) s.ctl,
        env := { s.env with
          samples := rest,
          calls := s.env.calls ++ (first ++ second).map PortEvent.readSample } } ∧
      t.cal.calValid = decide (lo ≠ [] ∧ hi ≠ []) ∧
      t.cal.calNum = (if lo = [] ∨ hi = [] then 0 else lo.sum * hi.length + hi.sum * lo.length) ∧
      t.cal.calDen = (if lo = [] ∨ hi = [] then 1 else 2 * lo.length * hi.length)

/-! ### The synchronizer (43) -/

/-- `HIST_APPEND` (R171): the slots move one place down and the operand, at the threshold of this moment, is
the newest; no data is stored as no data. -/
def Obligations.HistAppendShiftsTheHistory : Prop :=
  ∀ (s : State) (m2 : BitVec 13) (nd : Bool), s.ctl.busy = false → s.hist.length = 16 →
    ∃ h : List HistSlot,
      exec (.histAppend m2 nd) s = .next { s with hist := h, ctl := endedWith .ok s.ctl } ∧
      h.length = 16 ∧ (∀ i, i < 15 → h[i]? = s.hist[i + 1]?) ∧
      h[15]? = some (some (levelMeant m2 nd s.cfg))

/-- `HIST_MATCH` (R172): `MATCH` says whether each of the ten newest slots holds a ratio whose symbol is the
pattern's; the six oldest slots do not matter. -/
def Obligations.HistMatchTestsTheSuffix : Prop :=
  ∀ s : State, s.ctl.busy = false → s.hist.length = 16 →
    ∃ m : Bool,
      exec .histMatch s = .next { s with ctl := { endedWith .ok s.ctl with matched := m } } ∧
      (m = true ↔ SuffixAgrees s.hist)

/-- Suffix match (R173 (a), (b), which the spec derives from R172): fewer than ten filled slots never match;
nor does a history whose ten newest symbols are `P[m - 10]` to `P[m - 1]` of a preamble still arriving. -/
def Obligations.PartialPreambleDoesNotMatch : Prop :=
  ∀ s : State, s.ctl.busy = false → s.hist.length = 16 →
    (TrailingBlock s.hist → s.hist.countP Option.isSome < 10 →
      ∃ t, exec .histMatch s = .next t ∧ t.ctl.matched = false) ∧
    ∀ m, 10 ≤ m → m ≤ 15 →
      (∀ k, k < 10 → ∃ q : Rat, s.hist[6 + k]? = some (some (.ratio q)) ∧
        (1 ≤ q ↔ preamblePattern[m - 10 + k]? = some true)) →
      ∃ t, exec .histMatch s = .next t ∧ t.ctl.matched = false

/-- `SYNCHRONIZE` and `RECEIVE_FRAME` at acceptance (R175, R220): a fresh receive path, `FIRST` set, and the
scan begins; what `RESULT` shows of the last emitted frame (R43) stays. -/
def Obligations.ScanStartsFresh : Prop :=
  ∀ (s : State) (i : Instr) (op : BitVec 8), s.ctl.busy = false → s.cfg.freq ≠ 0 →
    (i = .synchronize ∧ op = 0x33) ∨ (i = .receiveFrame ∧ op = 0x44) →
    exec i s = .next { freshReceivePath s with
      seq := { s.seq with op := op, phase := .scan, first := true },
      ctl := { startedFrom s.ctl with matched := false } }

/-- The scan iteration in full (R176, R177, R179, R272). At the timeout no sample is read, the code is
`SyncTimeout`, the block is free and not locked, no frame is emitted, and the length in `RESULT` is 0 (R223
against R43, DEDUCED: log 7). Else the sample is pushed and the detector asked; each slot of an ended hold is appended, and the suffix tested after it: the first match
clears the history, keeps the second slot of a doubled hold as the carry, latches `T_SETTLE` and settles. -/
def Obligations.ScanTimesOut : Prop :=
  ∀ (s : State) (w : HostWord) (rest : List HostWord), s.script = [] → s.seq.phase = .scan →
    s.env.clock = w :: rest → s.env.lastNow ≤ w.toInt →
    let start := if s.seq.first then w.toInt else s.seq.tStart
    ((s.params.syncTimeoutUs : Int) ≤ w.toInt - start →
      step s = .next { s with
        seq := { s.seq with phase := .idle, tStart := start, first := false },
        ctl := { s.ctl with busy := false, done := true, locked := false, code := .syncTimeout,
                            frameLen := 0 },
        env := { s.env with clock := rest, lastNow := w.toInt,
                            calls := s.env.calls ++ [.feed, .nowUs w.toInt] } }) ∧
    (w.toInt - start < s.params.syncTimeoutUs → s.hist.length = 16 →
      ∀ (raw : Sample) (more : List Sample), s.env.samples = raw :: more →
        let sampled := { s with
          seq := { s.seq with tStart := start, first := false },
          env := { s.env with clock := rest, lastNow := w.toInt, samples := more,
                              calls := s.env.calls ++
                                [.feed, .nowUs w.toInt, .readSample raw] } }
        let pushed := pushSample raw sampled
        let asked := (tdStep pushed.cond.level w.toInt pushed).2
        ((tdStep pushed.cond.level w.toInt pushed).1 = none → step s = .next asked) ∧
        ∀ (k : Nat) (lv : Level), (tdStep pushed.cond.level w.toInt pushed).1 = some (k, lv) →
          let h1 := s.hist.drop 1 ++ [some lv]
          let h2 := h1.drop 1 ++ [some lv]
          let settling (carry : Option Level) := { asked with
            hist := List.replicate 16 none,
            dec := { s.dec with carry := carry },
            ctl := { s.ctl with matched := false },
            seq := { asked.seq with tSettle := w.toInt, phase := .settle } }
          let scanning (h : List HistSlot) := { asked with
            hist := h, ctl := { s.ctl with matched := false } }
          (k = 1 ∨ k = 2) ∧
          (SuffixAgrees h1 →
            step s = .next (settling (if k = 2 then some lv else s.dec.carry))) ∧
          (¬ SuffixAgrees h1 → k = 1 → step s = .next (scanning h1)) ∧
          (¬ SuffixAgrees h1 → k = 2 → SuffixAgrees h2 →
            step s = .next (settling s.dec.carry)) ∧
          (¬ SuffixAgrees h1 → k = 2 → ¬ SuffixAgrees h2 → step s = .next (scanning h2)))

/-- Idle line (R181, which the spec derives from R165, R176 and R179): a source that answers one value
forever makes a synchronizing operation end with `SyncTimeout` at the first clock answer that is the window
after the first one, with an empty history and no frame emitted. That the length in `RESULT` is then 0 is
DEDUCED (log 7, from R223 against R43). -/
def Obligations.IdleLineTimesOut : Prop :=
  ∀ (s : State) (i : Instr) (raw : Sample) (w0 wl : HostWord) (ws restClock : List HostWord)
    (restSamples : List Sample),
    (i = .synchronize ∨ i = .receiveFrame) → s.ctl.busy = false → s.cfg.freq ≠ 0 →
    s.script = [] → 1 ≤ s.params.windowN → 1 ≤ s.params.syncTimeoutUs →
    s.env.clock = (w0 :: ws) ++ wl :: restClock →
    s.env.samples = List.replicate (ws.length + 1) raw ++ restSamples →
    s.env.lastNow ≤ w0.toInt →
    ((w0 :: ws) ++ [wl]).Pairwise (fun a b => a.toInt ≤ b.toInt) →
    (∀ w ∈ ws, w.toInt - w0.toInt < s.params.syncTimeoutUs) →
    (s.params.syncTimeoutUs : Int) ≤ wl.toInt - w0.toInt →
    ∃ u t : State, exec i s = .next u ∧ runSteps (ws.length + 2) u = .next t ∧
      t.seq.phase = .idle ∧ t.ctl.busy = false ∧ t.ctl.done = true ∧ t.ctl.locked = false ∧
      t.ctl.code = .syncTimeout ∧ t.ctl.frameLen = 0 ∧ t.hist = List.replicate 16 none ∧
      t.dec = freshDecoder none ∧
      t.env.samples = restSamples ∧ t.env.clock = restClock ∧
      framesIn t.env.calls = framesIn s.env.calls

/-- The settle iteration (R178, R179, R214): while the delay lasts only the clock is read. The iteration that
sees it elapsed locks and ends a `SYNCHRONIZE`; in a `RECEIVE_FRAME` it goes on to decode, the carry, if
there is one, being the first half-bit. -/
def Obligations.SettleLocks : Prop :=
  ∀ (s : State) (w : HostWord) (rest : List HostWord), s.script = [] → s.seq.phase = .settle →
    s.env.clock = w :: rest → s.env.lastNow ≤ w.toInt →
    let waited := { s with env := { s.env with clock := rest, lastNow := w.toInt,
                                               calls := s.env.calls ++ [.feed, .nowUs w.toInt] } }
    (w.toInt - s.seq.tSettle < s.params.settleUs → step s = .next waited) ∧
    ((s.params.settleUs : Int) ≤ w.toInt - s.seq.tSettle → s.seq.op = 0x33 →
      step s = .next { waited with
        seq := { s.seq with phase := .idle },
        ctl := { s.ctl with busy := false, done := true, locked := true, code := .ok } }) ∧
    ((s.params.settleUs : Int) ≤ w.toInt - s.seq.tSettle → s.seq.op = 0x44 → s.dec.hb = [] →
      1 ≤ s.params.maxPacketHalfBits →
      step s = .next { waited with
        seq := { s.seq with phase := .decode },
        dec := { s.dec with hb := s.dec.carry.toList, carry := none } })

/-- `LOCKED` is set by the successful end of `SYNCHRONIZE` and by nothing else (R30, R179). -/
def Obligations.OnlySynchronizeSetsLocked : Prop :=
  ∀ s t : State, step s = .next t → s.ctl.locked = false → t.ctl.locked = true →
    s.seq.phase = .settle ∧ s.seq.op = 0x33 ∧ t.seq.phase = .idle ∧ t.ctl.busy = false ∧
    t.ctl.done = true ∧ t.ctl.code = .ok

/-- `TD_STEP` in full (R165): the count saturates at 6, no data is no transition, the first level is
adopted, and a flip that has waited 6 pushes ends a hold of one slot up to `750 000 / FREQ` microseconds
and of two beyond. -/
def Obligations.TransitionDetectorStep : Prop :=
  ∀ (s : State) (now : Int),
    let counted := { s with det := { s.det with deb := min (s.det.deb + 1) 6 } }
    tdStep .noData now s = (none, counted) ∧
    ∀ q : Rat,
      let accepted := { s with det := { cur := some q, tLast := now, deb := 0 } }
      (s.det.cur = none → tdStep (.ratio q) now s = (none, accepted)) ∧
      ∀ c : Rat, s.det.cur = some c →
        tdStep (.ratio q) now s =
          if ¬ (1 ≤ q ↔ 1 ≤ c) ∧ 6 ≤ min (s.det.deb + 1) 6 then
            (some (if (now - s.det.tLast) * s.cfg.freq ≤ 750000 then 1 else 2, .ratio c), accepted)
          else (none, counted)

/-- Debounce (R163): after an accepted transition the next five pushes answer nothing, whatever they are;
the sixth may be accepted. -/
def Obligations.AcceptedTransitionsAreSixPushesApart : Prop :=
  (∀ (s : State) (pushes : List (Level × Int)), s.det.deb = 0 → pushes.length ≤ 5 →
    ∀ answer ∈ (pushes.foldl
        (fun acc e => (acc.1 ++ [(tdStep e.1 e.2 acc.2).1], (tdStep e.1 e.2 acc.2).2))
        (([] : List (Option (Nat × Level))), s)).1, answer = none) ∧
  ∀ (s : State) (q c : Rat) (now : Int), s.det.deb = 5 → s.det.cur = some c → hi q ≠ hi c →
    ∃ k, (tdStep (.ratio q) now s).1 = some (k, .ratio c)

/-! ### The decoder (44) -/

/-- `PAIR` (R198): no data is ambiguous; the epsilon test comes first when `AMBIG_EPS > 0`; then low-high is
1, high-low is 0, and the rest is ambiguous. -/
def Obligations.PairFollowsTheTable : Prop :=
  ∀ (p : Params) (a : Level) (qa qb : Rat),
    pair p .noData a = .ambiguous ∧ pair p a .noData = .ambiguous ∧
    pair p (.ratio qa) (.ratio qb) =
      if 0 < p.ambigEps ∧ |qa - qb| < p.ambigEps then .ambiguous
      else if qa < 1 ∧ 1 ≤ qb then .one
      else if 1 ≤ qa ∧ qb < 1 then .zero
      else .ambiguous

/-- `BYTE_DECODE` (R200), over the pairs that are complete: one ambiguous pair makes the byte the
placeholder, marked; else pair `p` gives bit `7 - p`, and a missing pair a 0. -/
def Obligations.ByteDecodePacksThePairs : Prop :=
  ∀ (s : State) (start n : Nat), n ≤ 16 → start + n ≤ hbLen s →
    ((∃ p a b, 2 * p + 1 < n ∧ hbAt s (start + 2 * p) = some a ∧
        hbAt s (start + 2 * p + 1) = some b ∧ pair s.params a b = .ambiguous) →
      byteDecode start n s = (s.params.placeholder, true)) ∧
    ((∀ p a b, 2 * p + 1 < n → hbAt s (start + 2 * p) = some a →
        hbAt s (start + 2 * p + 1) = some b → pair s.params a b ≠ .ambiguous) →
      (byteDecode start n s).2 = false ∧
      ∀ p, p < 8 → ((byteDecode start n s).1.getLsbD (7 - p) = true ↔
        2 * p + 1 < n ∧ ∃ a b, hbAt s (start + 2 * p) = some a ∧
          hbAt s (start + 2 * p + 1) = some b ∧ pair s.params a b = .one))

/-- The encoder's byte decodes to itself (R201 (a), which the spec derives from R198, R200 and R87): sixteen
half-bits with the symbols of `v`, high and low at least `AMBIG_EPS` apart, decode to `v`, unmarked. -/
def Obligations.EncodedByteDecodesToItself : Prop :=
  ∀ (s : State) (start : Nat) (v : Byte) (g : List Rat),
    (s.dec.hb.drop start).take 16 = g.map Level.ratio → g.map hi = symbolsOf v →
    (∀ a ∈ g, ∀ b ∈ g, hi a ≠ hi b → s.params.ambigEps ≤ |a - b|) →
    byteDecode start 16 s = (v, false)

/-- `HB_APPEND` (R205, R207): the half-bit guard; a half-bit that closes no byte; and the sixteenth of a
group, which the byte guard drops or `BYTE_DECODE` turns into the next byte. -/
def Obligations.HbAppendStoresAndClosesBytes : Prop :=
  ∀ (s : State) (m2 : BitVec 13) (nd : Bool), s.ctl.busy = false →
    let stored := s.dec.hb ++ [levelMeant m2 nd s.cfg]
    let r := byteDecode (hbLen s - 15) 16 { s with dec := { s.dec with hb := stored } }
    exec (.hbAppend m2 nd) s = .next (
      if hbLen s = s.params.maxPacketHalfBits then
        { s with dec := { s.dec with capx := true }, ctl := endedWith .capacityExceeded s.ctl }
      else if (hbLen s + 1) % 16 ≠ 0 then
        { s with dec := { s.dec with hb := stored }, ctl := endedWith .ok s.ctl }
      else if fbLen s = s.params.maxPacketSize then
        { s with dec := { s.dec with hb := stored, capx := true },
                 ctl := endedWith .capacityExceeded s.ctl }
      else
        { s with dec := { s.dec with hb := stored, fb := s.dec.fb ++ [r.1],
                                     ambigCount := s.dec.ambigCount + r.2.toNat,
                                     ambig := s.dec.ambig || r.2 },
                 ctl := endedWith (if r.2 then .ambiguousBit else .ok) s.ctl })

/-- `HB_FLUSH` (R209 to R213): an odd count is completed at idle, what is left of a group closes one partial
byte, the frame is emitted once, the code follows the priority, and `RESULT`'s length (R43) is the frame's. -/
def Obligations.HbFlushFinalizesTheFrame : Prop :=
  ∀ (s : State) (idle : Bool), s.ctl.busy = false →
    ∃ t : State, exec (.hbFlush idle) s = .next t ∧
      t = { s with
        dec := t.dec,
        ctl := { endedWith (if t.dec.capx then .capacityExceeded
          else if t.dec.ambig then .ambiguousBit else .ok) s.ctl with frameLen := fbLen t },
        env := { s.env with calls := s.env.calls ++ [.emitFrame t.dec.fb] } } ∧
      t.dec.carry = s.dec.carry ∧
      (∀ q, idle = true → s.det.cur = some q → hbLen s % 2 = 1 →
        hbLen s < s.params.maxPacketHalfBits → t.dec.hb = s.dec.hb ++ [.ratio q]) ∧
      (idle = false ∨ s.det.cur = none ∨ hbLen s % 2 = 0 ∨
        s.params.maxPacketHalfBits ≤ hbLen s → t.dec.hb = s.dec.hb) ∧
      t.dec.partialByte = (s.dec.partialByte || decide (hbLen t % 16 ≠ 0)) ∧
      let nothingClosed := hbLen t % 16 = 0 ∧ hbLen t = hbLen s
      let start := (hbLen t - 1) / 16 * 16
      let r := byteDecode start (hbLen t - start) t
      (nothingClosed → t.dec.fb = s.dec.fb ∧ t.dec.capx = s.dec.capx ∧ t.dec.ambig = s.dec.ambig ∧
        t.dec.ambigCount = s.dec.ambigCount) ∧
      (¬ nothingClosed → fbLen s = s.params.maxPacketSize →
        t.dec.fb = s.dec.fb ∧ t.dec.capx = true ∧ t.dec.ambig = s.dec.ambig ∧
        t.dec.ambigCount = s.dec.ambigCount) ∧
      (¬ nothingClosed → fbLen s ≠ s.params.maxPacketSize →
        t.dec.fb = s.dec.fb ++ [r.1] ∧ t.dec.capx = s.dec.capx ∧
        t.dec.ambig = (s.dec.ambig || r.2) ∧ t.dec.ambigCount = s.dec.ambigCount + r.2.toNat)

/-- `DECODE` at acceptance (R214, R215): a fresh decoder whose first half-bit is the carry, if there is
one. -/
def Obligations.DecodeStartsFromTheCarry : Prop :=
  ∀ s : State, s.ctl.busy = false → s.cfg.freq ≠ 0 → s.ctl.locked = true →
    1 ≤ s.params.maxPacketHalfBits →
    exec .decode s = .next { s with
      dec := { freshDecoder none with hb := s.dec.carry.toList },
      seq := { s.seq with op := 0x43, phase := .decode },
      ctl := startedFrom s.ctl }

/-- The decode iteration (R216 to R219, R222): it either goes on and emits nothing, or ends the operation
with one frame emitted last, by the idle gap with no sample read, or by a capacity guard. Between the two,
the sample is pushed, the detector asked, and the half-bits of an ended hold appended one by one; `HB` and
`FB` stay when no hold ended, and the capacity end comes exactly when an append answers `FULL`. -/
def Obligations.DecodeEndsByIdleOrCapacity : Prop :=
  ∀ (s : State) (w : HostWord) (rest : List HostWord), s.script = [] → s.seq.phase = .decode →
    s.env.clock = w :: rest → s.env.lastNow ≤ w.toInt →
    ∃ t : State, step s = .next t ∧ t.cfg = s.cfg ∧ t.ctl.locked = s.ctl.locked ∧
      (10000000 < (w.toInt - s.det.tLast) * s.cfg.freq →
        t.seq.phase = .idle ∧ t.env.samples = s.env.samples ∧
        t.env.calls = s.env.calls ++ [.feed, .nowUs w.toInt, .emitFrame t.dec.fb]) ∧
      ((w.toInt - s.det.tLast) * s.cfg.freq ≤ 10000000 →
        ∃ raw : Sample,
          (t.seq.phase = .decode ∧ t.ctl = s.ctl ∧
            t.env.calls = s.env.calls ++ [.feed, .nowUs w.toInt, .readSample raw]) ∨
          (t.seq.phase = .idle ∧ t.dec.capx = true ∧ t.env.calls = s.env.calls ++
            [.feed, .nowUs w.toInt, .readSample raw, .emitFrame t.dec.fb])) ∧
      (t.seq.phase = .idle → t.ctl.busy = false ∧ t.ctl.done = true ∧
        t.ctl.frameLen = fbLen t ∧
        t.ctl.code = if t.dec.capx then .capacityExceeded
          else if t.dec.ambig then .ambiguousBit else .ok) ∧
      let waited := { s with env := { s.env with clock := rest, lastNow := w.toInt,
                                                 calls := s.env.calls ++ [.feed, .nowUs w.toInt] } }
      (10000000 < (w.toInt - s.det.tLast) * s.cfg.freq →
        t = endOperation (finalize true waited)) ∧
      ((w.toInt - s.det.tLast) * s.cfg.freq ≤ 10000000 →
        ∀ (raw : Sample) (more : List Sample), s.env.samples = raw :: more →
          let pushed := pushSample raw { waited with env := { waited.env with
            samples := more, calls := waited.env.calls ++ [.readSample raw] } }
          let asked := (tdStep pushed.cond.level w.toInt pushed).2
          asked.dec = s.dec ∧
          ((tdStep pushed.cond.level w.toInt pushed).1 = none → t = asked) ∧
          ∀ (k : Nat) (lv : Level), (tdStep pushed.cond.level w.toInt pushed).1 = some (k, lv) →
            let one := hbAppend lv asked
            let two := hbAppend lv one.2
            (k = 1 ∨ k = 2) ∧
            (one.1 = .full → t = endOperation (finalize false one.2)) ∧
            (one.1 ≠ .full → k = 1 → t = one.2) ∧
            (one.1 ≠ .full → k = 2 → two.1 = .full → t = endOperation (finalize false two.2)) ∧
            (one.1 ≠ .full → k = 2 → two.1 ≠ .full → t = two.2))

/-- `RECEIVE_FRAME` is `SYNCHRONIZE` then `DECODE` (R221): a run of it that has ended is either the run of
`SYNCHRONIZE` that timed out, or the run of `SYNCHRONIZE` to its lock and, from the `DECODE` issued there,
the rest of the run; only `OP` tells them apart. -/
def Obligations.ReceiveFrameIsSynchronizeThenDecode : Prop :=
  ∀ (s b t : State) (n : Nat), s.ctl.busy = false → s.cfg.freq ≠ 0 → s.script = [] →
    exec .receiveFrame s = .next b → runSteps n b = .next t → t.ctl.busy = false →
    ∃ a : State, exec .synchronize s = .next a ∧
      ((∃ v, runSteps n a = .next v ∧ v.ctl.code = .syncTimeout ∧ v.ctl.locked = false ∧
          t = { v with seq := { v.seq with op := 0x44 } }) ∨
       ∃ (m : Nat) (u d v : State), m ≤ n ∧ runSteps m a = .next u ∧ u.ctl.locked = true ∧
          exec .decode u = .next d ∧ runSteps (n - m) d = .next v ∧
          t = { v with seq := { v.seq with op := 0x44 } })

/-! ### The encoder (45) -/

/-- `SEND_BIT` (R236): one cell at the selected half-period, and the line left at the bit's second half; the
data rate without a frequency is `BadConfig`. -/
def Obligations.SendBitSendsOneCell : Prop :=
  ∀ (s : State) (b r : Bool), s.ctl.busy = false →
    let hp : Rat := if r then s.params.preambleHalfUs else 1000000 / (2 * (s.cfg.freq : Rat))
    (r = false ∧ s.cfg.freq = 0 →
      exec (.sendBit b r) s = .next { s with ctl := endedWith .badConfig s.ctl }) ∧
    (r = true ∨ s.cfg.freq ≠ 0 →
      exec (.sendBit b r) s = .next { s with
        tx := { s.tx with led := b },
        env := { s.env with calls := s.env.calls ++
          [.actuate (!b), .wait hp, .actuate b, .wait hp] },
        ctl := endedWith .ok s.ctl })

/-- The two transmit operations at acceptance (R238, R240). -/
def Obligations.TransmissionStarts : Prop :=
  ∀ s : State, s.ctl.busy = false →
    exec .sendPreamble s = .next { s with
      tx := { s.tx with bitIdx := 0 },
      seq := { s.seq with op := 0x51, phase := .txPre },
      ctl := startedFrom s.ctl } ∧
    (s.cfg.freq ≠ 0 →
      exec .transmitFrame s = .next { s with
        tx := { s.tx with bitIdx := 0, txIdx := 0 },
        seq := { s.seq with op := 0x52, phase := .txPre },
        ctl := startedFrom s.ctl })

/-- A whole `SEND_PREAMBLE` (R238, and R239, which the spec derives from R235 and R241): eight cells at the
preamble's half-period; the levels on the line are the preamble pattern, and the line stays high. -/
def Obligations.SendPreambleDrivesThePattern : Prop :=
  ∀ s : State, s.ctl.busy = false → s.script = [] →
    let events := preambleBits.flatMap (fun b => cellEvents b s.params.preambleHalfUs)
    lineLevels events = preamblePattern ∧
    ∃ u, exec .sendPreamble s = .next u ∧
      runSteps 8 u = .next { s with
        tx := { s.tx with led := true, bitIdx := 7 },
        seq := { s.seq with op := 0x51, phase := .idle },
        ctl := endedWith .ok s.ctl,
        env := { s.env with calls := s.env.calls ++ events } }

/-- A whole `TRANSMIT_FRAME` of `n` bytes (R240 to R243, and R244, which the spec derives from them): the
preamble's cells, the cells of every byte, most significant bit first, and the line driven low; and what
that trace counts and lasts. -/
def Obligations.TransmitFrameSendsTheBytes : Prop :=
  ∀ s : State, s.ctl.busy = false → s.script = [] → s.cfg.freq ≠ 0 →
    let n := s.tx.txLen
    let half : Rat := 1000000 / (2 * (s.cfg.freq : Rat))
    let events :=
      preambleBits.flatMap (fun b => cellEvents b s.params.preambleHalfUs) ++
      (List.range n).flatMap
        (fun j => (bitsMsbFirst (txAt s j)).flatMap (fun b => cellEvents b half)) ++
      [.actuate false]
    (∃ u, exec .transmitFrame s = .next u ∧
      runSteps (8 + 8 * n) u = .next { s with
        tx := { s.tx with led := false, txIdx := n, bitIdx := 7 },
        seq := { s.seq with op := 0x52, phase := .idle },
        ctl := endedWith .ok s.ctl,
        env := { s.env with calls := s.env.calls ++ events } }) ∧
    events.count .feed = 8 + 8 * n ∧ (lineLevels events).length = 17 + 16 * n ∧
    waitedUs events = 16 * s.params.preambleHalfUs + 16 * n * half

/-! ### Reset and the host's registers (10, 70) -/

/-- Reset (R45, R311, R312): every register, flag, register file and memory takes the value of the table at
once, in an instance whose parameters stay, and no call is made. Inside a step (log 14) the calls made
before the reset stand, whatever the operation and wherever it is cut, and nothing follows: no end rule, no
frame. The frame length of `RESULT`, which the table does not list, is 0 (log 7). -/
def Obligations.ResetLeavesTheTable : Prop :=
  (∀ (s : State) (rest : List HostAction),
    (s.script = .rst :: rest ∨
      ∃ command calls, s.script = .rstInside command calls :: rest) →
    ∃ t : State, step s = .next t ∧
      (s.script = .rst :: rest → t.env = s.env) ∧
      (∀ command calls u l, s.script = .rstInside command calls :: rest →
        issueOrIterate command { s with script := rest } = .next u →
        u.env.calls = s.env.calls ++ l → t.env.calls = s.env.calls ++ l.take calls) ∧
      t = {
      cfg := { freq := 0, thrNum := s.params.defaultThreshold, thrDen := 1 },
      cond := { median2 := 0, level := .noData, nodata := true, high := false },
      det := { cur := none, tLast := 0, deb := 0 },
      seq := { phase := .idle, tStart := 0, tSettle := 0, first := false, op := 0x00 },
      cal := { cnt := 0, cmin := 0, cmax := 0, mid2 := 0, loSum := 0, hiSum := 0, loCnt := 0,
               hiCnt := 0, calNum := 0, calDen := 1, calValid := false },
      dec := freshDecoder none,
      ctl := { busy := false, done := false, locked := false, matched := false, dropped := false,
               code := .ok, frameLen := 0 },
      arg := { arg0 := 0, arg1 := 0, calScan1 := 4096, calScan2 := 50000, selectOut := none },
      tx := { led := false, txLen := 0, txIdx := 0, bitIdx := 7, mem := [] },
      win := List.replicate s.params.windowN none,
      hist := List.replicate 16 none,
      params := s.params, env := t.env, script := t.script }) ∧
  ∀ a, memRead [] a = 0

/-- Host reads (R67): a read, whatever it addresses, changes nothing but the model's record of the port (log
11), and a second read of the same address answers the same. -/
def Obligations.HostReadsHaveNoSideEffect : Prop :=
  (∀ (s : State) (a : Nat) (rest : List HostAction), s.script = .read a :: rest →
    step s = .next { s with script := rest, env := { s.env with
      calls := s.env.calls ++ [.hostRead a (hostRead a s)] } }) ∧
  ∀ (s : State) (a b : Nat) (rest : List HostAction), s.script = .read a :: rest →
    ∃ t, step s = .next t ∧ hostRead b t = hostRead b s

/-- `STATUS` (R42), bit by bit. -/
def Obligations.StatusLayout : Prop :=
  ∀ s : State, s.det.deb ≤ 6 →
    let v := hostRead 0x001 s
    v.getLsbD 0 = s.ctl.busy ∧ v.getLsbD 1 = s.ctl.done ∧ v.getLsbD 2 = s.ctl.locked ∧
    v.getLsbD 3 = s.ctl.matched ∧ v.getLsbD 4 = s.cond.nodata ∧ v.getLsbD 5 = s.cond.high ∧
    v.getLsbD 6 = s.tx.led ∧ v.getLsbD 7 = s.cal.calValid ∧
    (v.toNat / 2 ^ 8 % 16 = match s.seq.phase with
      | .idle => 0 | .cal1 => 1 | .cal2 => 2 | .scan => 3 | .settle => 4 | .decode => 5
      | .txPre => 6 | .txData => 7) ∧
    v.toNat / 2 ^ 12 % 8 = s.det.deb ∧ v.getLsbD 15 = s.det.cur.isSome ∧
    (v.getLsbD 16 = true ↔ ∃ q, s.det.cur = some q ∧ 1 ≤ q) ∧
    v.getLsbD 17 = s.dec.carry.isSome ∧ v.getLsbD 18 = s.ctl.dropped ∧ v.toNat < 2 ^ 19

/-- `RESULT` (R43, R270), field by field; when its frame length is written is DEDUCED (log 7). -/
def Obligations.ResultLayout : Prop :=
  ∀ s : State, s.dec.ambigCount < 65536 → s.ctl.frameLen < 65536 →
    let v := hostRead 0x002 s
    (v.toNat % 16 = match s.ctl.code with
      | .ok => 0 | .insufficientSpread => 1 | .syncTimeout => 2 | .ambiguousBit => 3
      | .capacityExceeded => 4 | .illegalCommand => 5 | .badConfig => 6 | .notLocked => 7) ∧
    v.getLsbD 4 = s.dec.ambig ∧ v.getLsbD 5 = s.dec.capx ∧ v.getLsbD 6 = s.dec.partialByte ∧
    v.toNat / 2 ^ 7 % 2 ^ 9 = 0 ∧ v.toNat / 2 ^ 16 % 2 ^ 16 = s.dec.ambigCount ∧
    v.toNat / 2 ^ 32 = s.ctl.frameLen

/-- The host windows (R40, R41): each shows its buffer, element by element, and nothing beyond the lengths. -/
def Obligations.HostWindowsShowTheBuffers : Prop :=
  ∀ s : State, s.params.Legal → s.win.length = s.params.windowN → s.hist.length = 16 →
    hbLen s ≤ s.params.maxPacketHalfBits → fbLen s ≤ s.params.maxPacketSize →
    let shown (x : Option Level) (v : HostWord) : Prop :=
      (x = none → v = 0) ∧ (x = some .noData → v = 1) ∧
      ∀ q, x = some (.ratio q) → v = if 1 ≤ q then 3 else 2
    (∀ i (h : i < s.win.length), hostRead (0x100 + i) s =
      match s.win[i] with
      | none => 0xFFFFFFFFFFFFFFFF
      | some raw => BitVec.ofNat 64 raw.toNat) ∧
    (∀ i (h : i < s.hist.length), shown s.hist[i] (hostRead (0x200 + i) s)) ∧
    (∀ i, i < s.params.maxPacketHalfBits → shown s.dec.hb[i]? (hostRead (0x1000 + i) s)) ∧
    (∀ i, i < s.params.maxPacketSize →
      hostRead (0x10000 + i) s = BitVec.ofNat 64 ((s.dec.fb[i]?).elim 0 BitVec.toNat))

/-- `TX` (R40): a write to `TX[i]` of a free block stores the low byte there; every other byte, and every
other piece of state, is unchanged. -/
def Obligations.TxReadsBackWhatWasWritten : Prop :=
  ∀ (s : State) (i : Nat) (d : HostWord) (rest : List HostAction), s.params.Legal →
    Memory.wf s.tx.mem → s.ctl.busy = false → i < s.params.txMax →
    s.script = .write (0x20000 + i) d :: rest →
    ∃ m : Memory, step s = .next { s with script := rest, tx := { s.tx with mem := m } } ∧
      Memory.wf m ∧ (∀ a, memRead m a = if a = i then d.setWidth 8 else memRead s.tx.mem a) ∧
      ∀ j, j < s.params.txMax →
        hostRead (0x20000 + j) { s with script := rest, tx := { s.tx with mem := m } } =
          if j = i then (d.setWidth 8).setWidth 64 else hostRead (0x20000 + j) s

/-- Host writes besides `TX` (R40, R41, R263): the five writable registers take their fields, out-of-range
values are ignored, and so is every write to another address or to a busy block. That the whole word of
`TX_LEN` and the low 24 bits of a scan count are compared is DEDUCED (log 10). -/
def Obligations.HostWritesLandInTheirRegisters : Prop :=
  ∀ (s : State) (a : Nat) (d : HostWord) (rest : List HostAction), a ≠ 0x000 →
    s.script = .write a d :: rest → ¬ (0x20000 ≤ a ∧ a < 0x20000 + s.params.txMax) →
    step s = .next (
      let t := { s with script := rest }
      if s.ctl.busy = true then t
      else if a = 0x003 then { t with arg := { s.arg with arg0 := d.toNat % 2 ^ 63 } }
      else if a = 0x004 then { t with arg := { s.arg with arg1 := d.toNat % 2 ^ 63 } }
      else if a = 0x00A ∧ d.toNat % 2 ^ 24 ≠ 0 then
        { t with arg := { s.arg with calScan1 := d.toNat % 2 ^ 24 } }
      else if a = 0x00B ∧ d.toNat % 2 ^ 24 ≠ 0 then
        { t with arg := { s.arg with calScan2 := d.toNat % 2 ^ 24 } }
      else if a = 0x010 ∧ d.toNat ≤ s.params.txMax then { t with tx := { s.tx with txLen := d.toNat } }
      else t)

/-- The register map (R40, R41): the registers below `0x100`, and 0 from every address the table does not
list. -/
def Obligations.HostReadsShowTheRegisters : Prop :=
  ∀ s : State, s.Sound → s.CalibrationSound → s.InRange →
    (hostRead 0x003 s).toNat = s.arg.arg0 ∧ (hostRead 0x004 s).toNat = s.arg.arg1 ∧
    (hostRead 0x005 s).toNat = s.cfg.freq ∧ (hostRead 0x006 s).toNat = s.cfg.thrNum ∧
    (hostRead 0x007 s).toNat = s.cfg.thrDen ∧
    (hostRead 0x008 s).toNat = (if s.cal.calValid then s.cal.calNum else 0) ∧
    (hostRead 0x009 s).toNat = (if s.cal.calValid then s.cal.calDen else 1) ∧
    (hostRead 0x00A s).toNat = s.arg.calScan1 ∧ (hostRead 0x00B s).toNat = s.arg.calScan2 ∧
    (hostRead 0x00C s).toNat = s.cond.median2 ∧
    (hostRead 0x00D s).toInt = (s.arg.selectOut.elim (-1) (fun raw => (raw.toNat : Int))) ∧
    (hostRead 0x00E s).toNat = hbLen s ∧ (hostRead 0x00F s).toNat = fbLen s ∧
    (hostRead 0x010 s).toNat = s.tx.txLen ∧ (hostRead 0x011 s).toInt = s.det.tLast ∧
    (hostRead 0x012 s).toInt = s.seq.tStart ∧ hostRead 0x013 s = 0x4C464D01 ∧
    ∀ a, (0x013 < a ∧ a < 0x100) ∨ (0x100 + s.params.windowN ≤ a ∧ a < 0x200) ∨
      (0x210 ≤ a ∧ a < 0x1000) ∨ (0x1000 + s.params.maxPacketHalfBits ≤ a ∧ a < 0x10000) ∨
      (0x10000 + s.params.maxPacketSize ≤ a ∧ a < 0x20000) ∨ 0x20000 + s.params.txMax ≤ a →
      hostRead a s = 0

/-! ### Invariants of every step -/

/-- R44, all but its clause (d), and the lengths of the register files: every step keeps it. Clause (d) is
kept by every step of a host that resets the buffers before it flushes a frame again, as R212 expects
(log 13). -/
def Obligations.EveryStepKeepsSound : Prop :=
  ∀ s t : State, s.Sound → step s = .next t → t.Sound ∧
    (s.FrameBound → (∀ idle, s.Issues (.hbFlush idle) → s.dec.partialByte = false) →
      t.FrameBound ∧ t.FrameWithinHalfBits)

/-- The calibration registers keep their widths and meaning, and a valid result is a legal threshold (R26,
R27, R133, R135): every step keeps it. -/
def Obligations.EveryStepKeepsCalibrationSound : Prop :=
  ∀ s t : State, s.CalibrationSound → step s = .next t → t.CalibrationSound

/-- The ranges of the other registers (R21, R22, R23, R25, R28, R32, R38, R43) and the flags that mirror a
register (R30): every step of a sound state keeps them. -/
def Obligations.EveryStepKeepsInRange : Prop :=
  ∀ s t : State, s.Sound → s.InRange → step s = .next t → t.InRange

/-- The transmit buffer keeps its canonical form and its bound (R37): every step of a machine keeps it. -/
def Obligations.EveryStepKeepsTxCanonical : Prop :=
  ∀ s t : State, s.TxCanonical → step s = .next t → t.TxCanonical

/-- What the phase says of `OP`, `FREQ`, `DONE`, `LOCKED` and the counters (R24, R25, R30): every step keeps it.
For `OP` of a calibration this rests on log 8. -/
def Obligations.EveryStepKeepsSequencerSound : Prop :=
  ∀ s t : State, s.SequencerSound → step s = .next t → t.SequencerSound

/-- The state after reset, of any instance within the bounds of R9, meets every invariant (R44, R45). The
environment's start is the model's choice (log 2, log 3). -/
def Obligations.ResetMeetsTheInvariants : Prop :=
  ∀ (p : Params) (script : List HostAction), p.Legal →
    let s := State.resetOf p Env.start script
    s.Sound ∧ s.FrameBound ∧ s.FrameWithinHalfBits ∧ s.CalibrationSound ∧ s.InRange ∧ s.TxCanonical ∧
    s.SequencerSound

/-- The edges of the phase (R24): one iteration passes only along them. -/
def Obligations.IterationsFollowThePhaseEdges : Prop :=
  ∀ s t : State, s.script = [] → step s = .next t → phaseEdge s.seq.phase t.seq.phase = true

/-- The calls of one iteration (R136, R180, R222, R244, R294): every loop iteration feeds once, first; a
calibration iteration reads one sample and does not feed; an idle block calls nothing. -/
def Obligations.EveryLoopIterationFeedsOnce : Prop :=
  ∀ s t : State, s.script = [] → step s = .next t →
    ∃ l : List PortEvent, t.env.calls = s.env.calls ++ l ∧
      (s.seq.phase = .idle → l = []) ∧
      (s.seq.phase = .cal1 ∨ s.seq.phase = .cal2 → ∃ raw, l = [.readSample raw]) ∧
      (s.seq.phase = .scan ∨ s.seq.phase = .settle ∨ s.seq.phase = .decode ∨
        s.seq.phase = .txPre ∨ s.seq.phase = .txData →
        l.head? = some .feed ∧ l.count .feed = 1)
end

