-- ==== Sys2Proof/Laws/State.lean ====
section
/-! SUPPORT. For every update of the state, one lemma per field: what the update leaves and what it writes.
All of them hold by `rfl`, so that no later proof unfolds a record update. -/

namespace Sys2Proof.Laws

open Sys2Proof.Machine Sys2Proof.Config

/-! ### `record` -/

@[simp] theorem record_cfg (e : PortEvent) (s : State) : (record e s).cfg = s.cfg := rfl
@[simp] theorem record_cond (e : PortEvent) (s : State) : (record e s).cond = s.cond := rfl
@[simp] theorem record_det (e : PortEvent) (s : State) : (record e s).det = s.det := rfl
@[simp] theorem record_seq (e : PortEvent) (s : State) : (record e s).seq = s.seq := rfl
@[simp] theorem record_cal (e : PortEvent) (s : State) : (record e s).cal = s.cal := rfl
@[simp] theorem record_dec (e : PortEvent) (s : State) : (record e s).dec = s.dec := rfl
@[simp] theorem record_ctl (e : PortEvent) (s : State) : (record e s).ctl = s.ctl := rfl
@[simp] theorem record_arg (e : PortEvent) (s : State) : (record e s).arg = s.arg := rfl
@[simp] theorem record_tx (e : PortEvent) (s : State) : (record e s).tx = s.tx := rfl
@[simp] theorem record_win (e : PortEvent) (s : State) : (record e s).win = s.win := rfl
@[simp] theorem record_hist (e : PortEvent) (s : State) : (record e s).hist = s.hist := rfl
@[simp] theorem record_params (e : PortEvent) (s : State) : (record e s).params = s.params := rfl
@[simp] theorem record_env (e : PortEvent) (s : State) :
    (record e s).env = { s.env with calls := s.env.calls ++ [e] } := rfl
@[simp] theorem record_script (e : PortEvent) (s : State) : (record e s).script = s.script := rfl

/-! ### `feed` -/

@[simp] theorem feed_cfg (s : State) : (feed s).cfg = s.cfg := rfl
@[simp] theorem feed_cond (s : State) : (feed s).cond = s.cond := rfl
@[simp] theorem feed_det (s : State) : (feed s).det = s.det := rfl
@[simp] theorem feed_seq (s : State) : (feed s).seq = s.seq := rfl
@[simp] theorem feed_cal (s : State) : (feed s).cal = s.cal := rfl
@[simp] theorem feed_dec (s : State) : (feed s).dec = s.dec := rfl
@[simp] theorem feed_ctl (s : State) : (feed s).ctl = s.ctl := rfl
@[simp] theorem feed_arg (s : State) : (feed s).arg = s.arg := rfl
@[simp] theorem feed_tx (s : State) : (feed s).tx = s.tx := rfl
@[simp] theorem feed_win (s : State) : (feed s).win = s.win := rfl
@[simp] theorem feed_hist (s : State) : (feed s).hist = s.hist := rfl
@[simp] theorem feed_params (s : State) : (feed s).params = s.params := rfl
@[simp] theorem feed_env (s : State) :
    (feed s).env = { s.env with calls := s.env.calls ++ [.feed] } := rfl
@[simp] theorem feed_script (s : State) : (feed s).script = s.script := rfl

/-! ### `actuate` -/

@[simp] theorem actuate_cfg (b : Bool) (s : State) : (actuate b s).cfg = s.cfg := rfl
@[simp] theorem actuate_cond (b : Bool) (s : State) : (actuate b s).cond = s.cond := rfl
@[simp] theorem actuate_det (b : Bool) (s : State) : (actuate b s).det = s.det := rfl
@[simp] theorem actuate_seq (b : Bool) (s : State) : (actuate b s).seq = s.seq := rfl
@[simp] theorem actuate_cal (b : Bool) (s : State) : (actuate b s).cal = s.cal := rfl
@[simp] theorem actuate_dec (b : Bool) (s : State) : (actuate b s).dec = s.dec := rfl
@[simp] theorem actuate_ctl (b : Bool) (s : State) : (actuate b s).ctl = s.ctl := rfl
@[simp] theorem actuate_arg (b : Bool) (s : State) : (actuate b s).arg = s.arg := rfl
@[simp] theorem actuate_tx (b : Bool) (s : State) : (actuate b s).tx = { s.tx with led := b } := rfl
@[simp] theorem actuate_win (b : Bool) (s : State) : (actuate b s).win = s.win := rfl
@[simp] theorem actuate_hist (b : Bool) (s : State) : (actuate b s).hist = s.hist := rfl
@[simp] theorem actuate_params (b : Bool) (s : State) : (actuate b s).params = s.params := rfl
@[simp] theorem actuate_env (b : Bool) (s : State) :
    (actuate b s).env = { s.env with calls := s.env.calls ++ [.actuate b] } := rfl
@[simp] theorem actuate_script (b : Bool) (s : State) : (actuate b s).script = s.script := rfl

/-! ### `wait` -/

@[simp] theorem wait_cfg (d : Rat) (s : State) : (wait d s).cfg = s.cfg := rfl
@[simp] theorem wait_cond (d : Rat) (s : State) : (wait d s).cond = s.cond := rfl
@[simp] theorem wait_det (d : Rat) (s : State) : (wait d s).det = s.det := rfl
@[simp] theorem wait_seq (d : Rat) (s : State) : (wait d s).seq = s.seq := rfl
@[simp] theorem wait_cal (d : Rat) (s : State) : (wait d s).cal = s.cal := rfl
@[simp] theorem wait_dec (d : Rat) (s : State) : (wait d s).dec = s.dec := rfl
@[simp] theorem wait_ctl (d : Rat) (s : State) : (wait d s).ctl = s.ctl := rfl
@[simp] theorem wait_arg (d : Rat) (s : State) : (wait d s).arg = s.arg := rfl
@[simp] theorem wait_tx (d : Rat) (s : State) : (wait d s).tx = s.tx := rfl
@[simp] theorem wait_win (d : Rat) (s : State) : (wait d s).win = s.win := rfl
@[simp] theorem wait_hist (d : Rat) (s : State) : (wait d s).hist = s.hist := rfl
@[simp] theorem wait_params (d : Rat) (s : State) : (wait d s).params = s.params := rfl
@[simp] theorem wait_env (d : Rat) (s : State) :
    (wait d s).env = { s.env with calls := s.env.calls ++ [.wait d] } := rfl
@[simp] theorem wait_script (d : Rat) (s : State) : (wait d s).script = s.script := rfl

/-! ### `emitFrame` -/

@[simp] theorem emitFrame_cfg (l : List Byte) (s : State) : (emitFrame l s).cfg = s.cfg := rfl
@[simp] theorem emitFrame_cond (l : List Byte) (s : State) : (emitFrame l s).cond = s.cond := rfl
@[simp] theorem emitFrame_det (l : List Byte) (s : State) : (emitFrame l s).det = s.det := rfl
@[simp] theorem emitFrame_seq (l : List Byte) (s : State) : (emitFrame l s).seq = s.seq := rfl
@[simp] theorem emitFrame_cal (l : List Byte) (s : State) : (emitFrame l s).cal = s.cal := rfl
@[simp] theorem emitFrame_dec (l : List Byte) (s : State) : (emitFrame l s).dec = s.dec := rfl
@[simp] theorem emitFrame_ctl (l : List Byte) (s : State) : (emitFrame l s).ctl = s.ctl := rfl
@[simp] theorem emitFrame_arg (l : List Byte) (s : State) : (emitFrame l s).arg = s.arg := rfl
@[simp] theorem emitFrame_tx (l : List Byte) (s : State) : (emitFrame l s).tx = s.tx := rfl
@[simp] theorem emitFrame_win (l : List Byte) (s : State) : (emitFrame l s).win = s.win := rfl
@[simp] theorem emitFrame_hist (l : List Byte) (s : State) : (emitFrame l s).hist = s.hist := rfl
@[simp] theorem emitFrame_params (l : List Byte) (s : State) :
    (emitFrame l s).params = s.params := rfl
@[simp] theorem emitFrame_env (l : List Byte) (s : State) :
    (emitFrame l s).env = { s.env with calls := s.env.calls ++ [.emitFrame l] } := rfl
@[simp] theorem emitFrame_script (l : List Byte) (s : State) :
    (emitFrame l s).script = s.script := rfl

/-! ### `endOperation` -/

@[simp] theorem endOperation_cfg (s : State) : (endOperation s).cfg = s.cfg := rfl
@[simp] theorem endOperation_cond (s : State) : (endOperation s).cond = s.cond := rfl
@[simp] theorem endOperation_det (s : State) : (endOperation s).det = s.det := rfl
@[simp] theorem endOperation_seq (s : State) :
    (endOperation s).seq = { s.seq with phase := .idle } := rfl
@[simp] theorem endOperation_cal (s : State) : (endOperation s).cal = s.cal := rfl
@[simp] theorem endOperation_dec (s : State) : (endOperation s).dec = s.dec := rfl
@[simp] theorem endOperation_ctl (s : State) :
    (endOperation s).ctl = { s.ctl with busy := false, done := true } := rfl
@[simp] theorem endOperation_arg (s : State) : (endOperation s).arg = s.arg := rfl
@[simp] theorem endOperation_tx (s : State) : (endOperation s).tx = s.tx := rfl
@[simp] theorem endOperation_win (s : State) : (endOperation s).win = s.win := rfl
@[simp] theorem endOperation_hist (s : State) : (endOperation s).hist = s.hist := rfl
@[simp] theorem endOperation_params (s : State) : (endOperation s).params = s.params := rfl
@[simp] theorem endOperation_env (s : State) : (endOperation s).env = s.env := rfl
@[simp] theorem endOperation_script (s : State) : (endOperation s).script = s.script := rfl

/-! ### `complete` -/

@[simp] theorem complete_cfg (c : Code) (s : State) : (complete c s).cfg = s.cfg := rfl
@[simp] theorem complete_cond (c : Code) (s : State) : (complete c s).cond = s.cond := rfl
@[simp] theorem complete_det (c : Code) (s : State) : (complete c s).det = s.det := rfl
@[simp] theorem complete_seq (c : Code) (s : State) : (complete c s).seq = s.seq := rfl
@[simp] theorem complete_cal (c : Code) (s : State) : (complete c s).cal = s.cal := rfl
@[simp] theorem complete_dec (c : Code) (s : State) : (complete c s).dec = s.dec := rfl
@[simp] theorem complete_ctl (c : Code) (s : State) :
    (complete c s).ctl = { s.ctl with done := true, code := c } := rfl
@[simp] theorem complete_arg (c : Code) (s : State) : (complete c s).arg = s.arg := rfl
@[simp] theorem complete_tx (c : Code) (s : State) : (complete c s).tx = s.tx := rfl
@[simp] theorem complete_win (c : Code) (s : State) : (complete c s).win = s.win := rfl
@[simp] theorem complete_hist (c : Code) (s : State) : (complete c s).hist = s.hist := rfl
@[simp] theorem complete_params (c : Code) (s : State) : (complete c s).params = s.params := rfl
@[simp] theorem complete_env (c : Code) (s : State) : (complete c s).env = s.env := rfl
@[simp] theorem complete_script (c : Code) (s : State) : (complete c s).script = s.script := rfl

/-! ### `dropCommand` -/

@[simp] theorem dropCommand_cfg (s : State) : (dropCommand s).cfg = s.cfg := rfl
@[simp] theorem dropCommand_cond (s : State) : (dropCommand s).cond = s.cond := rfl
@[simp] theorem dropCommand_det (s : State) : (dropCommand s).det = s.det := rfl
@[simp] theorem dropCommand_seq (s : State) : (dropCommand s).seq = s.seq := rfl
@[simp] theorem dropCommand_cal (s : State) : (dropCommand s).cal = s.cal := rfl
@[simp] theorem dropCommand_dec (s : State) : (dropCommand s).dec = s.dec := rfl
@[simp] theorem dropCommand_ctl (s : State) :
    (dropCommand s).ctl = { s.ctl with dropped := true } := rfl
@[simp] theorem dropCommand_arg (s : State) : (dropCommand s).arg = s.arg := rfl
@[simp] theorem dropCommand_tx (s : State) : (dropCommand s).tx = s.tx := rfl
@[simp] theorem dropCommand_win (s : State) : (dropCommand s).win = s.win := rfl
@[simp] theorem dropCommand_hist (s : State) : (dropCommand s).hist = s.hist := rfl
@[simp] theorem dropCommand_params (s : State) : (dropCommand s).params = s.params := rfl
@[simp] theorem dropCommand_env (s : State) : (dropCommand s).env = s.env := rfl
@[simp] theorem dropCommand_script (s : State) : (dropCommand s).script = s.script := rfl

/-! ### `admission` -/

@[simp] theorem admission_cfg (k : Bool) (s : State) : (admission k s).cfg = s.cfg := rfl
@[simp] theorem admission_cond (k : Bool) (s : State) : (admission k s).cond = s.cond := rfl
@[simp] theorem admission_det (k : Bool) (s : State) : (admission k s).det = s.det := rfl
@[simp] theorem admission_seq (k : Bool) (s : State) : (admission k s).seq = s.seq := rfl
@[simp] theorem admission_cal (k : Bool) (s : State) : (admission k s).cal = s.cal := rfl
@[simp] theorem admission_dec (k : Bool) (s : State) : (admission k s).dec = s.dec := rfl
@[simp] theorem admission_ctl (k : Bool) (s : State) :
    (admission k s).ctl =
      { s.ctl with done := false, dropped := false, locked := s.ctl.locked && k } := rfl
@[simp] theorem admission_arg (k : Bool) (s : State) : (admission k s).arg = s.arg := rfl
@[simp] theorem admission_tx (k : Bool) (s : State) : (admission k s).tx = s.tx := rfl
@[simp] theorem admission_win (k : Bool) (s : State) : (admission k s).win = s.win := rfl
@[simp] theorem admission_hist (k : Bool) (s : State) : (admission k s).hist = s.hist := rfl
@[simp] theorem admission_params (k : Bool) (s : State) : (admission k s).params = s.params := rfl
@[simp] theorem admission_env (k : Bool) (s : State) : (admission k s).env = s.env := rfl
@[simp] theorem admission_script (k : Bool) (s : State) : (admission k s).script = s.script := rfl

/-! ### `startOperation` -/

@[simp] theorem startOperation_cfg (op : BitVec 8) (p : Phase) (s : State) :
    (startOperation op p s).cfg = s.cfg := rfl
@[simp] theorem startOperation_cond (op : BitVec 8) (p : Phase) (s : State) :
    (startOperation op p s).cond = s.cond := rfl
@[simp] theorem startOperation_det (op : BitVec 8) (p : Phase) (s : State) :
    (startOperation op p s).det = s.det := rfl
@[simp] theorem startOperation_seq (op : BitVec 8) (p : Phase) (s : State) :
    (startOperation op p s).seq = { s.seq with op := op, phase := p } := rfl
@[simp] theorem startOperation_cal (op : BitVec 8) (p : Phase) (s : State) :
    (startOperation op p s).cal = s.cal := rfl
@[simp] theorem startOperation_dec (op : BitVec 8) (p : Phase) (s : State) :
    (startOperation op p s).dec = s.dec := rfl
@[simp] theorem startOperation_ctl (op : BitVec 8) (p : Phase) (s : State) :
    (startOperation op p s).ctl = { s.ctl with busy := true } := rfl
@[simp] theorem startOperation_arg (op : BitVec 8) (p : Phase) (s : State) :
    (startOperation op p s).arg = s.arg := rfl
@[simp] theorem startOperation_tx (op : BitVec 8) (p : Phase) (s : State) :
    (startOperation op p s).tx = s.tx := rfl
@[simp] theorem startOperation_win (op : BitVec 8) (p : Phase) (s : State) :
    (startOperation op p s).win = s.win := rfl
@[simp] theorem startOperation_hist (op : BitVec 8) (p : Phase) (s : State) :
    (startOperation op p s).hist = s.hist := rfl
@[simp] theorem startOperation_params (op : BitVec 8) (p : Phase) (s : State) :
    (startOperation op p s).params = s.params := rfl
@[simp] theorem startOperation_env (op : BitVec 8) (p : Phase) (s : State) :
    (startOperation op p s).env = s.env := rfl
@[simp] theorem startOperation_script (op : BitVec 8) (p : Phase) (s : State) :
    (startOperation op p s).script = s.script := rfl

/-! ### `winReset` -/

@[simp] theorem winReset_cfg (s : State) : (winReset s).cfg = s.cfg := rfl
@[simp] theorem winReset_cond (s : State) : (winReset s).cond = s.cond := rfl
@[simp] theorem winReset_det (s : State) : (winReset s).det = s.det := rfl
@[simp] theorem winReset_seq (s : State) : (winReset s).seq = s.seq := rfl
@[simp] theorem winReset_cal (s : State) : (winReset s).cal = s.cal := rfl
@[simp] theorem winReset_dec (s : State) : (winReset s).dec = s.dec := rfl
@[simp] theorem winReset_ctl (s : State) : (winReset s).ctl = s.ctl := rfl
@[simp] theorem winReset_arg (s : State) : (winReset s).arg = s.arg := rfl
@[simp] theorem winReset_tx (s : State) : (winReset s).tx = s.tx := rfl
@[simp] theorem winReset_win (s : State) :
    (winReset s).win = List.replicate s.params.windowN none := rfl
@[simp] theorem winReset_hist (s : State) : (winReset s).hist = s.hist := rfl
@[simp] theorem winReset_params (s : State) : (winReset s).params = s.params := rfl
@[simp] theorem winReset_env (s : State) : (winReset s).env = s.env := rfl
@[simp] theorem winReset_script (s : State) : (winReset s).script = s.script := rfl

/-! ### `winPush` -/

@[simp] theorem winPush_cfg (raw : Sample) (s : State) : (winPush raw s).cfg = s.cfg := rfl
@[simp] theorem winPush_cond (raw : Sample) (s : State) : (winPush raw s).cond = s.cond := rfl
@[simp] theorem winPush_det (raw : Sample) (s : State) : (winPush raw s).det = s.det := rfl
@[simp] theorem winPush_seq (raw : Sample) (s : State) : (winPush raw s).seq = s.seq := rfl
@[simp] theorem winPush_cal (raw : Sample) (s : State) : (winPush raw s).cal = s.cal := rfl
@[simp] theorem winPush_dec (raw : Sample) (s : State) : (winPush raw s).dec = s.dec := rfl
@[simp] theorem winPush_ctl (raw : Sample) (s : State) : (winPush raw s).ctl = s.ctl := rfl
@[simp] theorem winPush_arg (raw : Sample) (s : State) : (winPush raw s).arg = s.arg := rfl
@[simp] theorem winPush_tx (raw : Sample) (s : State) : (winPush raw s).tx = s.tx := rfl
@[simp] theorem winPush_win (raw : Sample) (s : State) :
    (winPush raw s).win = shiftAppend s.win (some raw) := rfl
@[simp] theorem winPush_hist (raw : Sample) (s : State) : (winPush raw s).hist = s.hist := rfl
@[simp] theorem winPush_params (raw : Sample) (s : State) : (winPush raw s).params = s.params := rfl
@[simp] theorem winPush_env (raw : Sample) (s : State) : (winPush raw s).env = s.env := rfl
@[simp] theorem winPush_script (raw : Sample) (s : State) : (winPush raw s).script = s.script := rfl

/-! ### `winSelect` -/

@[simp] theorem winSelect_cfg (k : Nat) (s : State) : (winSelect k s).cfg = s.cfg := rfl
@[simp] theorem winSelect_cond (k : Nat) (s : State) : (winSelect k s).cond = s.cond := rfl
@[simp] theorem winSelect_det (k : Nat) (s : State) : (winSelect k s).det = s.det := rfl
@[simp] theorem winSelect_seq (k : Nat) (s : State) : (winSelect k s).seq = s.seq := rfl
@[simp] theorem winSelect_cal (k : Nat) (s : State) : (winSelect k s).cal = s.cal := rfl
@[simp] theorem winSelect_dec (k : Nat) (s : State) : (winSelect k s).dec = s.dec := rfl
@[simp] theorem winSelect_ctl (k : Nat) (s : State) : (winSelect k s).ctl = s.ctl := rfl
@[simp] theorem winSelect_arg (k : Nat) (s : State) :
    (winSelect k s).arg = { s.arg with selectOut := orderStatistic k s.win } := rfl
@[simp] theorem winSelect_tx (k : Nat) (s : State) : (winSelect k s).tx = s.tx := rfl
@[simp] theorem winSelect_win (k : Nat) (s : State) : (winSelect k s).win = s.win := rfl
@[simp] theorem winSelect_hist (k : Nat) (s : State) : (winSelect k s).hist = s.hist := rfl
@[simp] theorem winSelect_params (k : Nat) (s : State) : (winSelect k s).params = s.params := rfl
@[simp] theorem winSelect_env (k : Nat) (s : State) : (winSelect k s).env = s.env := rfl
@[simp] theorem winSelect_script (k : Nat) (s : State) : (winSelect k s).script = s.script := rfl

/-! ### `histClear` -/

@[simp] theorem histClear_cfg (s : State) : (histClear s).cfg = s.cfg := rfl
@[simp] theorem histClear_cond (s : State) : (histClear s).cond = s.cond := rfl
@[simp] theorem histClear_det (s : State) : (histClear s).det = s.det := rfl
@[simp] theorem histClear_seq (s : State) : (histClear s).seq = s.seq := rfl
@[simp] theorem histClear_cal (s : State) : (histClear s).cal = s.cal := rfl
@[simp] theorem histClear_dec (s : State) : (histClear s).dec = s.dec := rfl
@[simp] theorem histClear_ctl (s : State) :
    (histClear s).ctl = { s.ctl with matched := false } := rfl
@[simp] theorem histClear_arg (s : State) : (histClear s).arg = s.arg := rfl
@[simp] theorem histClear_tx (s : State) : (histClear s).tx = s.tx := rfl
@[simp] theorem histClear_win (s : State) : (histClear s).win = s.win := rfl
@[simp] theorem histClear_hist (s : State) : (histClear s).hist = List.replicate histLen none := rfl
@[simp] theorem histClear_params (s : State) : (histClear s).params = s.params := rfl
@[simp] theorem histClear_env (s : State) : (histClear s).env = s.env := rfl
@[simp] theorem histClear_script (s : State) : (histClear s).script = s.script := rfl

/-! ### `histAppend` -/

@[simp] theorem histAppend_cfg (lv : Level) (s : State) : (histAppend lv s).cfg = s.cfg := rfl
@[simp] theorem histAppend_cond (lv : Level) (s : State) : (histAppend lv s).cond = s.cond := rfl
@[simp] theorem histAppend_det (lv : Level) (s : State) : (histAppend lv s).det = s.det := rfl
@[simp] theorem histAppend_seq (lv : Level) (s : State) : (histAppend lv s).seq = s.seq := rfl
@[simp] theorem histAppend_cal (lv : Level) (s : State) : (histAppend lv s).cal = s.cal := rfl
@[simp] theorem histAppend_dec (lv : Level) (s : State) : (histAppend lv s).dec = s.dec := rfl
@[simp] theorem histAppend_ctl (lv : Level) (s : State) : (histAppend lv s).ctl = s.ctl := rfl
@[simp] theorem histAppend_arg (lv : Level) (s : State) : (histAppend lv s).arg = s.arg := rfl
@[simp] theorem histAppend_tx (lv : Level) (s : State) : (histAppend lv s).tx = s.tx := rfl
@[simp] theorem histAppend_win (lv : Level) (s : State) : (histAppend lv s).win = s.win := rfl
@[simp] theorem histAppend_hist (lv : Level) (s : State) :
    (histAppend lv s).hist = shiftAppend s.hist (some lv) := rfl
@[simp] theorem histAppend_params (lv : Level) (s : State) :
    (histAppend lv s).params = s.params := rfl
@[simp] theorem histAppend_env (lv : Level) (s : State) : (histAppend lv s).env = s.env := rfl
@[simp] theorem histAppend_script (lv : Level) (s : State) :
    (histAppend lv s).script = s.script := rfl

/-! ### `histMatch` -/

@[simp] theorem histMatch_cfg (s : State) : (histMatch s).cfg = s.cfg := rfl
@[simp] theorem histMatch_cond (s : State) : (histMatch s).cond = s.cond := rfl
@[simp] theorem histMatch_det (s : State) : (histMatch s).det = s.det := rfl
@[simp] theorem histMatch_seq (s : State) : (histMatch s).seq = s.seq := rfl
@[simp] theorem histMatch_cal (s : State) : (histMatch s).cal = s.cal := rfl
@[simp] theorem histMatch_dec (s : State) : (histMatch s).dec = s.dec := rfl
@[simp] theorem histMatch_ctl (s : State) :
    (histMatch s).ctl = { s.ctl with matched := suffixMatches s.hist } := rfl
@[simp] theorem histMatch_arg (s : State) : (histMatch s).arg = s.arg := rfl
@[simp] theorem histMatch_tx (s : State) : (histMatch s).tx = s.tx := rfl
@[simp] theorem histMatch_win (s : State) : (histMatch s).win = s.win := rfl
@[simp] theorem histMatch_hist (s : State) : (histMatch s).hist = s.hist := rfl
@[simp] theorem histMatch_params (s : State) : (histMatch s).params = s.params := rfl
@[simp] theorem histMatch_env (s : State) : (histMatch s).env = s.env := rfl
@[simp] theorem histMatch_script (s : State) : (histMatch s).script = s.script := rfl

/-! ### `hbReset` -/

@[simp] theorem hbReset_cfg (s : State) : (hbReset s).cfg = s.cfg := rfl
@[simp] theorem hbReset_cond (s : State) : (hbReset s).cond = s.cond := rfl
@[simp] theorem hbReset_det (s : State) : (hbReset s).det = s.det := rfl
@[simp] theorem hbReset_seq (s : State) : (hbReset s).seq = s.seq := rfl
@[simp] theorem hbReset_cal (s : State) : (hbReset s).cal = s.cal := rfl
@[simp] theorem hbReset_dec (s : State) :
    (hbReset s).dec =
      { s.dec with hb := [], fb := [], ambigCount := 0, capx := false, partialByte := false,
                   ambig := false } := rfl
@[simp] theorem hbReset_ctl (s : State) : (hbReset s).ctl = s.ctl := rfl
@[simp] theorem hbReset_arg (s : State) : (hbReset s).arg = s.arg := rfl
@[simp] theorem hbReset_tx (s : State) : (hbReset s).tx = s.tx := rfl
@[simp] theorem hbReset_win (s : State) : (hbReset s).win = s.win := rfl
@[simp] theorem hbReset_hist (s : State) : (hbReset s).hist = s.hist := rfl
@[simp] theorem hbReset_params (s : State) : (hbReset s).params = s.params := rfl
@[simp] theorem hbReset_env (s : State) : (hbReset s).env = s.env := rfl
@[simp] theorem hbReset_script (s : State) : (hbReset s).script = s.script := rfl

/-! ### `storeHalfBit` -/

@[simp] theorem storeHalfBit_cfg (lv : Level) (s : State) : (storeHalfBit lv s).cfg = s.cfg := rfl
@[simp] theorem storeHalfBit_cond (lv : Level) (s : State) :
    (storeHalfBit lv s).cond = s.cond := rfl
@[simp] theorem storeHalfBit_det (lv : Level) (s : State) : (storeHalfBit lv s).det = s.det := rfl
@[simp] theorem storeHalfBit_seq (lv : Level) (s : State) : (storeHalfBit lv s).seq = s.seq := rfl
@[simp] theorem storeHalfBit_cal (lv : Level) (s : State) : (storeHalfBit lv s).cal = s.cal := rfl
@[simp] theorem storeHalfBit_dec (lv : Level) (s : State) :
    (storeHalfBit lv s).dec = { s.dec with hb := s.dec.hb ++ [lv] } := rfl
@[simp] theorem storeHalfBit_ctl (lv : Level) (s : State) : (storeHalfBit lv s).ctl = s.ctl := rfl
@[simp] theorem storeHalfBit_arg (lv : Level) (s : State) : (storeHalfBit lv s).arg = s.arg := rfl
@[simp] theorem storeHalfBit_tx (lv : Level) (s : State) : (storeHalfBit lv s).tx = s.tx := rfl
@[simp] theorem storeHalfBit_win (lv : Level) (s : State) : (storeHalfBit lv s).win = s.win := rfl
@[simp] theorem storeHalfBit_hist (lv : Level) (s : State) :
    (storeHalfBit lv s).hist = s.hist := rfl
@[simp] theorem storeHalfBit_params (lv : Level) (s : State) :
    (storeHalfBit lv s).params = s.params := rfl
@[simp] theorem storeHalfBit_env (lv : Level) (s : State) : (storeHalfBit lv s).env = s.env := rfl
@[simp] theorem storeHalfBit_script (lv : Level) (s : State) :
    (storeHalfBit lv s).script = s.script := rfl

/-! ### `acceptLevel` -/

@[simp] theorem acceptLevel_cfg (q : Rat) (now : Int) (s : State) :
    (acceptLevel q now s).cfg = s.cfg := rfl
@[simp] theorem acceptLevel_cond (q : Rat) (now : Int) (s : State) :
    (acceptLevel q now s).cond = s.cond := rfl
@[simp] theorem acceptLevel_det (q : Rat) (now : Int) (s : State) :
    (acceptLevel q now s).det = { cur := some q, tLast := now, deb := 0 } := rfl
@[simp] theorem acceptLevel_seq (q : Rat) (now : Int) (s : State) :
    (acceptLevel q now s).seq = s.seq := rfl
@[simp] theorem acceptLevel_cal (q : Rat) (now : Int) (s : State) :
    (acceptLevel q now s).cal = s.cal := rfl
@[simp] theorem acceptLevel_dec (q : Rat) (now : Int) (s : State) :
    (acceptLevel q now s).dec = s.dec := rfl
@[simp] theorem acceptLevel_ctl (q : Rat) (now : Int) (s : State) :
    (acceptLevel q now s).ctl = s.ctl := rfl
@[simp] theorem acceptLevel_arg (q : Rat) (now : Int) (s : State) :
    (acceptLevel q now s).arg = s.arg := rfl
@[simp] theorem acceptLevel_tx (q : Rat) (now : Int) (s : State) :
    (acceptLevel q now s).tx = s.tx := rfl
@[simp] theorem acceptLevel_win (q : Rat) (now : Int) (s : State) :
    (acceptLevel q now s).win = s.win := rfl
@[simp] theorem acceptLevel_hist (q : Rat) (now : Int) (s : State) :
    (acceptLevel q now s).hist = s.hist := rfl
@[simp] theorem acceptLevel_params (q : Rat) (now : Int) (s : State) :
    (acceptLevel q now s).params = s.params := rfl
@[simp] theorem acceptLevel_env (q : Rat) (now : Int) (s : State) :
    (acceptLevel q now s).env = s.env := rfl
@[simp] theorem acceptLevel_script (q : Rat) (now : Int) (s : State) :
    (acceptLevel q now s).script = s.script := rfl

/-! ### `bufReset` -/

@[simp] theorem bufReset_cfg (s : State) : (bufReset s).cfg = s.cfg := rfl
@[simp] theorem bufReset_cond (s : State) :
    (bufReset s).cond = { median2 := 0, level := .noData, nodata := true, high := false } := rfl
@[simp] theorem bufReset_det (s : State) :
    (bufReset s).det = { cur := none, tLast := 0, deb := 0 } := rfl
@[simp] theorem bufReset_seq (s : State) : (bufReset s).seq = s.seq := rfl
@[simp] theorem bufReset_cal (s : State) : (bufReset s).cal = s.cal := rfl
@[simp] theorem bufReset_dec (s : State) :
    (bufReset s).dec =
      { hb := [], fb := [], ambigCount := 0, capx := false, partialByte := false,
        ambig := false, carry := none } := rfl
@[simp] theorem bufReset_ctl (s : State) : (bufReset s).ctl = { s.ctl with matched := false } := rfl
@[simp] theorem bufReset_arg (s : State) : (bufReset s).arg = s.arg := rfl
@[simp] theorem bufReset_tx (s : State) : (bufReset s).tx = s.tx := rfl
@[simp] theorem bufReset_win (s : State) :
    (bufReset s).win = List.replicate s.params.windowN none := rfl
@[simp] theorem bufReset_hist (s : State) : (bufReset s).hist = List.replicate histLen none := rfl
@[simp] theorem bufReset_params (s : State) : (bufReset s).params = s.params := rfl
@[simp] theorem bufReset_env (s : State) : (bufReset s).env = s.env := rfl
@[simp] theorem bufReset_script (s : State) : (bufReset s).script = s.script := rfl

end Sys2Proof.Laws
end

