-- ==== Sys2Proof/Laws/Ops.lean ====
section
/-! SUPPORT. What the shared operations can do: errors, command acceptance, the environment's draws. -/

namespace Sys2Proof.Laws

open Sys2Proof.Machine Sys2Proof.Config

/-! ### `raise` (60 R275) -/

theorem raise_of_free {s : State} (e : Code) (h : s.ctl.busy = false) :
    raise e s = { s with ctl := { s.ctl with done := true, code := e } } := by
  simp [raise, h]

theorem raise_of_busy {s : State} (e : Code) (h : s.ctl.busy = true) :
    raise e s = { s with seq := { s.seq with phase := .idle },
                         ctl := { s.ctl with busy := false, done := true, code := e } } := by
  simp [raise, h]

/-- An error writes the control flags and, when it ends an operation, the phase. -/
@[simp] theorem raise_frame (e : Code) (s : State) :
    (raise e s).cfg = s.cfg ∧ (raise e s).cond = s.cond ∧ (raise e s).det = s.det ∧
    (raise e s).cal = s.cal ∧ (raise e s).dec = s.dec ∧ (raise e s).arg = s.arg ∧
    (raise e s).tx = s.tx ∧ (raise e s).win = s.win ∧ (raise e s).hist = s.hist ∧
    (raise e s).params = s.params ∧ (raise e s).env = s.env ∧ (raise e s).script = s.script := by
  unfold raise; split <;> simp

/-- After an error: its code, `DONE = 1`, `BUSY = 0`, and nothing else of the flags. -/
@[simp] theorem raise_ctl (e : Code) (s : State) :
    (raise e s).ctl = { s.ctl with busy := false, done := true, code := e } := by
  unfold raise; split
  · rfl
  · rename_i h; simp only [Bool.not_eq_true] at h; simp [h]

/-! ### Command acceptance (46 R255) -/

/-- A busy block drops the command. -/
theorem command_of_busy {s : State} (k : Bool) (pre : Option Code) (rule : State → State)
    (h : s.ctl.busy = true) : command k pre rule s = .next (dropCommand s) := by
  simp [command, h]

/-- A free block accepts it: without a failed precondition its rule runs on the admitted state. -/
theorem command_of_free {s : State} (k : Bool) (rule : State → State)
    (h : s.ctl.busy = false) : command k none rule s = .next (rule (admission k s)) := by
  simp [command, h]

/-- A free block raises the error of a failed precondition. -/
theorem command_of_failed {s : State} (k : Bool) (e : Code) (rule : State → State)
    (h : s.ctl.busy = false) : command k (some e) rule s = .next (raise e (admission k s)) := by
  simp [command, h]

/-- All that a command can do. -/
theorem command_cases {s t : State} {k : Bool} {pre : Option Code} {rule : State → State}
    (h : command k pre rule s = .next t) :
    (s.ctl.busy = true ∧ t = dropCommand s) ∨
    (s.ctl.busy = false ∧ ∃ e, pre = some e ∧ t = raise e (admission k s)) ∨
    (s.ctl.busy = false ∧ pre = none ∧ t = rule (admission k s)) := by
  unfold command at h
  split at h
  · cases h; exact .inl ⟨by assumption, rfl⟩
  · rename_i hb
    simp only [Bool.not_eq_true] at hb
    cases pre with
    | none => cases h; exact .inr (.inr ⟨hb, rfl, rfl⟩)
    | some e => cases h; exact .inr (.inl ⟨hb, e, rfl, rfl⟩)

/-- A command never stops the machine. -/
theorem command_next (k : Bool) (pre : Option Code) (rule : State → State) (s : State) :
    ∃ t, command k pre rule s = .next t := by
  unfold command
  split
  · exact ⟨_, rfl⟩
  · cases pre <;> exact ⟨_, rfl⟩

/-! ### The environment's draws (60 R292, R293) -/

/-- A sample changes the environment alone. -/
@[simp] theorem readSample_frame (s : State) :
    (readSample s).2.cfg = s.cfg ∧ (readSample s).2.cond = s.cond ∧
    (readSample s).2.det = s.det ∧ (readSample s).2.seq = s.seq ∧
    (readSample s).2.cal = s.cal ∧ (readSample s).2.dec = s.dec ∧
    (readSample s).2.ctl = s.ctl ∧ (readSample s).2.arg = s.arg ∧
    (readSample s).2.tx = s.tx ∧ (readSample s).2.win = s.win ∧
    (readSample s).2.hist = s.hist ∧ (readSample s).2.params = s.params ∧
    (readSample s).2.script = s.script := by
  unfold readSample; split <;> simp

/-- The sample that was read is what the port shows. -/
@[simp] theorem readSample_calls (s : State) :
    (readSample s).2.env.calls = s.env.calls ++ [.readSample (readSample s).1] := by
  unfold readSample; split <;> rfl

@[simp] theorem readSample_lastNow (s : State) :
    (readSample s).2.env.lastNow = s.env.lastNow := by
  unfold readSample; split <;> rfl

@[simp] theorem readSample_clock (s : State) : (readSample s).2.env.clock = s.env.clock := by
  unfold readSample; split <;> rfl

/-- A queued sample is the answer. -/
theorem readSample_queued {s : State} {raw : Sample} {rest : List Sample}
    (h : s.env.samples = raw :: rest) :
    readSample s = (raw, { s with env := { s.env with
      samples := rest, calls := s.env.calls ++ [.readSample raw] } }) := by
  unfold readSample; rw [h]; rfl

/-- A clock answer changes the environment alone. -/
@[simp] theorem nowUs_frame (s : State) :
    (nowUs s).2.cfg = s.cfg ∧ (nowUs s).2.cond = s.cond ∧ (nowUs s).2.det = s.det ∧
    (nowUs s).2.seq = s.seq ∧ (nowUs s).2.cal = s.cal ∧ (nowUs s).2.dec = s.dec ∧
    (nowUs s).2.ctl = s.ctl ∧ (nowUs s).2.arg = s.arg ∧ (nowUs s).2.tx = s.tx ∧
    (nowUs s).2.win = s.win ∧ (nowUs s).2.hist = s.hist ∧ (nowUs s).2.params = s.params ∧
    (nowUs s).2.script = s.script := by
  unfold nowUs; split <;> simp

@[simp] theorem nowUs_calls (s : State) :
    (nowUs s).2.env.calls = s.env.calls ++ [.nowUs (nowUs s).1] := by
  unfold nowUs; split <;> rfl

@[simp] theorem nowUs_lastNow (s : State) : (nowUs s).2.env.lastNow = (nowUs s).1 := by
  unfold nowUs; split <;> rfl

@[simp] theorem nowUs_samples (s : State) : (nowUs s).2.env.samples = s.env.samples := by
  unfold nowUs; split <;> rfl

/-- The clock's contract: never less than the previous answer. -/
theorem nowUs_ge (s : State) : s.env.lastNow ≤ (nowUs s).1 := by
  unfold nowUs; split <;> exact le_max_left _ _

/-- A clock answer is a signed 64-bit integer when the previous one was. -/
theorem nowUs_lt (s : State) (h : s.env.lastNow < 2 ^ 63) : (nowUs s).1 < 2 ^ 63 := by
  have key : ∀ w : HostWord, w.toInt < 2 ^ 63 := fun w => by
    have := BitVec.toInt_lt (x := w); simpa using this
  unfold nowUs; split <;> exact max_lt h (key _)

/-- A queued clock word that keeps the contract is the answer. -/
theorem nowUs_queued {s : State} {w : HostWord} {rest : List HostWord}
    (h : s.env.clock = w :: rest) (hw : s.env.lastNow ≤ w.toInt) :
    nowUs s = (w.toInt, { s with env := { s.env with
      clock := rest, lastNow := w.toInt, calls := s.env.calls ++ [.nowUs w.toInt] } }) := by
  unfold nowUs; rw [h]; simp only [max_eq_right hw]; rfl

end Sys2Proof.Laws
end

