-- ==== Sys2Proof/Laws/Buffers.lean ====
section
/-! SUPPORT. What the buffer operations can do: their frames, and the sizes they leave. -/

namespace Sys2Proof.Laws

open Sys2Proof.Machine Sys2Proof.Config

@[simp] theorem length_shiftAppend {α : Type} (l : List α) (x : α) (h : l ≠ []) :
    (shiftAppend l x).length = l.length := by
  cases l with
  | nil => exact absurd rfl h
  | cons a l => simp [shiftAppend]

/-! ### The window -/

theorem length_sortedSamples (w : List Slot) :
    (sortedSamples w).length = (validSamples w).length := by
  simp [sortedSamples, List.length_insertionSort]

theorem mem_sortedSamples {w : List Slot} {v : Nat} :
    v ∈ sortedSamples w ↔ ∃ x : Sample, some x ∈ w ∧ x.toNat = v := by
  simp only [sortedSamples, List.mem_insertionSort, validSamples, List.mem_filterMap,
    Option.map_eq_some_iff]
  constructor
  · rintro ⟨a, ha, x, rfl, rfl⟩; exact ⟨x, ha, rfl⟩
  · rintro ⟨x, hx, rfl⟩; exact ⟨some x, hx, x, rfl, rfl⟩

/-- A valid sample is at most `ADC_MAX`. -/
theorem sortedSamples_le {w : List Slot} {v : Nat} (h : v ∈ sortedSamples w) : v ≤ adcMax := by
  obtain ⟨x, -, rfl⟩ := mem_sortedSamples.1 h
  have := x.isLt
  simp only [adcMax]; omega

/-- The doubled median is a sum of two entries of the list. -/
theorem doubledMedian_eq {l : List Nat} {m : Nat} (h : doubledMedian l = some m) :
    ∃ a ∈ l, ∃ b ∈ l, m = a + b := by
  have get : ∀ i, i < l.length → l.getD i 0 ∈ l := fun i hi => by
    rw [List.getD_eq_getElem _ _ hi]; exact List.getElem_mem hi
  unfold doubledMedian at h
  split at h
  · cases h
  · rename_i hne
    split at h
    · cases h
      exact ⟨_, get ((l.length - 1) / 2) (by omega), _, get ((l.length - 1) / 2) (by omega),
        two_mul _⟩
    · cases h
      exact ⟨_, get (l.length / 2 - 1) (by omega), _, get (l.length / 2) (by omega), rfl⟩

/-- Only the empty list has no median. -/
theorem doubledMedian_eq_none {l : List Nat} : doubledMedian l = none ↔ l = [] := by
  unfold doubledMedian
  constructor
  · intro h
    split at h
    · exact List.length_eq_zero_iff.1 (by assumption)
    · split at h <;> cases h
  · rintro rfl; rfl

/-- All that `WIN_MEDIAN` can do. -/
theorem winMedian_cases (s : State) :
    (sortedSamples s.win = [] ∧ winMedian s =
      { s with cond := { s.cond with level := .noData, nodata := true, high := false } }) ∨
    ∃ m2, doubledMedian (sortedSamples s.win) = some m2 ∧ winMedian s =
      { s with cond := { median2 := m2, level := levelOf m2 s, nodata := false,
                         high := highFlag m2 s } } := by
  unfold winMedian
  cases h : doubledMedian (sortedSamples s.win) with
  | none => exact .inl ⟨doubledMedian_eq_none.1 h, rfl⟩
  | some m2 => exact .inr ⟨m2, rfl, rfl⟩

/-- `WIN_MEDIAN` writes the conditioner registers alone. -/
@[simp] theorem winMedian_frame (s : State) :
    (winMedian s).cfg = s.cfg ∧ (winMedian s).det = s.det ∧ (winMedian s).seq = s.seq ∧
    (winMedian s).cal = s.cal ∧ (winMedian s).dec = s.dec ∧ (winMedian s).ctl = s.ctl ∧
    (winMedian s).arg = s.arg ∧ (winMedian s).tx = s.tx ∧ (winMedian s).win = s.win ∧
    (winMedian s).hist = s.hist ∧ (winMedian s).params = s.params ∧ (winMedian s).env = s.env ∧
    (winMedian s).script = s.script := by
  unfold winMedian; split <;> simp

/-- `PUSH_SAMPLE` writes the window and the conditioner registers. -/
@[simp] theorem pushSample_frame (raw : Sample) (s : State) :
    (pushSample raw s).cfg = s.cfg ∧ (pushSample raw s).det = s.det ∧
    (pushSample raw s).seq = s.seq ∧ (pushSample raw s).cal = s.cal ∧
    (pushSample raw s).dec = s.dec ∧ (pushSample raw s).ctl = s.ctl ∧
    (pushSample raw s).arg = s.arg ∧ (pushSample raw s).tx = s.tx ∧
    (pushSample raw s).hist = s.hist ∧ (pushSample raw s).params = s.params ∧
    (pushSample raw s).env = s.env ∧ (pushSample raw s).script = s.script := by
  simp [pushSample]

@[simp] theorem pushSample_win (raw : Sample) (s : State) :
    (pushSample raw s).win = shiftAppend s.win (some raw) := by
  simp [pushSample]

/-- After `PUSH_SAMPLE` the level is a ratio, never `NoData` (42 R148). -/
theorem pushSample_level (raw : Sample) (s : State) :
    ∃ m2, doubledMedian (sortedSamples (shiftAppend s.win (some raw))) = some m2 ∧
      (pushSample raw s).cond = { median2 := m2, level := levelOf m2 s, nodata := false,
                                  high := highFlag m2 s } := by
  rcases winMedian_cases (winPush raw s) with ⟨h, -⟩ | ⟨m2, h, e⟩
  · have hm : raw.toNat ∈ sortedSamples (winPush raw s).win :=
      mem_sortedSamples.2 ⟨raw, by simp [shiftAppend], rfl⟩
    rw [h] at hm
    cases hm
  · exact ⟨m2, h, by rw [pushSample, e]; rfl⟩

/-! ### The half-bit and frame buffers -/

/-- `BYTE_CLOSE` writes the decoder registers alone. -/
@[simp] theorem byteClose_frame (start n : Nat) (s : State) :
    ((byteClose start n s).2).cfg = s.cfg ∧ ((byteClose start n s).2).cond = s.cond ∧
    ((byteClose start n s).2).det = s.det ∧ ((byteClose start n s).2).seq = s.seq ∧
    ((byteClose start n s).2).cal = s.cal ∧ ((byteClose start n s).2).ctl = s.ctl ∧
    ((byteClose start n s).2).arg = s.arg ∧ ((byteClose start n s).2).tx = s.tx ∧
    ((byteClose start n s).2).win = s.win ∧ ((byteClose start n s).2).hist = s.hist ∧
    ((byteClose start n s).2).params = s.params ∧ ((byteClose start n s).2).env = s.env ∧
    ((byteClose start n s).2).script = s.script := by
  unfold byteClose; split <;> simp

/-- All that `BYTE_CLOSE` can do (44 R207). -/
theorem byteClose_cases (start n : Nat) (s : State) :
    (fbLen s = s.params.maxPacketSize ∧
      byteClose start n s = (.full, { s with dec := { s.dec with capx := true } })) ∨
    (fbLen s ≠ s.params.maxPacketSize ∧ ∃ b skip, byteDecode start n s = (b, skip) ∧
      byteClose start n s = (.ok skip, { s with dec := { s.dec with
        fb := s.dec.fb ++ [b],
        ambigCount := if skip then s.dec.ambigCount + 1 else s.dec.ambigCount,
        ambig := s.dec.ambig || skip } })) := by
  unfold byteClose
  split
  · exact .inl ⟨by assumption, rfl⟩
  · exact .inr ⟨by assumption, _, _, rfl, rfl⟩

/-- `BYTE_CLOSE` leaves the half-bits, `PARTIAL` and `CARRY`. -/
@[simp] theorem byteClose_keeps (start n : Nat) (s : State) :
    (byteClose start n s).2.dec.hb = s.dec.hb ∧
    (byteClose start n s).2.dec.partialByte = s.dec.partialByte ∧
    (byteClose start n s).2.dec.carry = s.dec.carry := by
  unfold byteClose; split <;> simp

/-- `BYTE_CLOSE` never passes the byte capacity. -/
theorem byteClose_fbLen {start n : Nat} {s : State} (h : fbLen s ≤ s.params.maxPacketSize) :
    fbLen (byteClose start n s).2 ≤ s.params.maxPacketSize := by
  rcases byteClose_cases start n s with ⟨-, e⟩ | ⟨hne, b, skip, -, e⟩
  · rw [e]; exact h
  · rw [e]; simp only [fbLen, List.length_append, List.length_cons, List.length_nil] at *; omega


/-- `HB_APPEND` writes the decoder registers alone. -/
@[simp] theorem hbAppend_frame (lv : Level) (s : State) :
    ((hbAppend lv s).2).cfg = s.cfg ∧ ((hbAppend lv s).2).cond = s.cond ∧
    ((hbAppend lv s).2).det = s.det ∧ ((hbAppend lv s).2).seq = s.seq ∧
    ((hbAppend lv s).2).cal = s.cal ∧ ((hbAppend lv s).2).ctl = s.ctl ∧
    ((hbAppend lv s).2).arg = s.arg ∧ ((hbAppend lv s).2).tx = s.tx ∧
    ((hbAppend lv s).2).win = s.win ∧ ((hbAppend lv s).2).hist = s.hist ∧
    ((hbAppend lv s).2).params = s.params ∧ ((hbAppend lv s).2).env = s.env ∧
    ((hbAppend lv s).2).script = s.script := by
  unfold hbAppend; dsimp only; (repeat' split) <;> simp

/-- All that `HB_APPEND` can do (44 R205). -/
theorem hbAppend_cases (lv : Level) (s : State) :
    (hbLen s = s.params.maxPacketHalfBits ∧
      hbAppend lv s = (.full, { s with dec := { s.dec with capx := true } })) ∨
    (hbLen s ≠ s.params.maxPacketHalfBits ∧ (hbLen s + 1) % 16 ≠ 0 ∧
      hbAppend lv s = (.ok false, storeHalfBit lv s)) ∨
    (hbLen s ≠ s.params.maxPacketHalfBits ∧ (hbLen s + 1) % 16 = 0 ∧
      hbAppend lv s = byteClose (hbLen s + 1 - 16) 16 (storeHalfBit lv s)) := by
  have hl : hbLen (storeHalfBit lv s) = hbLen s + 1 := by simp [hbLen]
  unfold hbAppend
  split
  · exact .inl ⟨by assumption, rfl⟩
  · rename_i hne
    simp only [hl]
    split
    · exact .inr (.inr ⟨hne, by assumption, rfl⟩)
    · exact .inr (.inl ⟨hne, by assumption, rfl⟩)

@[simp] theorem hbAppend_carry (lv : Level) (s : State) :
    (hbAppend lv s).2.dec.carry = s.dec.carry := by
  rcases hbAppend_cases lv s with ⟨-, e⟩ | ⟨-, -, e⟩ | ⟨-, -, e⟩ <;> rw [e] <;> simp

/-- `HB_APPEND` keeps both capacities. -/
theorem hbAppend_lengths {lv : Level} {s : State} (h : hbLen s ≤ s.params.maxPacketHalfBits)
    (h' : fbLen s ≤ s.params.maxPacketSize) :
    hbLen (hbAppend lv s).2 ≤ s.params.maxPacketHalfBits ∧
    fbLen (hbAppend lv s).2 ≤ s.params.maxPacketSize := by
  have hl : hbLen (storeHalfBit lv s) = hbLen s + 1 := by simp [hbLen]
  rcases hbAppend_cases lv s with ⟨-, e⟩ | ⟨hne, -, e⟩ | ⟨hne, -, e⟩ <;> rw [e]
  · exact ⟨h, h'⟩
  · exact ⟨by simp only [hl]; omega, h'⟩
  · refine ⟨?_, byteClose_fbLen (s := storeHalfBit lv s) h'⟩
    have : hbLen (byteClose (hbLen s + 1 - 16) 16 (storeHalfBit lv s)).2 = hbLen s + 1 := by
      simp [hbLen]
    omega

/-! ### Finalizing a frame -/

/-- The completion at idle writes the decoder registers alone. -/
@[simp] theorem completeAtIdle_frame (idle : Bool) (s : State) :
    (completeAtIdle idle s).cfg = s.cfg ∧ (completeAtIdle idle s).cond = s.cond ∧
    (completeAtIdle idle s).det = s.det ∧ (completeAtIdle idle s).seq = s.seq ∧
    (completeAtIdle idle s).cal = s.cal ∧ (completeAtIdle idle s).ctl = s.ctl ∧
    (completeAtIdle idle s).arg = s.arg ∧ (completeAtIdle idle s).tx = s.tx ∧
    (completeAtIdle idle s).win = s.win ∧ (completeAtIdle idle s).hist = s.hist ∧
    (completeAtIdle idle s).params = s.params ∧ (completeAtIdle idle s).env = s.env ∧
    (completeAtIdle idle s).script = s.script := by
  unfold completeAtIdle; dsimp only; (repeat' split) <;> simp

/-- The final flush writes the decoder registers alone. -/
@[simp] theorem flushPartial_frame (s : State) :
    (flushPartial s).cfg = s.cfg ∧ (flushPartial s).cond = s.cond ∧ (flushPartial s).det = s.det ∧
    (flushPartial s).seq = s.seq ∧ (flushPartial s).cal = s.cal ∧ (flushPartial s).ctl = s.ctl ∧
    (flushPartial s).arg = s.arg ∧ (flushPartial s).tx = s.tx ∧ (flushPartial s).win = s.win ∧
    (flushPartial s).hist = s.hist ∧ (flushPartial s).params = s.params ∧
    (flushPartial s).env = s.env ∧ (flushPartial s).script = s.script := by
  unfold flushPartial; dsimp only; split <;> simp

/-- The hand-over writes `CODE` and calls the sink. -/
@[simp] theorem handOver_frame (s : State) :
    (handOver s).cfg = s.cfg ∧ (handOver s).cond = s.cond ∧ (handOver s).det = s.det ∧
    (handOver s).seq = s.seq ∧ (handOver s).cal = s.cal ∧ (handOver s).dec = s.dec ∧
    (handOver s).arg = s.arg ∧ (handOver s).tx = s.tx ∧ (handOver s).win = s.win ∧
    (handOver s).hist = s.hist ∧ (handOver s).params = s.params ∧ (handOver s).script = s.script := by
  simp [handOver]

/-- `FINALIZE` writes the decoder registers and `CODE`, and calls the sink. -/
@[simp] theorem finalize_frame (idle : Bool) (s : State) :
    (finalize idle s).cfg = s.cfg ∧ (finalize idle s).cond = s.cond ∧
    (finalize idle s).det = s.det ∧ (finalize idle s).seq = s.seq ∧
    (finalize idle s).cal = s.cal ∧ (finalize idle s).arg = s.arg ∧ (finalize idle s).tx = s.tx ∧
    (finalize idle s).win = s.win ∧ (finalize idle s).hist = s.hist ∧
    (finalize idle s).params = s.params ∧ (finalize idle s).script = s.script := by
  simp [finalize]

/-- `FINALIZE` calls the sink once, with the frame it leaves, and writes its outcome code and its length
(44 R211, 10 R43). -/
theorem finalize_handOver (idle : Bool) (s : State) :
    (finalize idle s).env = { s.env with
      calls := s.env.calls ++ [.emitFrame (finalize idle s).dec.fb] } ∧
    (finalize idle s).ctl = { s.ctl with
      code := frameCode (finalize idle s).dec.capx (finalize idle s).dec.ambig,
      frameLen := fbLen (finalize idle s) } := by
  simp [finalize, handOver, fbLen]

@[simp] theorem completeAtIdle_carry (idle : Bool) (s : State) :
    (completeAtIdle idle s).dec.carry = s.dec.carry := by
  unfold completeAtIdle; dsimp only; (repeat' split) <;> simp

@[simp] theorem flushPartial_carry (s : State) : (flushPartial s).dec.carry = s.dec.carry := by
  unfold flushPartial; dsimp only; split <;> simp

@[simp] theorem finalize_carry (idle : Bool) (s : State) :
    (finalize idle s).dec.carry = s.dec.carry := by
  simp [finalize, handOver]

/-- `FINALIZE` keeps both capacities. -/
theorem finalize_lengths {idle : Bool} {s : State} (h : hbLen s ≤ s.params.maxPacketHalfBits)
    (h' : fbLen s ≤ s.params.maxPacketSize) :
    hbLen (finalize idle s) ≤ s.params.maxPacketHalfBits ∧
    fbLen (finalize idle s) ≤ s.params.maxPacketSize := by
  have h1 : hbLen (completeAtIdle idle s) ≤ s.params.maxPacketHalfBits ∧
      fbLen (completeAtIdle idle s) ≤ s.params.maxPacketSize := by
    unfold completeAtIdle
    split
    · rename_i q _
      split
      · rename_i hc
        have hl : hbLen (storeHalfBit (.ratio q) s) = hbLen s + 1 := by simp [hbLen]
        dsimp only
        split
        · refine ⟨?_, byteClose_fbLen (s := storeHalfBit (.ratio q) s) h'⟩
          have : hbLen (byteClose (hbLen (storeHalfBit (.ratio q) s) - 16) 16
              (storeHalfBit (.ratio q) s)).2 = hbLen s + 1 := by simp [hbLen]
          omega
        · exact ⟨by omega, h'⟩
      · exact ⟨h, h'⟩
    · exact ⟨h, h'⟩
  have h2 : ∀ u : State, hbLen u ≤ u.params.maxPacketHalfBits → fbLen u ≤ u.params.maxPacketSize →
      hbLen (flushPartial u) ≤ u.params.maxPacketHalfBits ∧
      fbLen (flushPartial u) ≤ u.params.maxPacketSize := by
    intro u a b
    unfold flushPartial
    dsimp only
    split
    · refine ⟨?_, byteClose_fbLen (s := u) b⟩
      simpa [hbLen] using a
    · exact ⟨a, b⟩
  have := h2 (completeAtIdle idle s) (by simpa using h1.1) (by simpa using h1.2)
  simpa [finalize, handOver, hbLen, fbLen] using this

end Sys2Proof.Laws
end

