-- ==== Sys2Proof/Laws/Decode.lean ====
section
/-! SUPPORT. What the decoder can answer, told once. -/

namespace Sys2Proof.Laws

open Sys2Proof

/-- A decoded word has a row of the opcode table, and that row made the instruction. -/
theorem decodeWord_ok {w : CmdWord} {i : Instr} (h : decodeWord w = .ok i) :
    ∃ row ∈ opcodeTable, row.1 = opcField w ∧ row.2 (immField w) = i := by
  unfold decodeWord at h
  split at h
  · rename_i row hr
    cases h
    exact ⟨row, List.mem_of_find?_eq_some hr, by simpa using List.find?_some hr, rfl⟩
  · cases h

/-- A refused word has its opcode in no row of the table. -/
theorem decodeWord_error {w : CmdWord} {e : DecodeError} (h : decodeWord w = .error e) :
    e = .illegalOpcode (opcField w) ∧ ∀ row ∈ opcodeTable, row.1 ≠ opcField w := by
  unfold decodeWord at h
  split at h
  · cases h
  · rename_i hr
    cases h
    exact ⟨rfl, fun row hm => by simpa using List.find?_eq_none.1 hr row hm⟩

/-- Two words of one opcode decode alike when every row of that opcode reads their immediates alike. -/
theorem decodeWord_congr {w w' : CmdWord} (ho : opcField w = opcField w')
    (h : ∀ row ∈ opcodeTable, row.1 = opcField w → row.2 (immField w) = row.2 (immField w')) :
    decodeWord w = decodeWord w' := by
  unfold decodeWord
  rw [← ho]
  split
  · rename_i row hr
    exact congrArg _ (h row (List.mem_of_find?_eq_some hr) (by simpa using List.find?_some hr))
  · rfl

/-- The no-data operand is read with its one spelling. -/
theorem levelField_wellFormed (imm : BitVec 24) :
    levelOperandWellFormed (levelField imm).1 (levelField imm).2 := by
  unfold levelField levelOperandWellFormed
  split <;> simp

end Sys2Proof.Laws
end

