-- ==== Sys2Proof/Laws/Loops.lean ====
section
/-! SUPPORT. What the detector, the loops of the receive path, the encoder's cell and the calibration
scans can do. -/

namespace Sys2Proof.Laws

open Sys2Proof.Machine Sys2Proof.Config

/-! ### The transition detector (43 R165) -/

/-- `TD_STEP` writes the detector registers alone. -/
@[simp] theorem tdStep_frame (e : Level) (now : Int) (s : State) :
    ((tdStep e now s).2).cfg = s.cfg ∧ ((tdStep e now s).2).cond = s.cond ∧
    ((tdStep e now s).2).seq = s.seq ∧ ((tdStep e now s).2).cal = s.cal ∧
    ((tdStep e now s).2).dec = s.dec ∧ ((tdStep e now s).2).ctl = s.ctl ∧
    ((tdStep e now s).2).arg = s.arg ∧ ((tdStep e now s).2).tx = s.tx ∧
    ((tdStep e now s).2).win = s.win ∧ ((tdStep e now s).2).hist = s.hist ∧
    ((tdStep e now s).2).params = s.params ∧ ((tdStep e now s).2).env = s.env ∧
    ((tdStep e now s).2).script = s.script := by
  unfold tdStep; dsimp only; (repeat' split) <;> simp

theorem countPush_le (d : Nat) : countPush d ≤ debounceMin := min_le_right _ _

/-- All that `TD_STEP` can do (43 R165). -/
theorem tdStep_cases (e : Level) (now : Int) (s : State) :
    (tdStep e now s =
      (none, { s with det := { s.det with deb := countPush s.det.deb } })) ∨
    (∃ q, e = .ratio q ∧ s.det.cur = none ∧ tdStep e now s = (none, acceptLevel q now s)) ∨
    (∃ q c, e = .ratio q ∧ s.det.cur = some c ∧ hi q ≠ hi c ∧
      debounceMin ≤ countPush s.det.deb ∧
      tdStep e now s =
        (some (holdSlots (now - s.det.tLast) s.cfg.freq, .ratio c), acceptLevel q now s)) := by
  unfold tdStep
  cases e with
  | noData => exact .inl rfl
  | ratio q =>
    dsimp only
    split
    · exact .inr (.inl ⟨q, rfl, by assumption, rfl⟩)
    · rename_i c hc
      split
      · rename_i h; exact .inr (.inr ⟨q, c, rfl, hc, h.1, h.2, rfl⟩)
      · exact .inl rfl

/-! ### The decode loop (44 R216) -/

/-- Appending the copies of a hold writes the decoder registers alone. -/
@[simp] theorem appendHold_frame (n : Nat) (lv : Level) (s : State) :
    ((appendHold n lv s).2).cfg = s.cfg ∧ ((appendHold n lv s).2).cond = s.cond ∧
    ((appendHold n lv s).2).det = s.det ∧ ((appendHold n lv s).2).seq = s.seq ∧
    ((appendHold n lv s).2).cal = s.cal ∧ ((appendHold n lv s).2).ctl = s.ctl ∧
    ((appendHold n lv s).2).arg = s.arg ∧ ((appendHold n lv s).2).tx = s.tx ∧
    ((appendHold n lv s).2).win = s.win ∧ ((appendHold n lv s).2).hist = s.hist ∧
    ((appendHold n lv s).2).params = s.params ∧ ((appendHold n lv s).2).env = s.env ∧
    ((appendHold n lv s).2).script = s.script := by
  induction n generalizing s with
  | zero => simp [appendHold]
  | succ n ih =>
    have key := hbAppend_frame lv s
    unfold appendHold
    split
    · rename_i t e; rw [e] at key; simpa using key
    · rename_i t e; rw [e] at key; have := ih t; simp_all

@[simp] theorem appendHold_carry (n : Nat) (lv : Level) (s : State) :
    (appendHold n lv s).2.dec.carry = s.dec.carry := by
  induction n generalizing s with
  | zero => simp [appendHold]
  | succ n ih =>
    have key := hbAppend_carry lv s
    unfold appendHold
    split
    · rename_i t e; rw [e] at key; simpa using key
    · rename_i t e; rw [e] at key; rw [ih t, key]

/-- Appending the copies of a hold keeps both capacities. -/
theorem appendHold_lengths {n : Nat} {lv : Level} {s : State}
    (h : hbLen s ≤ s.params.maxPacketHalfBits) (h' : fbLen s ≤ s.params.maxPacketSize) :
    hbLen (appendHold n lv s).2 ≤ s.params.maxPacketHalfBits ∧
    fbLen (appendHold n lv s).2 ≤ s.params.maxPacketSize := by
  induction n generalizing s with
  | zero => exact ⟨h, h'⟩
  | succ n ih =>
    have key := hbAppend_lengths (lv := lv) h h'
    have hp : (hbAppend lv s).2.params = s.params := by simp
    unfold appendHold
    split
    · rename_i t e; rw [e] at key; exact key
    · rename_i t e
      rw [e] at key hp
      have := ih (s := t) (by rw [hp]; exact key.1) (by rw [hp]; exact key.2)
      rwa [hp] at this

/-- Passing to decoding writes the phase and the decoder registers. -/
@[simp] theorem enterDecode_frame (s : State) :
    (enterDecode s).cfg = s.cfg ∧ (enterDecode s).cond = s.cond ∧ (enterDecode s).det = s.det ∧
    (enterDecode s).cal = s.cal ∧ (enterDecode s).ctl = s.ctl ∧ (enterDecode s).arg = s.arg ∧
    (enterDecode s).tx = s.tx ∧ (enterDecode s).win = s.win ∧ (enterDecode s).hist = s.hist ∧
    (enterDecode s).params = s.params ∧ (enterDecode s).env = s.env ∧
    (enterDecode s).script = s.script := by
  unfold enterDecode; dsimp only; split <;> simp

@[simp] theorem enterDecode_seq (s : State) :
    (enterDecode s).seq = { s.seq with phase := .decode } := by
  unfold enterDecode; dsimp only; split <;> simp

@[simp] theorem enterDecode_carry (s : State) : (enterDecode s).dec.carry = none := by
  unfold enterDecode; dsimp only; split
  · assumption
  · rfl

/-- Passing to decoding keeps both capacities. -/
theorem enterDecode_lengths {s : State} (h : hbLen s ≤ s.params.maxPacketHalfBits)
    (h' : fbLen s ≤ s.params.maxPacketSize) :
    hbLen (enterDecode s) ≤ s.params.maxPacketHalfBits ∧
    fbLen (enterDecode s) ≤ s.params.maxPacketSize := by
  unfold enterDecode
  dsimp only
  split
  · exact ⟨h, h'⟩
  · rename_i lv _
    exact hbAppend_lengths (lv := lv) (s := { s with seq := { s.seq with phase := .decode } }) h h'

/-! ### The scan loop (43 R176, R177) -/

/-- `matchAction` writes the history, `MATCH`, `CARRY` and the sequencer registers. -/
@[simp] theorem matchAction_frame (left : Nat) (lv : Level) (now : Int) (s : State) :
    (matchAction left lv now s).cfg = s.cfg ∧ (matchAction left lv now s).cond = s.cond ∧
    (matchAction left lv now s).det = s.det ∧ (matchAction left lv now s).cal = s.cal ∧
    (matchAction left lv now s).arg = s.arg ∧ (matchAction left lv now s).tx = s.tx ∧
    (matchAction left lv now s).win = s.win ∧ (matchAction left lv now s).params = s.params ∧
    (matchAction left lv now s).env = s.env ∧ (matchAction left lv now s).script = s.script := by
  simp [matchAction]

/-- `scanHold` writes the history, `MATCH`, `CARRY` and the sequencer registers. -/
@[simp] theorem scanHold_frame (n : Nat) (lv : Level) (now : Int) (s : State) :
    (scanHold n lv now s).cfg = s.cfg ∧ (scanHold n lv now s).cond = s.cond ∧
    (scanHold n lv now s).det = s.det ∧ (scanHold n lv now s).cal = s.cal ∧
    (scanHold n lv now s).arg = s.arg ∧ (scanHold n lv now s).tx = s.tx ∧
    (scanHold n lv now s).win = s.win ∧ (scanHold n lv now s).params = s.params ∧
    (scanHold n lv now s).env = s.env ∧ (scanHold n lv now s).script = s.script := by
  induction n generalizing s with
  | zero => simp [scanHold]
  | succ n ih =>
    unfold scanHold
    dsimp only
    split
    · simp
    · have := ih (histMatch (histAppend lv s)); simpa using this

/-- The scan loop ends in one of two ways: no match, so that only the history and `MATCH` changed; or
the match action. -/
theorem scanHold_cases (n : Nat) (lv : Level) (now : Int) (s : State) :
    (∃ h m, scanHold n lv now s = { s with hist := h, ctl := { s.ctl with matched := m } }) ∨
    (∃ left h m, left < n ∧ scanHold n lv now s =
      matchAction left lv now { s with hist := h, ctl := { s.ctl with matched := m } }) := by
  induction n generalizing s with
  | zero => exact .inl ⟨s.hist, s.ctl.matched, rfl⟩
  | succ n ih =>
    unfold scanHold
    dsimp only
    split
    · exact .inr ⟨n, _, _, Nat.lt_succ_self n, rfl⟩
    · rcases ih (histMatch (histAppend lv s)) with ⟨h, m, e⟩ | ⟨left, h, m, hl, e⟩
      · exact .inl ⟨h, m, by rw [e]; rfl⟩
      · exact .inr ⟨left, h, m, by omega, by rw [e]; rfl⟩

/-- Latching the scan start writes the sequencer registers alone. -/
@[simp] theorem latchStart_frame (now : Int) (s : State) :
    (latchStart now s).cfg = s.cfg ∧ (latchStart now s).cond = s.cond ∧
    (latchStart now s).det = s.det ∧ (latchStart now s).cal = s.cal ∧
    (latchStart now s).dec = s.dec ∧ (latchStart now s).ctl = s.ctl ∧
    (latchStart now s).arg = s.arg ∧ (latchStart now s).tx = s.tx ∧
    (latchStart now s).win = s.win ∧ (latchStart now s).hist = s.hist ∧
    (latchStart now s).params = s.params ∧ (latchStart now s).env = s.env ∧
    (latchStart now s).script = s.script := by
  unfold latchStart; split <;> simp

@[simp] theorem latchStart_keeps (now : Int) (s : State) :
    (latchStart now s).seq.phase = s.seq.phase ∧ (latchStart now s).seq.op = s.seq.op ∧
    (latchStart now s).seq.tSettle = s.seq.tSettle := by
  unfold latchStart; split <;> simp

/-! ### The encoder's cell (45 R235) -/

/-- One cell: two `Actuate` and two `Wait` calls, and the line left at the bit's second half. -/
theorem bitCell_eq (b : Bool) (hp : Rat) (s : State) :
    bitCell b hp s = { s with
      tx := { s.tx with led := b },
      env := { s.env with calls := s.env.calls ++
        [.actuate (!b), .wait hp, .actuate b, .wait hp] } } := by
  simp [bitCell, wait, actuate, record]


/-- A cell writes `LED` and calls the actuator. -/
@[simp] theorem bitCell_frame (b : Bool) (hp : Rat) (s : State) :
    (bitCell b hp s).cfg = s.cfg ∧ (bitCell b hp s).cond = s.cond ∧ (bitCell b hp s).det = s.det ∧
    (bitCell b hp s).seq = s.seq ∧ (bitCell b hp s).cal = s.cal ∧ (bitCell b hp s).dec = s.dec ∧
    (bitCell b hp s).ctl = s.ctl ∧ (bitCell b hp s).arg = s.arg ∧ (bitCell b hp s).win = s.win ∧
    (bitCell b hp s).hist = s.hist ∧ (bitCell b hp s).params = s.params ∧
    (bitCell b hp s).script = s.script := by
  simp [bitCell_eq]

@[simp] theorem bitCell_tx (b : Bool) (hp : Rat) (s : State) :
    (bitCell b hp s).tx = { s.tx with led := b } := by
  simp [bitCell_eq]

@[simp] theorem bitCell_env (b : Bool) (hp : Rat) (s : State) :
    (bitCell b hp s).env = { s.env with calls := s.env.calls ++
      [.actuate (!b), .wait hp, .actuate b, .wait hp] } := by
  simp [bitCell_eq]

end Sys2Proof.Laws
end

