-- ==== Sys2Proof/Laws/Step.lean ====
section
/-! SUPPORT. Every instruction is one command acceptance, and all that a step can do. -/

namespace Sys2Proof.Laws

open Sys2Proof Sys2Proof.Machine

/-- The precondition of an operation (46 R255, the table). -/
def preOf (s : State) : Instr → Option Code
  | .synchronize => needsFreq s
  | .receiveFrame => needsFreq s
  | .transmitFrame => needsFreq s
  | .sendBit _ r => if r then none else needsFreq s
  | .decode => needsFreqAndLock s
  | .nop => none
  | .setFreq _ => none
  | .setThresh => none
  | .bufReset => none
  | .winReset => none
  | .winPush _ => none
  | .winSelect _ => none
  | .winMedian => none
  | .pushSample _ => none
  | .calibrate => none
  | .histClear => none
  | .histAppend _ _ => none
  | .histMatch => none
  | .hbReset => none
  | .hbAppend _ _ => none
  | .hbFlush _ => none
  | .sendPreamble => none

/-- The rule of an operation: the whole of a single-step one, the start of a multi-step one. -/
def ruleOf : Instr → State → State
  | .nop => complete .ok
  | .setFreq f => setFreq f.toNat
  | .setThresh => setThresh
  | .bufReset => fun t => complete .ok (bufReset t)
  | .winReset => fun t => complete .ok (winReset t)
  | .winPush raw => fun t => complete .ok (winPush raw t)
  | .winSelect k => fun t => complete .ok (winSelect k.toNat t)
  | .winMedian => fun t => complete .ok (winMedian t)
  | .pushSample raw => fun t => complete .ok (pushSample raw t)
  | .calibrate => startCalibrate
  | .histClear => fun t => complete .ok (histClear t)
  | .histAppend m2 nd => fun t => complete .ok (histAppend (levelOperand m2 nd t) t)
  | .histMatch => fun t => complete .ok (histMatch t)
  | .synchronize => startScan 0x33
  | .hbReset => fun t => complete .ok (hbReset t)
  | .hbAppend m2 nd => fun t => hostHbAppend (levelOperand m2 nd t) t
  | .hbFlush idle => hbFlush idle
  | .decode => startDecode
  | .receiveFrame => startScan 0x44
  | .sendBit b r => fun t => complete .ok (bitCell b (halfPeriod r t) t)
  | .sendPreamble => startPreamble
  | .transmitFrame => startTransmit

/-- Only `NOP` keeps the lock. -/
def keepsLock (i : Instr) : Bool := decide (i = .nop)

/-- Every instruction is one command acceptance. -/
theorem exec_eq_command (i : Instr) (s : State) :
    exec i s = command (keepsLock i) (preOf s i) (ruleOf i) s := by
  cases i <;> rfl

/-- All that an instruction can do: dropped, refused by its precondition, or its rule. -/
theorem exec_cases {i : Instr} {s t : State} (h : exec i s = .next t) :
    (s.ctl.busy = true ∧ t = dropCommand s) ∨
    (s.ctl.busy = false ∧ ∃ e, preOf s i = some e ∧ t = raise e (admission (keepsLock i) s)) ∨
    (s.ctl.busy = false ∧ preOf s i = none ∧ t = ruleOf i (admission (keepsLock i) s)) :=
  command_cases (exec_eq_command i s ▸ h)

/-- All that a reset inside a step can do: the step has a next state, which the reset cuts short. -/
theorem actCut_cases {command : Option HostWord} {calls : Nat} {s t : State}
    (h : actCut command calls s = .next t) :
    ∃ u, issueOrIterate command s = .next u ∧ t = cutReset calls s u := by
  unfold actCut at h
  split at h
  · rename_i u hu; cases h; exact ⟨u, hu, rfl⟩
  · cases h
  · cases h

/-- A call made again changes the environment alone. -/
@[simp] theorem replay_frame (s : State) (e : PortEvent) :
    (replay s e).cfg = s.cfg ∧ (replay s e).cond = s.cond ∧ (replay s e).det = s.det ∧
    (replay s e).seq = s.seq ∧ (replay s e).cal = s.cal ∧ (replay s e).dec = s.dec ∧
    (replay s e).ctl = s.ctl ∧ (replay s e).arg = s.arg ∧ (replay s e).tx = s.tx ∧
    (replay s e).win = s.win ∧ (replay s e).hist = s.hist ∧ (replay s e).params = s.params ∧
    (replay s e).script = s.script := by
  cases e <;> simp [replay]

/-- Calls made again leave the instance and the script. -/
theorem replay_foldl_frame (l : List PortEvent) (s : State) :
    (l.foldl replay s).params = s.params ∧ (l.foldl replay s).script = s.script := by
  induction l generalizing s with
  | nil => exact ⟨rfl, rfl⟩
  | cons e l ih => simpa using ih (replay s e)

/-- After a reset inside a step the block is reset: only the environment tells which calls were made. -/
theorem cutReset_eq (calls : Nat) (s t : State) :
    cutReset calls s t = State.resetOf s.params
      (((t.env.calls.drop s.env.calls.length).take calls).foldl replay s).env s.script := by
  have h := replay_foldl_frame ((t.env.calls.drop s.env.calls.length).take calls) s
  rw [cutReset, resetBlock, h.1, h.2]

/-- All that one host action can do. -/
theorem act_cases {a : HostAction} {s t : State} (h : act a s = .next t) :
    (a = .tick ∧ t = iterate s) ∨ (a = .rst ∧ t = resetBlock s) ∨
    (∃ command calls u, a = .rstInside command calls ∧ issueOrIterate command s = .next u ∧
      t = cutReset calls s u) ∨
    (∃ addr, a = .read addr ∧ t = hostReadAction addr s) ∨
    (∃ addr d, a = .write addr d ∧ addr ≠ cmdAddress ∧ t = hostWrite addr d s) ∨
    (∃ d e, a = .write cmdAddress d ∧ decodeWord (d.setWidth 32) = .error e ∧
      t = illegalCommand s) ∨
    (∃ d i, a = .write cmdAddress d ∧ decodeWord (d.setWidth 32) = .ok i ∧
      exec i s = .next t) := by
  cases a with
  | tick => cases h; exact .inl ⟨rfl, rfl⟩
  | rst => cases h; exact .inr (.inl ⟨rfl, rfl⟩)
  | rstInside command calls =>
    obtain ⟨u, hu, e⟩ := actCut_cases h
    exact .inr (.inr (.inl ⟨command, calls, u, rfl, hu, e⟩))
  | read addr => cases h; exact .inr (.inr (.inr (.inl ⟨addr, rfl, rfl⟩)))
  | write addr d =>
    simp only [act] at h
    split at h
    · rename_i ha
      subst ha
      unfold issueWord at h
      split at h
      · rename_i i hi; exact .inr (.inr (.inr (.inr (.inr (.inr ⟨d, i, rfl, hi, h⟩)))))
      · rename_i e he; cases h; exact .inr (.inr (.inr (.inr (.inr (.inl ⟨d, e, rfl, he, rfl⟩)))))
    · rename_i ha; cases h; exact .inr (.inr (.inr (.inr (.inl ⟨addr, d, rfl, ha, rfl⟩))))

/-- All that one step can do: an iteration when no host action is pending, else the action. -/
theorem step_cases {s t : State} (h : step s = .next t) :
    (s.script = [] ∧ t = iterate s) ∨
    ∃ a rest, s.script = a :: rest ∧ act a { s with script := rest } = .next t := by
  unfold step advance at h
  split at h
  · cases h; exact .inl ⟨by assumption, rfl⟩
  · rename_i a rest hs; exact .inr ⟨a, rest, hs, h⟩

end Sys2Proof.Laws
end

