-- ==== Sys2Proof/Laws/Iterations.lean ====
section
/-! SUPPORT. All that one iteration of a receive loop can do, and what no iteration changes. -/

namespace Sys2Proof.Laws

open Sys2Proof Sys2Proof.Machine

/-- All that a `SCAN` iteration can do (43 R176): the timeout, a push without an ended hold, or a push
that ends one. -/
theorem scanIteration_cases {s : State} {now : Int} {c : State} (hn : nowUs (feed s) = (now, c)) :
    ((s.params.syncTimeoutUs : Int) ≤ now - (latchStart now c).seq.tStart ∧
      scanIteration s = endTimeout (latchStart now c)) ∨
    (now - (latchStart now c).seq.tStart < s.params.syncTimeoutUs ∧
      ∃ raw r, readSample (latchStart now c) = (raw, r) ∧
        ((∃ t, tdStep (pushSample raw r).cond.level now (pushSample raw r) = (none, t) ∧
            scanIteration s = t) ∨
          ∃ k lv t, tdStep (pushSample raw r).cond.level now (pushSample raw r) = (some (k, lv), t) ∧
            scanIteration s = scanHold k lv now t)) := by
  have hp : (latchStart now c).params = s.params := by
    have h : c = (nowUs (feed s)).2 := by rw [hn]
    simp [h]
  unfold scanIteration
  rw [hn]
  dsimp only
  rw [hp]
  split
  · rename_i h
    exact .inl ⟨h, rfl⟩
  · rename_i h
    obtain ⟨raw, r, hr⟩ : ∃ raw r, readSample (latchStart now c) = (raw, r) := ⟨_, _, rfl⟩
    refine .inr ⟨by omega, raw, r, hr, ?_⟩
    rw [hr]
    dsimp only
    rcases e : tdStep (pushSample raw r).cond.level now (pushSample raw r) with ⟨_ | ⟨k, lv⟩, t⟩
    · exact .inl ⟨t, rfl, rfl⟩
    · exact .inr ⟨k, lv, t, rfl, rfl⟩

/-- All that a `DECODE` iteration can do (44 R216): the idle end, a push without an ended hold, a push
that ends one, or the capacity end. -/
theorem decodeIteration_cases {s : State} {now : Int} {c : State} (hn : nowUs (feed s) = (now, c)) :
    (idleExceeded (now - s.det.tLast) s.cfg.freq = true ∧
      decodeIteration s = endOperation (finalize true c)) ∨
    (idleExceeded (now - s.det.tLast) s.cfg.freq = false ∧
      ∃ raw r, readSample c = (raw, r) ∧
        ((∃ t, tdStep (pushSample raw r).cond.level now (pushSample raw r) = (none, t) ∧
            decodeIteration s = t) ∨
          ∃ k lv t, tdStep (pushSample raw r).cond.level now (pushSample raw r) = (some (k, lv), t) ∧
            ((∃ u, appendHold k lv t = (.full, u) ∧
                decodeIteration s = endOperation (finalize false u)) ∨
              ∃ skip u, appendHold k lv t = (.ok skip, u) ∧ decodeIteration s = u))) := by
  have hd : c.det = s.det := by
    have h : c = (nowUs (feed s)).2 := by rw [hn]
    simp [h]
  have hc : c.cfg = s.cfg := by
    have h : c = (nowUs (feed s)).2 := by rw [hn]
    simp [h]
  unfold decodeIteration
  rw [hn]
  dsimp only
  rw [hd, hc]
  split
  · rename_i h
    exact .inl ⟨h, rfl⟩
  · rename_i h
    obtain ⟨raw, r, hr⟩ : ∃ raw r, readSample c = (raw, r) := ⟨_, _, rfl⟩
    refine .inr ⟨by simpa using h, raw, r, hr, ?_⟩
    rw [hr]
    dsimp only
    rcases e : tdStep (pushSample raw r).cond.level now (pushSample raw r) with ⟨_ | ⟨k, lv⟩, t⟩
    · exact .inl ⟨t, rfl, rfl⟩
    · refine .inr ⟨k, lv, t, rfl, ?_⟩
      dsimp only
      rcases e' : appendHold k lv t with ⟨skip | _, u⟩
      · exact .inr ⟨skip, u, rfl, rfl⟩
      · exact .inl ⟨u, rfl, rfl⟩

/-- What no iteration changes: the configuration, the operands, the transmit buffer and its length, the
instance and the script. -/
theorem iterate_frame (s : State) :
    (iterate s).cfg = s.cfg ∧ (iterate s).arg = s.arg ∧ (iterate s).tx.mem = s.tx.mem ∧
    (iterate s).tx.txLen = s.tx.txLen ∧ (iterate s).params = s.params ∧
    (iterate s).script = s.script := by
  unfold iterate
  split
  · simp
  · unfold cal1Iteration
    dsimp only
    split <;> simp
  · unfold cal2Iteration
    dsimp only
    split
    · unfold endCalibrate
      split <;> simp
    · simp
  · obtain ⟨now, c, hn⟩ : ∃ now c, nowUs (feed s) = (now, c) := ⟨_, _, rfl⟩
    have kn := nowUs_frame (feed s)
    rw [hn] at kn
    simp at kn
    rcases scanIteration_cases hn with ⟨-, e⟩ | ⟨-, raw, r, hr, h⟩
    · simp [e, endTimeout, kn]
    · have kr := readSample_frame (latchStart now c)
      rw [hr] at kr
      simp at kr
      rcases h with ⟨t, ht, e⟩ | ⟨k, lv, t, ht, e⟩
      all_goals
        have kt := tdStep_frame (pushSample raw r).cond.level now (pushSample raw r)
        rw [ht] at kt
        simp at kt
        simp [e, kt, kr, kn]
  · unfold settleIteration
    dsimp only
    split
    · unfold lockReached
      split <;> simp
    · simp
  · obtain ⟨now, c, hn⟩ : ∃ now c, nowUs (feed s) = (now, c) := ⟨_, _, rfl⟩
    have kn := nowUs_frame (feed s)
    rw [hn] at kn
    simp at kn
    rcases decodeIteration_cases hn with ⟨-, e⟩ | ⟨-, raw, r, hr, h⟩
    · simp [e, kn]
    · have kr := readSample_frame c
      rw [hr] at kr
      simp at kr
      rcases h with ⟨t, ht, e⟩ | ⟨k, lv, t, ht, ⟨u, hu, e⟩ | ⟨skip, u, hu, e⟩⟩
      · have kt := tdStep_frame (pushSample raw r).cond.level now (pushSample raw r)
        rw [ht] at kt
        simp at kt
        simp [e, kt, kr, kn]
      all_goals
        have kt := tdStep_frame (pushSample raw r).cond.level now (pushSample raw r)
        have ku := appendHold_frame k lv t
        rw [ht] at kt
        rw [hu] at ku
        simp at kt ku
        simp [e, kt, kr, kn, ku]
  · unfold txPreIteration
    dsimp only
    split
    · simp
    · unfold preambleSent
      split
      · simp
      · dsimp only
        split <;> simp [endTransmit]
  · unfold txDataIteration
    dsimp only
    split
    · simp
    · split <;> simp [endTransmit]

end Sys2Proof.Laws
end

