-- ==== Sys2Proof/Laws/Memory.lean ====
section
/-! SUPPORT. The laws of the byte memory: read after write, and the canonical form is kept. -/

namespace Sys2Proof.Laws

open Sys2Proof.Machine

@[simp] theorem memRead_nil (a : Nat) : memRead [] a = Memory.unlisted := rfl

/-- An address below every cell reads as unlisted. -/
theorem memRead_of_forall_lt {m : Memory} {a : Nat} (h : ∀ c ∈ m, a < c.1) :
    memRead m a = Memory.unlisted := by
  induction m with
  | nil => rfl
  | cons c m ih =>
    have hc := h c (by simp)
    have := ih (fun d hd => h d (by simp [hd]))
    simp only [memRead]
    rw [if_neg (by omega), this]

/-- Every address of a written memory is the written one or was there before. -/
theorem mem_memWrite {m : Memory} {a : Nat} {b : Byte} {c : Host.Cell} (h : c ∈ memWrite m a b) :
    c = (a, b) ∧ b ≠ Memory.unlisted ∨ c ∈ m := by
  induction m with
  | nil =>
    simp only [memWrite] at h
    split at h
    · cases h
    · exact .inl ⟨by simpa using h, by assumption⟩
  | cons d m ih =>
    simp only [memWrite] at h
    split at h
    · rcases List.mem_cons.1 h with h | h
      · exact .inr (by simp [h])
      · rcases ih h with h | h
        · exact .inl h
        · exact .inr (by simp [h])
    · split at h
      · split at h <;> exact .inr (by first | exact h | simp [h])
      · rcases List.mem_cons.1 h with h | h
        · exact .inl ⟨h, by assumption⟩
        · split at h <;> exact .inr (by first | exact h | simp [h])

/-- A write keeps the canonical form. -/
theorem memWrite_wf {m : Memory} (a : Nat) (b : Byte) (h : Memory.wf m) :
    Memory.wf (memWrite m a b) := by
  refine ⟨?_, fun c hc => ?_⟩
  · obtain ⟨hp, -⟩ := h
    induction m with
    | nil => simp only [memWrite]; split <;> simp
    | cons d m ih =>
      rw [List.pairwise_cons] at hp
      simp only [memWrite]
      split
      · rename_i hlt
        refine List.pairwise_cons.2 ⟨fun c hc => ?_, ih hp.2⟩
        rcases mem_memWrite hc with ⟨rfl, -⟩ | hc
        · exact hlt
        · exact hp.1 c hc
      · have hrest : List.Pairwise (fun c d : Host.Cell => c.1 < d.1)
            (if d.1 = a then m else d :: m) := by
          split
          · exact hp.2
          · exact List.pairwise_cons.2 hp
        have hgt : ∀ c ∈ (if d.1 = a then m else d :: m), a < c.1 := by
          intro c hc
          split at hc
          · rename_i he; have := hp.1 c hc; omega
          · rcases List.mem_cons.1 hc with rfl | hc
            · omega
            · have := hp.1 c hc; omega
        split
        · exact hrest
        · exact List.pairwise_cons.2 ⟨hgt, hrest⟩
  · rcases mem_memWrite hc with ⟨rfl, hb⟩ | hc
    · exact hb
    · exact h.2 c hc

/-- Reading any address of a written memory: the written byte at the written address, the old byte
elsewhere. -/
theorem memRead_memWrite {m : Memory} (h : Memory.wf m) (a a' : Nat) (b : Byte) :
    memRead (memWrite m a b) a' = if a' = a then b else memRead m a' := by
  obtain ⟨hp, -⟩ := h
  induction m with
  | nil =>
    simp only [memWrite]
    split
    · rename_i hb; subst hb; simp
    · by_cases ha : a' = a
      · simp [memRead, ha]
      · simp [memRead, ha, Ne.symm ha]
  | cons d m ih =>
    rw [List.pairwise_cons] at hp
    simp only [memWrite]
    split
    · rename_i hlt
      simp only [memRead, ih hp.2]
      by_cases h1 : d.1 = a'
      · rw [if_pos h1, if_pos h1, if_neg (by omega)]
      · rw [if_neg h1, if_neg h1]
    · have key : a' ≠ a → memRead (if d.1 = a then m else d :: m) a' = memRead (d :: m) a' := by
        intro hne
        split
        · rename_i he; simp only [memRead]; rw [if_neg (by omega)]
        · rfl
      split
      · rename_i hb
        by_cases ha : a' = a
        · subst ha; subst hb
          rw [if_pos rfl]
          apply memRead_of_forall_lt
          intro c hc
          split at hc
          · rename_i he; have := hp.1 c hc; omega
          · rcases List.mem_cons.1 hc with rfl | hc
            · omega
            · have := hp.1 c hc; omega
        · rw [if_neg ha, key ha]
      · by_cases ha : a' = a
        · simp [memRead, ha]
        · rw [if_neg ha, ← key ha]; simp [memRead, Ne.symm ha]

end Sys2Proof.Laws
end

