-- ==== Sys2Proof/Laws/PerInstr.lean ====
section
/-! SUPPORT. What is said of every operation one by one: the encoder puts its opcode byte of 30_encoding
R84 into the low byte of its command word (R81). -/

namespace Sys2Proof.Laws

open Sys2Proof

/-- The low byte of an immediate above an opcode byte is the opcode byte (R81). -/
theorem opcField_append (imm : BitVec 24) (o : BitVec 8) : opcField (imm ++ o) = o := by
  refine BitVec.eq_of_getLsbD_eq fun i hi => ?_
  have h : (imm ++ o : BitVec (24 + 8)).getLsbD i = o.getLsbD i := by
    rw [BitVec.getLsbD_append, if_pos hi]
  simpa [opcField, hi] using h

/-- The other 24 bits are the immediate (R81). -/
theorem immField_append (imm : BitVec 24) (o : BitVec 8) : immField (imm ++ o) = imm := by
  refine BitVec.eq_of_getLsbD_eq fun i hi => ?_
  have h : (imm ++ o : BitVec (24 + 8)).getLsbD (8 + i) = imm.getLsbD i := by
    rw [BitVec.getLsbD_append, if_neg (by omega), Nat.add_sub_cancel_left]
  simpa [immField, hi] using h

/-- The opcode byte of the encoded operation is the operation's (R81, R84). -/
def OpcodeByte.Statement (i : Instr) : Prop := opcField (encodeWord i) = opcodeOf i

theorem OpcodeByte.nop : OpcodeByte.Statement .nop := opcField_append _ _
theorem OpcodeByte.setFreq (f : BitVec 19) : OpcodeByte.Statement (.setFreq f) :=
  opcField_append _ _
theorem OpcodeByte.setThresh : OpcodeByte.Statement .setThresh := opcField_append _ _
theorem OpcodeByte.bufReset : OpcodeByte.Statement .bufReset := opcField_append _ _
theorem OpcodeByte.winReset : OpcodeByte.Statement .winReset := opcField_append _ _
theorem OpcodeByte.winPush (raw : Sample) : OpcodeByte.Statement (.winPush raw) :=
  opcField_append _ _
theorem OpcodeByte.winSelect (k : BitVec 8) : OpcodeByte.Statement (.winSelect k) :=
  opcField_append _ _
theorem OpcodeByte.winMedian : OpcodeByte.Statement .winMedian := opcField_append _ _
theorem OpcodeByte.pushSample (raw : Sample) : OpcodeByte.Statement (.pushSample raw) :=
  opcField_append _ _
theorem OpcodeByte.calibrate : OpcodeByte.Statement .calibrate := opcField_append _ _
theorem OpcodeByte.histClear : OpcodeByte.Statement .histClear := opcField_append _ _
theorem OpcodeByte.histAppend (m2 : BitVec 13) (nd : Bool) : OpcodeByte.Statement (.histAppend m2 nd) :=
  opcField_append _ _
theorem OpcodeByte.histMatch : OpcodeByte.Statement .histMatch := opcField_append _ _
theorem OpcodeByte.synchronize : OpcodeByte.Statement .synchronize := opcField_append _ _
theorem OpcodeByte.hbReset : OpcodeByte.Statement .hbReset := opcField_append _ _
theorem OpcodeByte.hbAppend (m2 : BitVec 13) (nd : Bool) : OpcodeByte.Statement (.hbAppend m2 nd) :=
  opcField_append _ _
theorem OpcodeByte.hbFlush (idle : Bool) : OpcodeByte.Statement (.hbFlush idle) :=
  opcField_append _ _
theorem OpcodeByte.decode : OpcodeByte.Statement .decode := opcField_append _ _
theorem OpcodeByte.receiveFrame : OpcodeByte.Statement .receiveFrame := opcField_append _ _
theorem OpcodeByte.sendBit (b r : Bool) : OpcodeByte.Statement (.sendBit b r) := opcField_append _ _
theorem OpcodeByte.sendPreamble : OpcodeByte.Statement .sendPreamble := opcField_append _ _
theorem OpcodeByte.transmitFrame : OpcodeByte.Statement .transmitFrame := opcField_append _ _

end Sys2Proof.Laws
end

