-- ==== Sys2Proof/Laws/Replay.lean ====
section
/-! SUPPORT. A step's calls, made again one by one, lead to the environment that the step leaves: what a
reset inside a step (70 R312, log 14) cuts is the step's own list of calls. -/

namespace Sys2Proof.Laws

open Sys2Proof Sys2Proof.Machine

/-- What a call leaves of the environment depends on the environment alone. -/
theorem replay_env_congr {s t : State} (e : PortEvent) (h : s.env = t.env) :
    (replay s e).env = (replay t e).env := by
  cases e <;> simp only [replay, record, nowUs, readSample, h] <;> split <;> rfl

theorem replay_foldl_env_congr (l : List PortEvent) {s t : State} (h : s.env = t.env) :
    (l.foldl replay s).env = (l.foldl replay t).env := by
  induction l generalizing s t with
  | nil => exact h
  | cons e l ih => exact ih (replay_env_congr e h)

/-- One call made again is one call more. -/
theorem replay_calls_length (s : State) (e : PortEvent) :
    ∃ x, (replay s e).env.calls = s.env.calls ++ [x] := by
  cases e <;>
    first | exact ⟨_, nowUs_calls s⟩ | exact ⟨_, readSample_calls s⟩ | exact ⟨_, rfl⟩

/-- Calls made again are as many calls more. -/
theorem replay_foldl_calls (l : List PortEvent) (s : State) :
    ∃ m, m.length = l.length ∧ (l.foldl replay s).env.calls = s.env.calls ++ m := by
  induction l generalizing s with
  | nil => exact ⟨[], rfl, by simp⟩
  | cons e l ih =>
    obtain ⟨x, hx⟩ := replay_calls_length s e
    obtain ⟨m, hm, h⟩ := ih (replay s e)
    exact ⟨x :: m, by simp [hm], by rw [List.foldl_cons, h, hx, List.append_assoc]; rfl⟩

/-- Where all the calls of a list are reproduced, so is every beginning of it. -/
theorem replay_take {l : List PortEvent} {s : State}
    (h : (l.foldl replay s).env.calls = s.env.calls ++ l) (n : Nat) :
    ((l.take n).foldl replay s).env.calls = s.env.calls ++ l.take n := by
  obtain ⟨m, hm, e⟩ := replay_foldl_calls (l.take n) s
  obtain ⟨m', -, e'⟩ := replay_foldl_calls (l.drop n) ((l.take n).foldl replay s)
  rw [← List.foldl_append, List.take_append_drop, h, e, List.append_assoc] at e'
  rw [e]
  have := List.append_cancel_left e'
  rw [List.append_inj_left (by rw [List.take_append_drop]; exact this) hm.symm]

/-- `t` is `s` after calls that can be made again, and whatever else leaves the environment alone. -/
def Reproducible (s t : State) : Prop :=
  ∃ l, t.env.calls = s.env.calls ++ l ∧ (l.foldl replay s).env = t.env

namespace Reproducible

/-- No call. -/
theorem of_env {s t : State} (h : t.env = s.env) : Reproducible s t :=
  ⟨[], by rw [h, List.append_nil], h.symm⟩

theorem trans {s t u : State} (h : Reproducible s t) (h' : Reproducible t u) : Reproducible s u := by
  obtain ⟨l, e, f⟩ := h
  obtain ⟨l', e', f'⟩ := h'
  refine ⟨l ++ l', by rw [e', e, List.append_assoc], ?_⟩
  rw [List.foldl_append, ← f']
  exact replay_foldl_env_congr _ f

/-- Calls followed by what leaves the environment alone. -/
theorem then_env {s t u : State} (h : Reproducible s t) (e : u.env = t.env) : Reproducible s u :=
  h.trans (of_env e)

/-- A call whose answer is nothing: one recorded event that the replay records again. -/
theorem of_record {s : State} {e : PortEvent} (h : replay s e = record e s) :
    Reproducible s (record e s) :=
  ⟨[e], rfl, by rw [List.foldl_cons, h]; rfl⟩

theorem of_feed (s : State) : Reproducible s (feed s) := of_record rfl

theorem of_readSample (s : State) : Reproducible s (readSample s).2 :=
  ⟨[.readSample (readSample s).1], readSample_calls s, rfl⟩

theorem of_nowUs (s : State) : Reproducible s (nowUs s).2 :=
  ⟨[.nowUs (nowUs s).1], nowUs_calls s, rfl⟩

theorem of_actuate (b : Bool) (s : State) : Reproducible s (actuate b s) :=
  (of_env (s := s) (t := { s with tx := { s.tx with led := b } }) rfl).trans (of_record (e := .actuate b) rfl)

theorem of_bitCell (b : Bool) (hp : Rat) (s : State) : Reproducible s (bitCell b hp s) :=
  (((of_actuate (!b) s).trans (of_record (e := .wait hp) rfl)).trans (of_actuate b _)).trans
    (of_record (e := .wait hp) rfl)

theorem of_finalize (idle : Bool) (s : State) : Reproducible s (finalize idle s) :=
  ⟨[.emitFrame (finalize idle s).dec.fb], by rw [(finalize_handOver idle s).1],
    (finalize_handOver idle s).1.symm⟩

/-- The line driven low after calls that can be made again. -/
theorem then_endTransmit {s t u : State} (h : Reproducible s t) (e : u.env = t.env) :
    Reproducible s (endTransmit u) :=
  ((h.then_env e).trans (of_actuate false u)).then_env rfl

end Reproducible

open Reproducible

/-- The rule of an operation calls what can be called again. -/
theorem ruleOf_reproducible (i : Instr) (s : State) : Reproducible s (ruleOf i s) := by
  cases i
  case hbFlush idle => exact (of_finalize idle s).then_env rfl
  case sendBit b r => exact (of_bitCell b _ s).then_env rfl
  case setFreq f => refine of_env ?_; simp only [ruleOf, setFreq]; split <;> simp
  case setThresh => refine of_env ?_; simp only [ruleOf, setThresh]; split <;> simp
  case decode => exact of_env (by simp [ruleOf, startDecode])
  all_goals exact of_env (by simp [ruleOf, hostHbAppend, startScan, startCalibrate, startPreamble,
    startTransmit])

/-- An iteration calls what can be called again. -/
theorem iterate_reproducible (s : State) : Reproducible s (iterate s) := by
  have clock := (of_feed s).trans (of_nowUs (feed s))
  unfold iterate
  split
  · exact of_env rfl
  · unfold cal1Iteration
    dsimp only
    split <;> exact (of_readSample s).then_env rfl
  · unfold cal2Iteration
    dsimp only
    split
    · refine (of_readSample s).then_env ?_
      unfold endCalibrate
      split <;> simp
    · exact (of_readSample s).then_env rfl
  · obtain ⟨now, c, hn⟩ : ∃ now c, nowUs (feed s) = (now, c) := ⟨_, _, rfl⟩
    rw [hn] at clock
    have latched : Reproducible s (latchStart now c) := clock.then_env (by simp)
    rcases scanIteration_cases hn with ⟨-, e⟩ | ⟨-, raw, r, hr, h⟩
    · rw [e]; exact latched.then_env (by simp [endTimeout])
    · have sampled := latched.trans (of_readSample _)
      rw [hr] at sampled
      rcases h with ⟨t, ht, e⟩ | ⟨k, lv, t, ht, e⟩
      all_goals
        have kt := tdStep_frame (pushSample raw r).cond.level now (pushSample raw r)
        rw [ht] at kt
        simp at kt
        rw [e]
        exact sampled.then_env (by simp [kt])
  · unfold settleIteration
    dsimp only
    split
    · refine clock.then_env ?_
      unfold lockReached
      split <;> simp
    · exact clock
  · obtain ⟨now, c, hn⟩ : ∃ now c, nowUs (feed s) = (now, c) := ⟨_, _, rfl⟩
    rw [hn] at clock
    rcases decodeIteration_cases hn with ⟨-, e⟩ | ⟨-, raw, r, hr, h⟩
    · rw [e]; exact (clock.trans (of_finalize true c)).then_env rfl
    · have sampled := clock.trans (of_readSample _)
      rw [hr] at sampled
      rcases h with ⟨t, ht, e⟩ | ⟨k, lv, t, ht, ⟨u, hu, e⟩ | ⟨skip, u, hu, e⟩⟩
      all_goals
        have kt := tdStep_frame (pushSample raw r).cond.level now (pushSample raw r)
        rw [ht] at kt
        simp at kt
      · rw [e]; exact sampled.then_env (by simp [kt])
      all_goals
        have ku := appendHold_frame k lv t
        rw [hu] at ku
        simp at ku
        have appended : Reproducible s u := sampled.then_env (by simp [ku, kt])
      · rw [e]; exact (appended.trans (of_finalize false u)).then_env rfl
      · rw [e]; exact appended
  · have cell := (of_feed s).trans
      (of_bitCell (decide (4 ≤ s.tx.bitIdx)) s.params.preambleHalfUs (feed s))
    unfold txPreIteration
    dsimp only
    split
    · exact cell.then_env rfl
    · unfold preambleSent
      split
      · exact cell.then_env rfl
      · dsimp only
        split
        · exact cell.then_endTransmit rfl
        · exact cell.then_env rfl
  · have cell := (of_feed s).trans (of_bitCell (currentBit s) (halfUs s.cfg.freq) (feed s))
    unfold txDataIteration
    dsimp only
    split
    · exact cell.then_env rfl
    · split
      · exact cell.then_endTransmit rfl
      · exact cell.then_env rfl

/-- A command word calls what can be called again. -/
theorem issueWord_reproducible {w : CmdWord} {s t : State} (h : issueWord w s = .next t) :
    Reproducible s t := by
  unfold issueWord at h
  split at h
  · rename_i i _
    rcases exec_cases h with ⟨-, rfl⟩ | ⟨-, e, -, rfl⟩ | ⟨-, -, rfl⟩
    · exact of_env rfl
    · exact of_env (by simp)
    · exact (of_env (s := s) (t := admission (keepsLock i) s) rfl).trans (ruleOf_reproducible i _)
  · cases h
    refine of_env ?_
    unfold illegalCommand
    split <;> simp

/-- The step that a reset cuts short calls what can be called again. -/
theorem issueOrIterate_reproducible {c : Option HostWord} {s t : State}
    (h : issueOrIterate c s = .next t) : Reproducible s t := by
  unfold issueOrIterate at h
  split at h
  · exact issueWord_reproducible h
  · cases h; exact iterate_reproducible s

end Sys2Proof.Laws
end

