-- ==== Sys2Proof/Laws/Run.lean ====
section
/-! SUPPORT. Runs of many steps: what one step of a run is when no host action is pending, and how runs
compose. -/

namespace Sys2Proof.Laws

open Sys2Proof Sys2Proof.Machine

/-- `runSteps` is the run of the machine that the host takes. -/
theorem runSteps_eq_core_run (n : Nat) (s : State) :
    runSteps n s = Host.Core.run Sys2Proof.core n s := by
  induction n generalizing s with
  | zero => rfl
  | succ n ih =>
    have e := Host.Core.run.eq_2 Sys2Proof.core s n
    rw [runSteps]
    cases h : step s with
    | next t =>
      have h' : Sys2Proof.core.step s = .next t := h
      rw [h'] at e
      exact (ih t).trans e.symm
    | fault r =>
      have h' : Sys2Proof.core.step s = .fault r := h
      rw [h'] at e
      exact e.symm
    | refused r =>
      have h' : Sys2Proof.core.step s = .refused r := h
      rw [h'] at e
      exact e.symm

@[simp] theorem runSteps_zero (s : State) : runSteps 0 s = .next s := rfl

/-- With no host action pending, the first step of a run is one iteration. -/
theorem runSteps_succ (n : Nat) {s : State} (h : s.script = []) :
    runSteps (n + 1) s = runSteps n (iterate s) := by
  have e : step s = .next (iterate s) := by unfold step advance; rw [h]
  rw [runSteps, e]

/-- A run of `m + n` steps is a run of `n` steps after a run of `m`. -/
theorem runSteps_add {m : Nat} (n : Nat) {s t : State} (h : runSteps m s = .next t) :
    runSteps (m + n) s = runSteps n t := by
  induction m generalizing s with
  | zero => cases h; rw [Nat.zero_add]
  | succ m ih =>
    rw [Nat.add_right_comm, runSteps]
    rw [runSteps] at h
    split at h
    · exact ih h
    · cases h
    · cases h

end Sys2Proof.Laws
end

