-- ==== Sys2Proof/Tests/Slice0.lean ====
section
/-! SUPPORT. The model's own tests: well-formedness, one word of every operation written out from the
tables of 30_encoding R81 to R84, one or two single steps of every operation with the results of
95_test_vectors, and a witness for the hypotheses of every statement. -/

namespace Sys2Proof.Tests

open Sys2Proof Sys2Proof.Machine Sys2Proof.Config

/-! ### Small states -/

/-- The state an outcome goes on with. -/
def after (o : Host.Outcome State Fault Refusal) : State :=
  match o with
  | .next t => t
  | .fault _ => State.reset
  | .refused _ => State.reset

/-- A block with a window of `n` slots, after reset. -/
def withWindow (n : Nat) : State := State.resetOf { defaultParams with windowN := n } Env.start []

/-- A free block at 10 bits a second. -/
def ready : State := { State.reset with cfg := { State.reset.cfg with freq := 10 } }

/-- `s` with a queue of samples and a queue of clock words. -/
def fed (samples : List Sample) (clock : List HostWord) (s : State) : State :=
  { s with env := { s.env with samples := samples, clock := clock } }

/-- `s` in a phase of the operation `op`. -/
def inPhase (op : BitVec 8) (p : Phase) (s : State) : State :=
  { s with seq := { s.seq with op := op, phase := p }, ctl := { s.ctl with busy := true } }

/-- `s` with one command word waiting. -/
def issuing (w : HostWord) (s : State) : State := { s with script := [.write 0x000 w] }

/-- The low level 25/64 and the high level 75/64 of 95 section 1. -/
def lo : Level := .ratio (mkRat 25 64)
def high : Level := .ratio (mkRat 75 64)

/-- A level per symbol. -/
def levels (l : List Bool) : List Level := l.map (fun b => if b then high else lo)

/-- A history whose newest slots hold the symbols `l`. -/
def historyOf (l : List Bool) : List HistSlot :=
  List.replicate (16 - l.length) none ++ (levels l).map some

/-- `s` with half-bits and bytes in the decoder. -/
def decoding (hb : List Level) (fb : List Byte) (s : State) : State :=
  { s with dec := { s.dec with hb := hb, fb := fb } }

/-! ### Well-formedness -/

theorem test_histAppend_nodata_has_one_spelling :
    ¬ (Instr.histAppend 1 true).WellFormed ∧ (Instr.histAppend 0 true).WellFormed := by decide

theorem test_hbAppend_nodata_has_one_spelling :
    ¬ (Instr.hbAppend 4800 true).WellFormed ∧ (Instr.hbAppend 4800 false).WellFormed := by decide

/-! ### One word of every operation -/

theorem test_decode_control :
    decodeWord 0x00000000 = .ok .nop ∧ decodeWord 0x00000A01 = .ok (.setFreq 10) ∧
    decodeWord 0x00000002 = .ok .setThresh ∧ decodeWord 0x00000003 = .ok .bufReset := by decide

theorem test_decode_window :
    decodeWord 0x00000010 = .ok .winReset ∧ decodeWord 0x00FFF011 = .ok (.winPush 4080) ∧
    decodeWord 0x00000312 = .ok (.winSelect 3) ∧ decodeWord 0x00000013 = .ok .winMedian ∧
    decodeWord 0x00080020 = .ok (.pushSample 2048) := by decide

theorem test_decode_synchronizer :
    decodeWord 0x00000021 = .ok .calibrate ∧ decodeWord 0x00000030 = .ok .histClear ∧
    decodeWord 0x0012C031 = .ok (.histAppend 4800 false) ∧
    decodeWord 0x00200031 = .ok (.histAppend 0 true) ∧
    decodeWord 0x00000032 = .ok .histMatch ∧ decodeWord 0x00000033 = .ok .synchronize := by decide

theorem test_decode_decoder :
    decodeWord 0x00000040 = .ok .hbReset ∧ decodeWord 0x00064041 = .ok (.hbAppend 1600 false) ∧
    decodeWord 0x00000142 = .ok (.hbFlush true) ∧ decodeWord 0x00000043 = .ok .decode ∧
    decodeWord 0x00000044 = .ok .receiveFrame := by decide

theorem test_decode_encoder :
    decodeWord 0x00000150 = .ok (.sendBit true false) ∧
    decodeWord 0x00000250 = .ok (.sendBit false true) ∧
    decodeWord 0x00000051 = .ok .sendPreamble ∧ decodeWord 0x00000052 = .ok .transmitFrame := by
  decide

/-- The edges of the illegal ranges (R85). -/
theorem test_illegal_opcodes_are_refused_by_name :
    ([0x04, 0x0F, 0x14, 0x1F, 0x22, 0x2F, 0x34, 0x3F, 0x45, 0x4F, 0x53, 0xFF] : List CmdWord).map
      decodeWord = ([0x04, 0x0F, 0x14, 0x1F, 0x22, 0x2F, 0x34, 0x3F, 0x45, 0x4F, 0x53, 0xFF] :
        List (BitVec 8)).map (fun o => .error (.illegalOpcode o)) := by decide

/-! ### Single steps of the operations -/

theorem test_nop_keeps_the_lock :
    (after (exec .nop { ready with ctl := { ready.ctl with locked := true } })).ctl =
      { ready.ctl with locked := true, done := true } := by decide

theorem test_setFreq_boundaries :
    (after (exec (.setFreq 500000) State.reset)).cfg.freq = 500000 ∧
    (after (exec (.setFreq 500001) ready)).cfg.freq = 10 ∧
    (after (exec (.setFreq 500001) ready)).ctl.code = .badConfig := by decide

/-- V-T1. -/
theorem test_setThresh_boundaries :
    let at_ (n d : Nat) : State :=
      after (exec .setThresh { ready with arg := { ready.arg with arg0 := n, arg1 := d } })
    (at_ 8189 2).cfg.thrNum = 8189 ∧ (at_ 8189 2).cfg.thrDen = 2 ∧
    (at_ 8190 2).ctl.code = .badConfig ∧ (at_ 8190 2).cfg.thrNum = 2048 ∧
    (at_ 5 0).ctl.code = .badConfig ∧ (at_ 0 1).ctl.code = .badConfig := by decide

theorem test_bufReset_clears_the_carry :
    (after (exec .bufReset { ready with dec := { ready.dec with carry := some lo } })).dec.carry =
      none := by decide

/-- V-U1, row 15. -/
theorem test_winReset_keeps_the_median :
    let s := { withWindow 4 with win := [some 2400, some 2390, some 810, some 4095],
                                 cond := { median2 := 4790, level := high, nodata := false,
                                           high := true } }
    (after (exec .winReset s)).win = [none, none, none, none] ∧
    (after (exec .winReset s)).cond.median2 = 4790 := by decide

/-- V-U1, row 10. -/
theorem test_winPush_evicts_the_oldest :
    (after (exec (.winPush 4095) { withWindow 4 with
      win := [some 800, some 2400, some 2390, some 810] })).win =
      [some 2400, some 2390, some 810, some 4095] := by decide

/-- V-U1, rows 12 to 14. -/
theorem test_winSelect_order_statistics :
    let s := { withWindow 4 with win := [some 2400, some 2390, some 810, some 4095] }
    (after (exec (.winSelect 0) s)).arg.selectOut = some 810 ∧
    (after (exec (.winSelect 3) s)).arg.selectOut = some 4095 ∧
    (after (exec (.winSelect 4) s)).arg.selectOut = none := by decide

/-- V-U1, row 7: an odd count of valid entries. -/
theorem test_winMedian_odd :
    (after (exec .winMedian { withWindow 4 with
      win := [none, some 800, some 2400, some 2390] })).cond =
      { median2 := 4780, level := .ratio (mkRat 1195 1024), nodata := false, high := true } := by
  decide

/-- V-U1, row 11: an even count. -/
theorem test_winMedian_even :
    (after (exec .winMedian { withWindow 4 with
      win := [some 2400, some 2390, some 810, some 4095] })).cond.median2 = 4790 := by decide

/-- V-U3. -/
theorem test_pushSample_at_the_threshold :
    (after (exec (.pushSample 2048) (withWindow 1))).cond.high = true ∧
    (after (exec (.pushSample 2047) (withWindow 1))).cond.high = false ∧
    (after (exec (.pushSample 2047) (withWindow 1))).cond.median2 = 4094 := by decide

/-- 95 section 3.2: `STATUS` after the acceptance of `CALIBRATE`. -/
theorem test_calibrate_starts :
    hostRead 0x001 (after (exec .calibrate State.reset)) = 0x111 := by decide

/-- The last sample of V-C4. -/
theorem test_calibrate_ends :
    let s := inPhase 0x21 .cal2 (fed [2400] [] State.reset)
    let t := after (step { s with cal := { s.cal with
      cnt := 1, mid2 := 3200, loSum := 1601, loCnt := 2 } })
    t.cal.calNum = 6401 ∧ t.cal.calDen = 4 ∧ t.cal.calValid = true ∧ t.ctl.busy = false := by
  decide

theorem test_histClear_empties :
    (after (exec .histClear { ready with hist := historyOf [true, true] })).hist =
      List.replicate 16 none := by decide

theorem test_histAppend_high :
    (after (exec (.histAppend 4800 false) ready)).hist = historyOf [true] ∧
    (after (exec (.histAppend 0 true) ready)).hist =
      List.replicate 15 none ++ [some .noData] := by decide

/-- V-H1 with `k = 10`. -/
theorem test_histMatch_suffix :
    let h := historyOf [true, false, false, true, false, true, false, true, false, true]
    (after (exec .histMatch { ready with hist := h })).ctl.matched = true := by decide

/-- V-H2. -/
theorem test_histMatch_too_short :
    let h := historyOf [false, false, true, false, true, false, true, false, true]
    (after (exec .histMatch { ready with hist := h })).ctl.matched = false := by decide

theorem test_synchronize_needs_the_bit_rate :
    (after (exec .synchronize State.reset)).ctl.code = .badConfig ∧
    (after (exec .synchronize ready)).seq.phase = .scan ∧
    (after (exec .synchronize ready)).seq.op = 0x33 := by decide

/-- The match on the first slot of a doubled hold keeps the second as the carry (43 R177). -/
theorem test_scan_keeps_the_carry :
    let h := historyOf [false, true, false, false, true, false, true, false, true, false]
    let s := { ready with hist := h }
    (scanHold 2 high 875000 s).dec.carry = some high ∧
    (scanHold 2 high 875000 s).seq.phase = .settle ∧
    (scanHold 1 high 825000 s).dec.carry = none := by decide

/-- V-TD2. -/
theorem test_tdStep_single_and_double :
    let s := { ready with det := { cur := some (mkRat 25 64), tLast := 0, deb := 6 } }
    (tdStep high 75000 s).1 = some (1, lo) ∧ (tdStep high 75001 s).1 = some (2, lo) := by decide

theorem test_hbReset_keeps_the_carry :
    (after (exec .hbReset { ready with dec := { ready.dec with hb := [lo], carry := some lo } })).dec =
      { ready.dec with carry := some lo } := by decide

/-- V-D1: the sixteenth half-bit of 0xA5. -/
theorem test_hbAppend_closes_a_byte :
    (after (exec (.hbAppend 4800 false) (decoding (levels
      [false, true, true, false, false, true, true, false, true, false, false, true, true, false,
       false]) [] ready))).dec.fb = [0xA5] := by decide

/-- V-D3: the third pair is ambiguous. -/
theorem test_hbAppend_marks_a_byte :
    let t := after (exec (.hbAppend 4800 false) (decoding (levels
      [false, true, true, false, true, true, true, false, true, false, false, true, true, false,
       false]) [] ready))
    t.dec.fb = [0x20] ∧ t.dec.ambigCount = 1 ∧ t.ctl.code = .ambiguousBit := by decide

/-- V-D6: a frame of five half-bits. -/
theorem test_hbFlush_partial_byte :
    let t := after (exec (.hbFlush false) (decoding (levels [false, true, true, false, true]) []
      ready))
    t.env.calls = [.emitFrame [0x80]] ∧ t.dec.partialByte = true ∧ t.ctl.code = .ok := by decide

/-- 10 R43: the length of `RESULT` is the emitted frame's; a byte that was not handed over does not show, and
`HB_RESET` and the start of a scan keep the length. 44 R223: it is 0 after a `SyncTimeout`. -/
theorem test_result_shows_the_last_frame :
    let flushed := after (exec (.hbFlush false) (decoding [] [0x41, 0x42] ready))
    hostRead 0x002 (decoding [] [0x41, 0x42] ready) = 0 ∧
    hostRead 0x002 flushed = 0x200000000 ∧
    hostRead 0x002 (after (exec .hbReset flushed)) = 0x200000000 ∧
    hostRead 0x002 (after (exec .synchronize flushed)) = 0x200000000 ∧
    hostRead 0x002 (after (step (fed [] [2000000] (inPhase 0x44 .scan flushed)))) = 2 := by decide

/-- A second flush closes the partial byte again, so R44 (d) is no invariant (log 13). -/
theorem test_second_hbFlush_breaks_the_frame_bound :
    let once := after (exec (.hbFlush false) (decoding [lo] [] ready))
    let twice := after (exec (.hbFlush false) once)
    fbLen once ≤ hbLen once / 16 + 1 ∧ ¬ fbLen twice ≤ hbLen twice / 16 + 1 := by decide

theorem test_decode_starts_from_the_carry :
    let s := { ready with ctl := { ready.ctl with locked := true },
                          dec := { ready.dec with carry := some high } }
    (after (exec .decode s)).dec.hb = [high] ∧ (after (exec .decode s)).seq.phase = .decode ∧
    (after (exec .decode ready)).ctl.code = .notLocked := by decide

/-- V-RX7: the idle test is strict. -/
theorem test_decode_idle_is_strict :
    let s := inPhase 0x43 .decode ready
    (after (step (fed [800] [1000000] s))).seq.phase = .decode ∧
    (after (step (fed [800] [1000001] s))).seq.phase = .idle := by decide

theorem test_receiveFrame_starts :
    (after (exec .receiveFrame ready)).seq.op = 0x44 ∧
    (after (exec .receiveFrame ready)).seq.first = true := by decide

/-- V-E1. -/
theorem test_sendBit_cell :
    (after (exec (.sendBit true false) ready)).env.calls =
      [.actuate false, .wait 50000, .actuate true, .wait 50000] := by decide

/-- 45 R241: the fifth preamble bit is a 1. -/
theorem test_sendPreamble_fifth_bit :
    let s := inPhase 0x51 .txPre ready
    (after (step { s with tx := { s.tx with bitIdx := 4 } })).tx.led = true ∧
    (after (step { s with tx := { s.tx with bitIdx := 3 } })).tx.led = false := by decide

/-- 45 R242, R243: the last bit of the only byte, then the line low. -/
theorem test_transmitFrame_last_bit :
    let s := inPhase 0x52 .txData ready
    let t := after (step { s with tx := { led := false, txLen := 1, txIdx := 0, bitIdx := 0,
                                          mem := [(0, 0xA5)] } })
    t.env.calls = [.feed, .actuate false, .wait 50000, .actuate true, .wait 50000,
      .actuate false] ∧ t.seq.phase = .idle := by decide

/-- 70 R312: a reset in the middle of the first cell of a preamble, and of a `SEND_BIT`. -/
theorem test_reset_in_a_cell :
    let cut := fun (c : Option HostWord) (n : Nat) (s : State) =>
      after (step { s with script := [.rstInside c n] })
    let sending := inPhase 0x51 .txPre { ready with tx := { ready.tx with bitIdx := 0 } }
    (cut none 3 sending).env.calls = [.feed, .actuate true, .wait 50000] ∧
    (cut none 3 sending).tx.led = false ∧ (cut none 3 sending).seq.phase = .idle ∧
    (cut (some 0x50) 1 ready).env.calls = [.actuate true] ∧
    (cut (some 0x50) 1 ready).cfg.freq = 0 := by decide

/-! ### Witnesses: states and operands that meet the hypotheses of the statements -/

theorem witness_defaultParams_legal : defaultParams.Legal := by
  constructor <;> decide

theorem witness_ready_sound : ready.Sound where
  params := witness_defaultParams_legal
  threshold := by decide
  history := ⟨by decide, 16, [], by decide⟩
  capacity := by decide
  debounce := by decide
  busy := by decide
  window := ⟨by decide, 11, [], by decide⟩

theorem witness_ready_calibrationSound : ready.CalibrationSound := by
  constructor <;> decide

theorem witness_ready_inRange : ready.InRange where
  freq := by decide
  threshold := by decide
  args := by decide
  median := by decide
  nodata := by decide
  high := ⟨fun h => absurd h (by decide), fun ⟨_, h, _⟩ => absurd h (by intro e; cases e)⟩
  ambig := by decide
  frame := by decide
  transmit := by decide
  times := by unfold InInt64; decide

theorem witness_ready_txCanonical : ready.TxCanonical := by
  unfold State.TxCanonical; decide

theorem witness_ready_sequencerSound : ready.SequencerSound := by
  constructor <;> decide

/-- `ready` with a `SYNCHRONIZE` waiting meets the invariants and has a next state. -/
theorem witness_EveryStepKeeps :
    (issuing 0x33 ready).Sound ∧ (issuing 0x33 ready).CalibrationSound ∧
    (issuing 0x33 ready).InRange ∧ (issuing 0x33 ready).TxCanonical ∧
    (issuing 0x33 ready).SequencerSound ∧
    ∃ t, step (issuing 0x33 ready) = .next t ∧ t.seq.phase = .scan :=
  ⟨⟨witness_ready_sound.params, witness_ready_sound.threshold, witness_ready_sound.history,
      witness_ready_sound.capacity, witness_ready_sound.debounce, witness_ready_sound.busy,
      witness_ready_sound.window⟩,
    ⟨witness_ready_calibrationSound.scans, witness_ready_calibrationSound.counts,
      witness_ready_calibrationSound.extremes, witness_ready_calibrationSound.sums,
      witness_ready_calibrationSound.result, witness_ready_calibrationSound.legal,
      witness_ready_calibrationSound.scan1, witness_ready_calibrationSound.scan2⟩,
    ⟨witness_ready_inRange.freq, witness_ready_inRange.threshold, witness_ready_inRange.args,
      witness_ready_inRange.median, witness_ready_inRange.nodata, witness_ready_inRange.high,
      witness_ready_inRange.ambig, witness_ready_inRange.frame, witness_ready_inRange.transmit,
      witness_ready_inRange.times⟩,
    witness_ready_txCanonical,
    ⟨by decide, by decide, by decide, by decide, by decide, by decide, by decide, by decide⟩,
    ⟨_, rfl, by decide⟩⟩

/-- A partial frame about to be flushed for the first time meets the premises of R44 (d). -/
theorem witness_EveryStepKeepsSound_frameBound :
    let s := issuing 0x42 (decoding [lo] [] ready)
    s.FrameBound ∧ ∃ t, step s = .next t ∧ t.dec.partialByte = true ∧ s.dec.partialByte = false :=
  ⟨⟨by decide, by decide⟩, _, rfl, by decide, by decide⟩

theorem witness_DecodeInvertsEncode :
    (Instr.histAppend 0 true).WellFormed ∧ (Instr.hbAppend 8191 false).WellFormed ∧
    (Instr.setFreq 0x7FFFF).WellFormed ∧ (Instr.sendBit true true).WellFormed := by decide

/-- V-U2: two words of `WIN_PUSH 4080`, and a word with a no-data operand. -/
theorem witness_UnusedImmediateBitsAreIgnored :
    let w : CmdWord := 0x00FFF011
    let w' : CmdWord := 0x000FF011
    opcField w = opcField w' ∧
    immField w &&& usedImmMask (opcField w) = immField w' &&& usedImmMask (opcField w') ∧
    decodeWord 0x00201F31 = .ok (.histAppend 0 true) ∧
    opcField 0x00201F41 = 0x41 ∧ (0x00201F41 : CmdWord).getLsbD 21 = true ∧
    opcField 0x001FFF41 = 0x41 ∧ (0x001FFF41 : CmdWord).getLsbD 21 = false := by decide

/-- A free block, and a word at each edge of the legal opcodes. -/
theorem witness_IllegalOpcodesChangeCodeAndDoneOnly :
    ready.ctl.busy = false ∧
    ([0x03, 0x10, 0x13, 0x20, 0x21, 0x30, 0x33, 0x40, 0x44, 0x50, 0x52] : List CmdWord).all
      (fun w => (decodeWord w).toOption.isSome) = true ∧
    ([0x04, 0x0F, 0x14, 0x1F, 0x22, 0x2F, 0x34, 0x3F, 0x45, 0x4F, 0x53, 0xFF] : List CmdWord).all
      (fun w => (decodeWord w).toOption.isNone) = true := by decide

theorem witness_StepRunsTheIssuedCommand :
    (issuing 0xA01 ready).script = [.write 0x000 0xA01] ∧
    decodeWord ((0xA01 : HostWord).setWidth 32) = .ok (.setFreq 10) ∧
    decodeTableWord 32 0xA01 = some (.setFreq 10) ∧ decodeTableWord 8 0xA01 = some (.setFreq 0) := by
  decide

theorem witness_StepRunsOneIteration :
    (inPhase 0x33 .scan ready).script = [] ∧
    ({ ready with script := [.tick] } : State).script = [.tick] ∧ ready.seq.phase = .idle := by
  decide

theorem witness_BusyBlockDropsCommands : (inPhase 0x33 .scan ready).ctl.busy = true := by decide

/-- A busy block that the host writes a command to, and one that goes on. -/
theorem witness_ConfigurationFixedWhileBusy :
    let s := inPhase 0x51 .txPre ready
    (issuing 0x101 s).ctl.busy = true ∧ ¬ (issuing 0x101 s).Resets ∧
    (∃ t, step (issuing 0x101 s) = .next t) ∧
    s.ctl.busy = true ∧ ¬ s.Resets ∧ ∃ t, step s = .next t :=
  ⟨rfl, fun ⟨_, h⟩ => h.elim (by intro e; cases e) (by rintro ⟨_, _, e⟩; cases e), ⟨_, rfl⟩, rfl,
    fun ⟨_, h⟩ => h.elim (by intro e; cases e) (by rintro ⟨_, _, e⟩; cases e), ⟨_, rfl⟩⟩

theorem witness_PreconditionsAreChecked :
    State.reset.ctl.busy = false ∧ State.reset.cfg.freq = 0 ∧
    ready.ctl.busy = false ∧ ready.cfg.freq ≠ 0 ∧ ready.ctl.locked = false := by decide

theorem witness_NopAloneKeepsTheLock :
    ready.ctl.busy = false ∧ (Instr.winMedian ≠ .nop) := by decide

/-- A step that changes `FREQ`, at the largest legal frequency. -/
theorem witness_SetFreqInstallsTheBitRate :
    ready.ctl.busy = false ∧
    ∃ t, step (issuing 0x07A12001 ready) = .next t ∧ t.cfg.freq = 500000 ∧
      t.cfg.freq ≠ ready.cfg.freq :=
  ⟨rfl, _, rfl, by decide, by decide⟩

/-- A step that changes `THR`, just below `ADC_MAX`. -/
theorem witness_SetThreshInstallsTheThreshold :
    let s := { issuing 0x02 ready with arg := { ready.arg with arg0 := 8189, arg1 := 2 } }
    s.ctl.busy = false ∧ ∃ t, step s = .next t ∧
      (t.cfg.thrNum, t.cfg.thrDen) ≠ (s.cfg.thrNum, s.cfg.thrDen) :=
  ⟨rfl, _, rfl, by decide⟩

/-- A free block: the hypothesis of `BufResetFreshensTheReceivePath`, `BufferResetsEmptyTheirBuffers`,
`WinSelectAnswersTheOrderStatistic`, `PushSampleIsPushThenMedian`, `CalibrateStarts` and
`TransmissionStarts`. -/
theorem witness_free_block : ready.ctl.busy = false ∧ ready.cfg.freq ≠ 0 := by decide

/-- The smallest and the largest window. -/
theorem witness_WinPushShiftsTheWindow :
    ((withWindow 1).ctl.busy = false ∧ (withWindow 1).win.length = (withWindow 1).params.windowN ∧
      1 ≤ (withWindow 1).params.windowN) ∧
    ((withWindow 100).ctl.busy = false ∧
      (withWindow 100).win.length = (withWindow 100).params.windowN ∧
      1 ≤ (withWindow 100).params.windowN) :=
  ⟨by decide, rfl, List.length_replicate, by decide⟩

/-- An empty window; a window with one entry, with two and with three. -/
theorem witness_WinMedianEstimatesTheLevel :
    (∀ x ∈ (withWindow 4).win, x = none) ∧
    (([800] : List Nat) ≠ [] ∧ ([800] : List Nat).Pairwise (· ≤ ·) ∧
      ([800] : List Nat).Perm (([none, some (800 : Sample)]).filterMap
        (fun x => x.map BitVec.toNat))) ∧
    (([800, 2400] : List Nat).Pairwise (· ≤ ·) ∧
      ([800, 2400] : List Nat).Perm (([none, some (2400 : Sample), some 800]).filterMap
        (fun x => x.map BitVec.toNat))) ∧
    (([800, 800, 2400] : List Nat).Pairwise (· ≤ ·) ∧
      ([800, 800, 2400] : List Nat).Perm (([some (800 : Sample), some 2400, some 800]).filterMap
        (fun x => x.map BitVec.toNat))) :=
  ⟨fun _ h => List.eq_of_mem_replicate h, ⟨by decide, by decide, List.Perm.refl _⟩, ⟨by decide, List.Perm.swap 2400 800 []⟩,
    by decide, .cons 800 (List.Perm.swap 2400 800 [])⟩

/-- A window of two values: the high one ahead, the low one ahead, a tie. -/
theorem witness_MedianFollowsTheMajority :
    let lo : Sample := 800
    let hi : Sample := 2400
    lo.toNat < hi.toNat ∧
    ([[none, some lo, some hi, some hi], [some hi], [some lo, some lo, some hi],
      [none, some hi, some lo]] : List (List Slot)).all (fun w =>
        w.all (fun x => x = none ∨ x = some lo ∨ x = some hi) ∧
        0 < w.count (some lo) + w.count (some hi)) = true := by decide

/-- V-C1, and V-C7 with a first scan of one sample and an empty group. -/
theorem witness_CalibrateComputesTheThreshold :
    let s (l : List Sample) (a b : Nat) : State :=
      { fed l [] ready with arg := { ready.arg with calScan1 := a, calScan2 := b } }
    let first : List Sample := [800, 2400, 800, 2400]
    let second : List Sample := [800, 2400, 800, 2400, 800, 2400]
    ((s (first ++ second) 4 6).ctl.busy = false ∧ (s (first ++ second) 4 6).script = [] ∧
      first ≠ [] ∧ second ≠ [] ∧ first.length = (s (first ++ second) 4 6).arg.calScan1 ∧
      second.length = (s (first ++ second) 4 6).arg.calScan2 ∧
      (s (first ++ second) 4 6).env.samples = first ++ second ++ []) ∧
    ((s [800, 800, 2400] 1 2).arg.calScan1 = ([800] : List Sample).length ∧
      (s [800, 800, 2400] 1 2).arg.calScan2 = ([800, 2400] : List Sample).length ∧
      (s [800, 800, 2400] 1 2).env.samples = [800] ++ [800, 2400] ++ []) := by decide

theorem witness_HistAppendShiftsTheHistory :
    ready.ctl.busy = false ∧ ready.hist.length = 16 := by decide

theorem witness_HistMatchTestsTheSuffix :
    ({ ready with hist := historyOf (preamblePattern) } : State).hist.length = 16 ∧
    ({ ready with hist := historyOf (preamblePattern) } : State).ctl.busy = false := by decide

/-- The last nine symbols of the pattern (V-H2), and the ten symbols that end with `P[9]` and with
`P[14]` (V-H3). -/
theorem witness_PartialPreambleDoesNotMatch :
    (TrailingBlock (historyOf (preamblePattern.drop 7)) ∧
      (historyOf (preamblePattern.drop 7)).countP Option.isSome < 10) ∧
    ∀ m, m = 10 ∨ m = 15 → ∀ k, k < 10 → ∃ q : Rat,
      (historyOf ((preamblePattern.drop (m - 10)).take 10))[6 + k]? = some (some (.ratio q)) ∧
      (1 ≤ q ↔ preamblePattern[m - 10 + k]? = some true) := by
  refine ⟨⟨⟨7, levels (preamblePattern.drop 7), by decide⟩, by decide⟩, ?_⟩
  have key : ∀ m, m = 10 ∨ m = 15 → ∀ k, k < 10 →
      (historyOf ((preamblePattern.drop (m - 10)).take 10))[6 + k]? =
        some (some (.ratio (if preamblePattern[m - 10 + k]? = some true then mkRat 75 64
          else mkRat 25 64))) := by
    rintro m (rfl | rfl) <;> decide
  intro m hm k hk
  refine ⟨_, key m hm k hk, ?_⟩
  split
  · rename_i h; exact ⟨fun _ => h, fun _ => by decide⟩
  · rename_i h; exact ⟨fun h' => absurd h' (by decide), fun h' => absurd h' h⟩

theorem witness_ScanStartsFresh :
    ready.ctl.busy = false ∧ ready.cfg.freq ≠ 0 ∧
    ((Instr.synchronize = .synchronize ∧ (0x33 : BitVec 8) = 0x33) ∧
      (Instr.receiveFrame = .receiveFrame ∧ (0x44 : BitVec 8) = 0x44)) := by decide

/-- A scan exactly at its timeout, after its first iteration and (with no window) in it. -/
theorem witness_ScanTimesOut :
    let s := fed [] [2000000] (inPhase 0x33 .scan ready)
    (s.script = [] ∧ s.seq.phase = .scan ∧ s.env.clock = (2000000 : HostWord) :: [] ∧
      s.env.lastNow ≤ (2000000 : HostWord).toInt ∧ s.seq.first = false ∧
      (s.params.syncTimeoutUs : Int) ≤ (2000000 : HostWord).toInt - s.seq.tStart) ∧
    let u := { s with seq := { s.seq with first := true },
                      params := { s.params with syncTimeoutUs := 0 } }
    (u.script = [] ∧ u.seq.phase = .scan ∧ u.seq.first = true ∧
      (u.params.syncTimeoutUs : Int) ≤
        (2000000 : HostWord).toInt - (2000000 : HostWord).toInt) := by decide

/-- A scan with a window of one slot, at the sixth push of a high line since the transition at 0 to the
low level; the clock answers `w` and the line is now `raw`. -/
def scanningAt (raw : Sample) (w : HostWord) (history : List Bool) : State :=
  let s := inPhase 0x33 .scan (fed [raw] [w] ready)
  { s with params := { s.params with windowN := 1 }, win := [some 2400], hist := historyOf history,
           det := { cur := some (mkRat 75 64), tLast := 0, deb := 5 } }

/-- What the detector answers to the sample of `scanningAt`. -/
def askedAt (raw : Sample) (w : HostWord) (history : List Bool) : Option (Nat × Level) :=
  let p := pushSample raw (scanningAt raw w history)
  (tdStep p.cond.level w.toInt p).1

/-- The ten newest slots of the pattern agree; slots whose newest symbol is low do not. -/
theorem witness_SuffixAgrees :
    SuffixAgrees ((historyOf (preamblePattern.take 15)).drop 1 ++ [some high]) ∧
    ¬ SuffixAgrees (historyOf [false]) ∧
    ¬ SuffixAgrees ((historyOf [false]).drop 1 ++ [some lo]) := by
  refine ⟨?_, ?_, ?_⟩
  · have key : ∀ i, i < 16 → 6 ≤ i →
        ((historyOf (preamblePattern.take 15)).drop 1 ++ [some high])[i]? =
          some (some (.ratio (if preamblePattern[i]? = some true then mkRat 75 64
            else mkRat 25 64))) := by decide
    intro i h6 h16
    refine ⟨_, key i h16 h6, ?_⟩
    split
    · rename_i h; exact ⟨fun _ => h, fun _ => by decide⟩
    · rename_i h; exact ⟨fun h' => absurd h' (by decide), fun h' => absurd h' h⟩
  · intro h
    obtain ⟨q, e, -⟩ := h 6 (by decide) (by decide)
    revert e; simp [historyOf, levels]
  · intro h
    obtain ⟨q, e, -⟩ := h 6 (by decide) (by decide)
    revert e; simp [historyOf, levels]

/-- The scan one microsecond before its timeout: no hold ended; and a single and a doubled high hold, at
the edge between them (75 000 microseconds at 10 bits a second). -/
theorem witness_ScanTimesOut_runs :
    (∀ w raw, w = 75000 ∨ w = 75001 ∨ w = 1999999 → raw = 800 ∨ raw = 2400 →
      let s := scanningAt raw w (preamblePattern.take 15)
      s.script = [] ∧ s.seq.phase = .scan ∧ s.env.clock = [w] ∧ s.env.lastNow ≤ w.toInt ∧
      w.toInt - (if s.seq.first then w.toInt else s.seq.tStart) < s.params.syncTimeoutUs ∧
      s.hist.length = 16 ∧ s.env.samples = raw :: []) ∧
    askedAt 2400 1999999 [] = none ∧
    askedAt 800 75000 (preamblePattern.take 15) = some (1, high) ∧
    askedAt 800 75001 (preamblePattern.take 15) = some (2, high) := by
  refine ⟨?_, by decide, by decide, by decide⟩
  rintro w raw (rfl | rfl | rfl) (rfl | rfl) <;>
    exact ⟨rfl, rfl, rfl, by decide, by decide, by decide, rfl⟩

/-- V-S1, with three clock answers: the last one exactly at the timeout. -/
theorem witness_IdleLineTimesOut :
    let s := fed [1000, 1000] [0, 1999999, 2000000] ready
    s.ctl.busy = false ∧ s.cfg.freq ≠ 0 ∧ s.script = [] ∧ 1 ≤ s.params.windowN ∧
    1 ≤ s.params.syncTimeoutUs ∧
    s.env.clock = ((0 : HostWord) :: [1999999]) ++ 2000000 :: [] ∧
    s.env.samples = List.replicate (([1999999] : List HostWord).length + 1) (1000 : Sample) ++ [] ∧
    s.env.lastNow ≤ (0 : HostWord).toInt ∧
    (((0 : HostWord) :: [1999999]) ++ [2000000]).Pairwise
      (fun (a b : HostWord) => a.toInt ≤ b.toInt) ∧
    (∀ w ∈ ([1999999] : List HostWord),
      w.toInt - (0 : HostWord).toInt < s.params.syncTimeoutUs) ∧
    (s.params.syncTimeoutUs : Int) ≤ (2000000 : HostWord).toInt - (0 : HostWord).toInt := by
  refine ⟨rfl, ?_, rfl, ?_, ?_, rfl, rfl, ?_, ?_, ?_, ?_⟩
  · decide
  · decide
  · decide
  · decide
  · decide
  · intro w hw
    rw [List.mem_singleton.1 hw]
    decide
  · decide

/-- The settle delay of either operation one microsecond before its end, and at its end. -/
theorem witness_SettleLocks :
    let r := fed [] [40000] (inPhase 0x44 .settle ready)
    let s (w : HostWord) := fed [] [w] (inPhase 0x33 .settle ready)
    (r.script = [] ∧ r.seq.phase = .settle ∧ r.seq.op = 0x44 ∧ r.dec.hb = [] ∧
      1 ≤ r.params.maxPacketHalfBits ∧
      (r.params.settleUs : Int) ≤ (40000 : HostWord).toInt - r.seq.tSettle) ∧
    ((s 39999).script = [] ∧ (s 39999).seq.phase = .settle ∧ (s 39999).seq.op = 0x33 ∧
      (s 39999).env.clock = (39999 : HostWord) :: [] ∧
      (s 39999).env.lastNow ≤ (39999 : HostWord).toInt ∧
      (39999 : HostWord).toInt - (s 39999).seq.tSettle < (s 39999).params.settleUs) ∧
    ((s 40000).script = [] ∧ (s 40000).env.clock = (40000 : HostWord) :: [] ∧
      (s 40000).env.lastNow ≤ (40000 : HostWord).toInt ∧
      ((s 40000).params.settleUs : Int) ≤ (40000 : HostWord).toInt - (s 40000).seq.tSettle) := by
  decide

theorem witness_OnlySynchronizeSetsLocked :
    let s := fed [] [40000] (inPhase 0x33 .settle ready)
    s.ctl.locked = false ∧ ∃ t, step s = .next t ∧ t.ctl.locked = true :=
  ⟨by decide, _, rfl, by decide⟩

theorem witness_TransitionDetectorStep :
    ready.det.cur = none ∧
    ({ ready with det := { cur := some (mkRat 25 64), tLast := 0, deb := 5 } } : State).det.cur =
      some (mkRat 25 64) := by decide

/-- Five pushes after an accepted transition; then the sixth, of the other symbol. -/
theorem witness_AcceptedTransitionsAreSixPushesApart :
    let s := { ready with det := { cur := some (mkRat 25 64), tLast := 0, deb := 0 } }
    let pushes : List (Level × Int) := [(high, 1), (lo, 2), (high, 3), (.noData, 4), (high, 5)]
    let t := { ready with det := { cur := some (mkRat 25 64), tLast := 0, deb := 5 } }
    s.det.deb = 0 ∧ pushes.length ≤ 5 ∧ t.det.deb = 5 ∧ t.det.cur = some (mkRat 25 64) ∧
    hi (mkRat 75 64) ≠ hi (mkRat 25 64) := by decide

/-- A whole group with an ambiguous third pair (V-D3), and one without, of each length up to 16. -/
theorem witness_ByteDecodePacksThePairs :
    let s := decoding (levels [false, true, true, false, true, true, true, false, true, false, false,
      true, true, false, false, true]) [] ready
    let g := decoding (levels [false, true, true, false, false, true, true, false, true, false, false,
      true, true, false, false, true]) [] ready
    (0 + 16 ≤ hbLen s ∧ 2 * 2 + 1 < 16 ∧ hbAt s (0 + 2 * 2) = some high ∧
      hbAt s (0 + 2 * 2 + 1) = some high ∧ pair s.params high high = .ambiguous) ∧
    (∀ n, n < 17 → 0 + n ≤ hbLen g) ∧
    ∀ p, p < 8 → ((hbAt g (0 + 2 * p)).bind fun a =>
      (hbAt g (0 + 2 * p + 1)).map fun b => decide (pair g.params a b ≠ .ambiguous)) = some true := by
  decide

/-- The group of 0xA5, in an instance whose epsilon is exactly the distance of its levels. -/
theorem witness_EncodedByteDecodesToItself :
    let symbols := [false, true, true, false, false, true, true, false, true, false, false, true,
      true, false, false, true]
    let g : List Rat := symbols.map (fun b => if b then mkRat 75 64 else mkRat 25 64)
    let s := { decoding (levels symbols) [] ready with
      params := { ready.params with ambigEps := mkRat 50 64 } }
    (s.dec.hb.drop 0).take 16 = g.map Level.ratio ∧ g.map hi = symbolsOf 0xA5 ∧
    ∀ a ∈ g, ∀ b ∈ g, hi a ≠ hi b → s.params.ambigEps ≤ |a - b| := by
  refine ⟨by decide, by decide, ?_⟩
  intro a ha b hb h
  have two : ∀ x ∈ [false, true, true, false, false, true, true, false, true, false, false, true,
      true, false, false, true].map (fun b => if b then mkRat 75 64 else mkRat 25 64),
      x = mkRat 75 64 ∨ x = mkRat 25 64 := by decide
  have d : mkRat 75 64 - mkRat 25 64 = mkRat 50 64 := by norm_num [Rat.mkRat_eq_div]
  have e : |mkRat 75 64 - mkRat 25 64| = mkRat 50 64 := by
    rw [d]; exact abs_of_nonneg (by decide : (0 : Rat) ≤ mkRat 50 64)
  show mkRat 50 64 ≤ |a - b|
  rcases two a ha with rfl | rfl <;> rcases two b hb with rfl | rfl
  · exact absurd rfl h
  · exact le_of_eq e.symm
  · exact le_of_eq (e.symm.trans (abs_sub_comm _ _))
  · exact absurd rfl h

/-- The half-bit guard, half-bits 15 and 16 of a group, and the byte guard. -/
theorem witness_HbAppendStoresAndClosesBytes :
    let tiny := { ready with params := { ready.params with maxPacketHalfBits := 16,
                                                           maxPacketSize := 1 } }
    let s (n : Nat) (fb : List Byte) := decoding (List.replicate n lo) fb tiny
    (s 16 [0]).ctl.busy = false ∧ hbLen (s 16 [0]) = (s 16 [0]).params.maxPacketHalfBits ∧
    (hbLen (s 14 []) + 1) % 16 ≠ 0 ∧ (hbLen (s 15 []) + 1) % 16 = 0 ∧
    hbLen (s 15 [0]) ≠ (s 15 [0]).params.maxPacketHalfBits ∧
    fbLen (s 15 [0]) = (s 15 [0]).params.maxPacketSize ∧
    fbLen (s 15 []) ≠ (s 15 []).params.maxPacketSize := by decide

/-- An odd count to complete, an even count, no current level, a full buffer. -/
theorem witness_HbFlushFinalizesTheFrame :
    let d := { ready with det := { ready.det with cur := some (mkRat 25 64) } }
    let odd := decoding (levels [false, true, true, false, true]) [] d
    let full := { decoding [lo] [0x41] d with
      params := { d.params with maxPacketHalfBits := 1, maxPacketSize := 1 } }
    (odd.ctl.busy = false ∧ odd.det.cur = some (mkRat 25 64) ∧ hbLen odd % 2 = 1 ∧
      hbLen odd < odd.params.maxPacketHalfBits) ∧
    hbLen (decoding [] [] d) % 2 = 0 ∧ (decoding [lo] [] ready).det.cur = none ∧
    full.params.maxPacketHalfBits ≤ hbLen full ∧ fbLen full = full.params.maxPacketSize := by decide

theorem witness_DecodeStartsFromTheCarry :
    let s := { ready with ctl := { ready.ctl with locked := true },
                          dec := { ready.dec with carry := some high } }
    s.ctl.busy = false ∧ s.cfg.freq ≠ 0 ∧ s.ctl.locked = true ∧ 1 ≤ s.params.maxPacketHalfBits := by
  decide

/-- The idle gap exactly at its limit, and one microsecond beyond. -/
theorem witness_DecodeEndsByIdleOrCapacity :
    let s (w : HostWord) := fed [800] [w] (inPhase 0x43 .decode ready)
    ((s 1000000).script = [] ∧ (s 1000000).seq.phase = .decode ∧
      (s 1000000).env.clock = (1000000 : HostWord) :: [] ∧
      (s 1000000).env.lastNow ≤ (1000000 : HostWord).toInt ∧
      ((1000000 : HostWord).toInt - (s 1000000).det.tLast) * (s 1000000).cfg.freq ≤ 10000000) ∧
    ((s 1000001).script = [] ∧ (s 1000001).env.clock = (1000001 : HostWord) :: [] ∧
      (s 1000001).env.lastNow ≤ (1000001 : HostWord).toInt ∧
      10000000 < ((1000001 : HostWord).toInt - (s 1000001).det.tLast) * (s 1000001).cfg.freq) := by
  decide

/-- A decode iteration with a single and with a doubled hold, into a free buffer and into a full one. -/
theorem witness_DecodeEndsByIdleOrCapacity_appends :
    let s (w : HostWord) (room : Nat) : State :=
      let t := { scanningAt 800 w [] with seq := { ready.seq with phase := .decode, op := 0x43 } }
      { t with params := { t.params with maxPacketHalfBits := room } }
    let pushed (w : HostWord) (room : Nat) := pushSample 800 (s w room)
    let asked (w : HostWord) (room : Nat) := tdStep (pushed w room).cond.level w.toInt (pushed w room)
    let one (w : HostWord) (room : Nat) := hbAppend high (asked w room).2
    (asked 75000 8).1 = some (1, high) ∧ (asked 75001 8).1 = some (2, high) ∧
    (one 75000 0).1 = .full ∧ (one 75001 1).1 ≠ .full ∧
    (hbAppend high (one 75001 1).2).1 = .full ∧ (hbAppend high (one 75001 8).2).1 ≠ .full := by decide

/-- A line that is at each level of the last ten preamble symbols for six pushes, low twice as long in the
first low hold, with a window of one slot and no settle delay; then an idle gap. -/
def lineToLock : State :=
  let six (raw : Sample) := List.replicate 6 raw
  let t := fed ((six 2400 ++ six 800 ++ six 2400 ++ six 800 ++ six 2400 ++ six 800 ++ six 2400 ++
      six 800 ++ six 2400) ++ [800])
    ((List.range 6).map (BitVec.ofNat 64) ++ List.replicate 6 10000#64 ++
      List.replicate 42 90000#64 ++ [90000, 90000, 2000000]) ready
  { t with params := { t.params with windowN := 1, settleUs := 0 }, win := [none] }

/-- Whether a machine is idle after a frame of no bytes, with code 0. -/
def endedEmpty (t : State) : Bool :=
  !t.ctl.busy && t.ctl.code == .ok && t.env.calls.getLast? == some (.emitFrame [])

/-- Whether `o` runs on for `n` steps to an `endedEmpty` state. -/
def endsEmptyAfter (n : Nat) (o : Host.Outcome State Fault Refusal) : Bool :=
  match o with
  | .next b => match runSteps n b with
    | .next t => endedEmpty t
    | .fault _ => false
    | .refused _ => false
  | .fault _ => false
  | .refused _ => false

theorem test_lineToLock : endsEmptyAfter 57 (exec .receiveFrame lineToLock) = true := by
  decide +kernel

/-- A `RECEIVE_FRAME` that ends after its lock, with an empty frame. -/
theorem witness_ReceiveFrameIsSynchronizeThenDecode_locks :
    lineToLock.ctl.busy = false ∧ lineToLock.cfg.freq ≠ 0 ∧ lineToLock.script = [] ∧
    ∃ b t, exec .receiveFrame lineToLock = .next b ∧ runSteps 57 b = .next t ∧
      t.ctl.busy = false ∧ t.ctl.code = .ok ∧ t.env.calls.getLast? = some (.emitFrame []) := by
  refine ⟨by decide, by decide, by decide, ?_⟩
  have h := test_lineToLock
  generalize exec .receiveFrame lineToLock = o at h
  cases o with
  | next b =>
    simp only [endsEmptyAfter] at h
    split at h
    · rename_i t ht
      simp only [endedEmpty, Bool.and_eq_true, Bool.not_eq_true', beq_iff_eq] at h
      exact ⟨b, t, rfl, ht, h.1.1, h.1.2, h.2⟩
    all_goals cases h
  | fault _ => cases h
  | refused _ => cases h

/-- A `RECEIVE_FRAME` that ends: the line is silent until the timeout. -/
theorem witness_ReceiveFrameIsSynchronizeThenDecode :
    let s := fed [1000] [0, 2000000] ready
    s.ctl.busy = false ∧ s.cfg.freq ≠ 0 ∧ s.script = [] ∧
    ∃ b t, exec .receiveFrame s = .next b ∧ runSteps 2 b = .next t ∧ t.ctl.busy = false :=
  ⟨by decide, by decide, by decide, _, _, rfl, rfl, by decide⟩

theorem witness_SendBitSendsOneCell :
    State.reset.ctl.busy = false ∧ State.reset.cfg.freq = 0 ∧ ready.ctl.busy = false ∧
    ready.cfg.freq ≠ 0 := by decide

/-- No byte, one byte and the largest frame. -/
theorem witness_TransmitFrameSendsTheBytes :
    ∀ n ∈ [0, 1, 128],
      let s := { ready with tx := { ready.tx with txLen := n } }
      s.ctl.busy = false ∧ s.script = [] ∧ s.cfg.freq ≠ 0 ∧ s.tx.txLen = n := by decide

theorem witness_SendPreambleDrivesThePattern :
    State.reset.ctl.busy = false ∧ State.reset.script = [] := by decide

theorem witness_ResetLeavesTheTable :
    ({ inPhase 0x33 .scan ready with script := [.rst] } : State).script = [.rst] ∧
    ({ inPhase 0x51 .txPre ready with script := [.rstInside none 2] } : State).script =
      [.rstInside none 2] ∧
    ∃ u l, issueOrIterate none (inPhase 0x51 .txPre ready) = .next u ∧
      u.env.calls = (inPhase 0x51 .txPre ready).env.calls ++ l ∧ l.length = 5 :=
  ⟨rfl, rfl, _, _, rfl, rfl, by decide⟩

theorem witness_HostReadsHaveNoSideEffect :
    ({ ready with script := [.read 0x000] } : State).script = [.read 0x000] ∧
    ({ ready with script := [.read 0x20000] } : State).script = [.read 0x20000] := by decide

theorem witness_StatusLayout :
    ready.det.deb ≤ 6 ∧ ({ ready with det := { ready.det with deb := 6 } } : State).det.deb ≤ 6 := by
  decide

theorem witness_ResultLayout :
    ({ ready with dec := { ready.dec with ambigCount := 65535 } } : State).dec.ambigCount < 65536 ∧
    ({ ready with ctl := { ready.ctl with frameLen := 65535 } } : State).ctl.frameLen < 65536 := by
  decide

theorem witness_HostWindowsShowTheBuffers :
    ready.params.Legal ∧ ready.win.length = ready.params.windowN ∧ ready.hist.length = 16 ∧
    hbLen ready ≤ ready.params.maxPacketHalfBits ∧ fbLen ready ≤ ready.params.maxPacketSize :=
  ⟨witness_defaultParams_legal, by decide, by decide, by decide, by decide⟩

/-- The first byte of `TX` and the last one of the default instance. -/
theorem witness_TxReadsBackWhatWasWritten :
    ready.params.Legal ∧ Memory.wf ready.tx.mem ∧ ready.ctl.busy = false ∧
    (0 < ready.params.txMax ∧
      ({ ready with script := [.write (0x20000 + 0) 0xA5] } : State).script =
        [.write (0x20000 + 0) 0xA5]) ∧
    (127 < ready.params.txMax ∧
      ({ ready with script := [.write (0x20000 + 127) 0] } : State).script =
        [.write (0x20000 + 127) 0]) :=
  ⟨witness_defaultParams_legal, by decide, by decide, by decide, by decide⟩

/-- One write for each clause, at the edges: a busy block, the two operands, the scan counts 0 and 1, the
lengths 128 and 129, and the first address above `TX`. -/
theorem witness_HostWritesLandInTheirRegisters :
    (inPhase 0x33 .scan ready).ctl.busy = true ∧ ready.ctl.busy = false ∧
    (∀ a ∈ [0x003, 0x004, 0x00A, 0x00B, 0x010, 0x011, 0x20000 + 128],
      a ≠ 0x000 ∧ ¬ (0x20000 ≤ a ∧ a < 0x20000 + ready.params.txMax)) ∧
    (0x1000000 : HostWord).toNat % 2 ^ 24 = 0 ∧ (1 : HostWord).toNat % 2 ^ 24 ≠ 0 ∧
    (128 : HostWord).toNat ≤ ready.params.txMax ∧ ¬ (129 : HostWord).toNat ≤ ready.params.txMax := by
  decide

/-- `ready`, and the edges of the gaps of the address map in the default instance. -/
theorem witness_HostReadsShowTheRegisters :
    ready.Sound ∧ ready.CalibrationSound ∧ ready.InRange ∧
    ∀ a ∈ [0x014, 0x0FF, 0x10B, 0x1FF, 0x210, 0xFFF, 0x1800, 0xFFFF, 0x10080, 0x1FFFF, 0x20080],
      (0x013 < a ∧ a < 0x100) ∨ (0x100 + ready.params.windowN ≤ a ∧ a < 0x200) ∨
      (0x210 ≤ a ∧ a < 0x1000) ∨ (0x1000 + ready.params.maxPacketHalfBits ≤ a ∧ a < 0x10000) ∨
      (0x10000 + ready.params.maxPacketSize ≤ a ∧ a < 0x20000) ∨
      0x20000 + ready.params.txMax ≤ a :=
  ⟨witness_ready_sound, witness_ready_calibrationSound, witness_ready_inRange, by decide⟩

theorem witness_ResetMeetsTheInvariants : defaultParams.Legal := witness_defaultParams_legal

/-- An idle block, and one iteration in each phase. -/
theorem witness_iterations :
    ∀ p ∈ [Phase.idle, .cal1, .cal2, .scan, .settle, .decode, .txPre, .txData],
      (inPhase 0x33 p ready).script = [] ∧ (inPhase 0x33 p ready).seq.phase = p ∧
      ∃ t, step (inPhase 0x33 p ready) = .next t := by
  intro p _
  exact ⟨rfl, rfl, _, rfl⟩

end Sys2Proof.Tests
end

section
/-! All that one step can do, said once (46 R259, 10 R24). `iterate_effect` lists the outcomes of an
iteration and `step_effect` those of a step, each as the state it leaves; every invariant below is a case
split over these two lists. -/

namespace Sys2Proof.Proofs

open Sys2Proof Sys2Proof.Machine Sys2Proof.Config Sys2Proof.Laws

/-! ### What an iteration asks of its environment -/

/-- What the calls of an iteration leave of the environment: the clock kept its contract (60 R293). -/
structure ClockAdvance (e e' : Env) : Prop where
  ge : e.lastNow ≤ e'.lastNow
  lt : e.lastNow < 2 ^ 63 → e'.lastNow < 2 ^ 63

theorem ClockAdvance.of_eq {e e' : Env} (h : e'.lastNow = e.lastNow) : ClockAdvance e e' :=
  ⟨h.ge, fun hlt => h.symm ▸ hlt⟩

theorem readSample_eq (s : State) :
    ∃ e : Env, (readSample s).2 = { s with env := e } ∧ e.lastNow = s.env.lastNow := by
  refine ⟨(readSample s).2.env, ?_, readSample_lastNow s⟩
  unfold readSample
  split <;> rfl

theorem nowUs_feed_eq (s : State) :
    ∃ e : Env, nowUs (feed s) = (e.lastNow, { s with env := e }) ∧ ClockAdvance s.env e := by
  refine ⟨(nowUs (feed s)).2.env, ?_, ?_, ?_⟩
  · unfold nowUs
    split <;> rfl
  · rw [nowUs_lastNow]
    exact nowUs_ge (feed s)
  · rw [nowUs_lastNow]
    exact nowUs_lt (feed s)

/-! ### One sample heard by a receive loop -/

/-- `s` after a sample was pushed and the detector asked, with doubled median `m2` and detector
registers `d`. -/
abbrev heard (raw : Sample) (m2 : Nat) (d : DetRegs) (s : State) : State :=
  { s with win := shiftAppend s.win (some raw), det := d,
           cond := { median2 := m2, level := levelOf m2 s, nodata := false, high := highFlag m2 s } }

/-- The ranges of what one heard sample writes (40 R116, 43 R165). -/
structure Heard (s : State) (m2 : Nat) (d : DetRegs) : Prop where
  median : m2 ≤ 2 * adcMax
  debounce : d.deb ≤ debounceMin
  time : d.tLast = s.det.tLast ∨ d.tLast = s.env.lastNow

theorem doubledMedian_le {w : List Slot} {m2 : Nat} (h : doubledMedian (sortedSamples w) = some m2) :
    m2 ≤ 2 * adcMax := by
  obtain ⟨a, ha, b, hb, rfl⟩ := doubledMedian_eq h
  have := sortedSamples_le ha
  have := sortedSamples_le hb
  omega

/-- `TD_STEP` writes the detector registers: `DEB` stays within its range, and `T_LAST` is kept or is the
clock value. -/
theorem tdStep_det (e : Level) (now : Int) (s : State) :
    ∃ d : DetRegs, (tdStep e now s).2 = { s with det := d } ∧ d.deb ≤ debounceMin ∧
      (d.tLast = s.det.tLast ∨ d.tLast = now) := by
  rcases tdStep_cases e now s with h | ⟨q, -, -, h⟩ | ⟨q, c, -, -, -, -, h⟩ <;> rw [h]
  · exact ⟨_, rfl, countPush_le _, .inl rfl⟩
  · exact ⟨_, rfl, Nat.zero_le _, .inr rfl⟩
  · exact ⟨_, rfl, Nat.zero_le _, .inr rfl⟩

/-- `PUSH_SAMPLE` in full: the window shifts and the conditioner registers take the new median. -/
theorem pushSample_eq (raw : Sample) (s : State) :
    ∃ m2 ≤ 2 * adcMax, pushSample raw s = heard raw m2 s.det s := by
  rcases winMedian_cases (winPush raw s) with ⟨h, -⟩ | ⟨m2, h, e⟩
  · have hm : raw.toNat ∈ sortedSamples (winPush raw s).win :=
      mem_sortedSamples.2 ⟨raw, by simp [shiftAppend], rfl⟩
    rw [h] at hm
    cases hm
  · exact ⟨m2, doubledMedian_le h, e⟩

/-- A sample pushed into `s` and put to the detector at the clock value `s` has seen. -/
theorem hear_eq {raw : Sample} {now : Int} {s t : State} {a : Option (Nat × Level)}
    (hnow : s.env.lastNow = now)
    (h : tdStep (pushSample raw s).cond.level now (pushSample raw s) = (a, t)) :
    ∃ m2 d, Heard s m2 d ∧ t = heard raw m2 d s := by
  obtain ⟨m2, hm, e⟩ := pushSample_eq raw s
  obtain ⟨d, e', hd, ht⟩ := tdStep_det (pushSample raw s).cond.level now (pushSample raw s)
  rw [h, e] at e'
  rw [e, ← hnow] at ht
  exact ⟨m2, d, ⟨hm, hd, ht⟩, e'⟩

/-! ### The parts of the scan loop -/

/-- Latching the scan start in full: `T_START` is kept or is the clock value, and `FIRST` is 0. -/
theorem latchStart_eq (now : Int) (s : State) :
    ∃ t0, (t0 = s.seq.tStart ∨ t0 = now) ∧
      latchStart now s = { s with seq := { s.seq with tStart := t0, first := false } } := by
  unfold latchStart
  split
  · exact ⟨now, .inr rfl, rfl⟩
  · rename_i h
    simp only [Bool.not_eq_true] at h
    exact ⟨s.seq.tStart, .inl rfl, by rw [← h]⟩

/-- The scan loop in full: the slots of the hold shifted into the history without a match, or the match
action, which clears the history and begins `SETTLE`. -/
theorem scanHold_eq (n : Nat) (lv : Level) (now : Int) (s : State) :
    (∃ (lvs : List Level) (m : Bool), scanHold n lv now s =
      { s with hist := lvs.foldl (fun h x => shiftAppend h (some x)) s.hist,
               ctl := { s.ctl with matched := m } }) ∨
    ∃ c : Option Level, scanHold n lv now s =
      { s with hist := List.replicate histLen none, ctl := { s.ctl with matched := false },
               dec := { s.dec with carry := c },
               seq := { s.seq with tSettle := now, phase := .settle } } := by
  induction n generalizing s with
  | zero => exact .inl ⟨[], s.ctl.matched, rfl⟩
  | succ n ih =>
    unfold scanHold
    dsimp only
    split
    · exact .inr ⟨_, rfl⟩
    · rcases ih (histMatch (histAppend lv s)) with ⟨lvs, m, e⟩ | ⟨c, e⟩ <;> rw [e]
      · exact .inl ⟨lv :: lvs, m, rfl⟩
      · exact .inr ⟨c, rfl⟩

/-! ### All that an iteration can do -/

/-- The outcomes of one iteration, from the state that has made the iteration's calls. -/
inductive IterationEffect (s : State) : State → Prop
  /-- No operation in progress (60 R288). -/
  | idle : s.seq.phase = .idle → IterationEffect s s
  /-- A sample of the first scan, not the last (41 R132). -/
  | minMax (raw : Sample) : s.seq.phase = .cal1 → (scanMinMax raw.toNat s.cal).cnt ≠ 0 →
      IterationEffect s { s with cal := scanMinMax raw.toNat s.cal }
  /-- The last sample of the first scan (41 R132). -/
  | midpoint (c : CalRegs) (raw : Sample) : s.seq.phase = .cal1 → c = scanMinMax raw.toNat s.cal →
      IterationEffect s { s with
        cal := { c with mid2 := c.cmin + c.cmax, cnt := s.arg.calScan2 },
        seq := { s.seq with phase := .cal2 } }
  /-- A sample of the second scan, not the last (41 R133). -/
  | partition (raw : Sample) : s.seq.phase = .cal2 → (scanPartition raw.toNat s.cal).cnt ≠ 0 →
      IterationEffect s { s with cal := scanPartition raw.toNat s.cal }
  /-- The end of a calibration without two groups (41 R134). -/
  | noSpread (raw : Sample) : s.seq.phase = .cal2 →
      IterationEffect s { s with
        cal := scanPartition raw.toNat s.cal,
        seq := { s.seq with phase := .idle },
        ctl := { s.ctl with busy := false, done := true, code := .insufficientSpread } }
  /-- The end of a calibration with a result (41 R134). -/
  | calibrated (c : CalRegs) (raw : Sample) : s.seq.phase = .cal2 →
      c = scanPartition raw.toNat s.cal → c.loCnt ≠ 0 → c.hiCnt ≠ 0 →
      IterationEffect s { s with
        cal := { c with calNum := c.loSum * c.hiCnt + c.hiSum * c.loCnt,
                        calDen := 2 * c.loCnt * c.hiCnt, calValid := true },
        seq := { s.seq with phase := .idle },
        ctl := { s.ctl with busy := false, done := true, code := .ok } }
  /-- The timeout of a scan (43 R179). -/
  | timeout (t0 : Int) : s.seq.phase = .scan → (t0 = s.seq.tStart ∨ t0 = s.env.lastNow) →
      IterationEffect s { s with
        seq := { s.seq with tStart := t0, first := false, phase := .idle },
        ctl := { s.ctl with busy := false, done := true, locked := false, code := .syncTimeout,
                            frameLen := 0 } }
  /-- A sample of a scan without a match: slots may have been shifted into the history (43 R176). -/
  | scans (t0 : Int) (raw : Sample) (m2 : Nat) (d : DetRegs) (lvs : List Level) (m : Bool) :
      s.seq.phase = .scan → (t0 = s.seq.tStart ∨ t0 = s.env.lastNow) → Heard s m2 d →
      IterationEffect s { heard raw m2 d s with
        seq := { s.seq with tStart := t0, first := false },
        hist := lvs.foldl (fun h x => shiftAppend h (some x)) s.hist,
        ctl := { s.ctl with matched := m } }
  /-- A sample of a scan with a match (43 R177). -/
  | matched (t0 : Int) (raw : Sample) (m2 : Nat) (d : DetRegs) (c : Option Level) :
      s.seq.phase = .scan → (t0 = s.seq.tStart ∨ t0 = s.env.lastNow) → Heard s m2 d →
      IterationEffect s { heard raw m2 d s with
        seq := { s.seq with tStart := t0, first := false, tSettle := s.env.lastNow, phase := .settle },
        hist := List.replicate histLen none,
        ctl := { s.ctl with matched := false },
        dec := { s.dec with carry := c } }
  /-- The settle delay lasts (43 R178). -/
  | settles : s.seq.phase = .settle → IterationEffect s s
  /-- The settle delay of a `SYNCHRONIZE` ends (43 R179). -/
  | locks : s.seq.phase = .settle → s.seq.op = 0x33 →
      IterationEffect s { s with
        seq := { s.seq with phase := .idle },
        ctl := { s.ctl with busy := false, done := true, locked := true, code := .ok } }
  /-- The settle delay of a `RECEIVE_FRAME` ends (43 R179, 44 R214). -/
  | decodes : s.seq.phase = .settle → s.seq.op ≠ 0x33 → IterationEffect s (enterDecode s)
  /-- The idle end of a decode loop (44 R217). -/
  | idleEnd : s.seq.phase = .decode → IterationEffect s (endOperation (finalize true s))
  /-- A sample of a decode loop, with the half-bits of an ended hold (44 R216, R218). -/
  | listens (raw : Sample) (m2 : Nat) (d : DetRegs) (n : Nat) (lv : Level) :
      s.seq.phase = .decode → Heard s m2 d →
      IterationEffect s (appendHold n lv (heard raw m2 d s)).2
  /-- The capacity end of a decode loop (44 R219). -/
  | capacityEnd (raw : Sample) (m2 : Nat) (d : DetRegs) (n : Nat) (lv : Level) :
      s.seq.phase = .decode → Heard s m2 d →
      IterationEffect s (endOperation (finalize false (appendHold n lv (heard raw m2 d s)).2))
  /-- A preamble bit, not the last (45 R241). -/
  | preambleBit (b : Bool) : s.seq.phase = .txPre → s.tx.bitIdx < 7 →
      IterationEffect s { s with tx := { s.tx with led := b, bitIdx := s.tx.bitIdx + 1 } }
  /-- The last bit of a `SEND_PREAMBLE` (45 R241). -/
  | preambleEnd (b : Bool) : s.seq.phase = .txPre → s.seq.op = 0x51 →
      IterationEffect s { s with
        tx := { s.tx with led := b, bitIdx := 7 },
        seq := { s.seq with phase := .idle },
        ctl := { s.ctl with busy := false, done := true, code := .ok } }
  /-- The last preamble bit of a frame with data (45 R241). -/
  | dataBegins (b : Bool) : s.seq.phase = .txPre → s.seq.op ≠ 0x51 → s.tx.txLen ≠ 0 →
      IterationEffect s { s with
        tx := { s.tx with led := b, bitIdx := 7, txIdx := 0 },
        seq := { s.seq with phase := .txData } }
  /-- A data bit, not the last of its byte (45 R242). -/
  | dataBit (b : Bool) : s.seq.phase = .txData →
      IterationEffect s { s with tx := { s.tx with led := b, bitIdx := s.tx.bitIdx - 1 } }
  /-- The last bit of a byte, not of the frame (45 R242). -/
  | nextByte (b : Bool) : s.seq.phase = .txData → s.tx.txIdx + 1 ≠ s.tx.txLen →
      IterationEffect s { s with tx := { s.tx with led := b, bitIdx := 7, txIdx := s.tx.txIdx + 1 } }
  /-- The completion of a frame (45 R243). -/
  | transmitted (j : Nat) : s.seq.phase = .txPre ∨ s.seq.phase = .txData →
      IterationEffect s { s with
        tx := { s.tx with led := false, bitIdx := 7, txIdx := j },
        seq := { s.seq with phase := .idle },
        ctl := { s.ctl with busy := false, done := true, code := .ok } }

/-- `t` is an outcome of an iteration of `s`, whose calls the environment answered. -/
def IteratesTo (s t : State) : Prop :=
  ∃ e : Env, ClockAdvance s.env e ∧ IterationEffect { s with env := e } t

theorem cal1Iteration_effect {s : State} (h : s.seq.phase = .cal1) :
    IteratesTo s (cal1Iteration s) := by
  obtain ⟨e, he, hl⟩ := readSample_eq s
  refine ⟨e, .of_eq hl, ?_⟩
  unfold cal1Iteration
  dsimp only
  rw [he]
  split
  · exact .midpoint _ (readSample s).1 h rfl
  · exact .minMax (readSample s).1 h (by assumption)

theorem cal2Iteration_effect {s : State} (h : s.seq.phase = .cal2) :
    IteratesTo s (cal2Iteration s) := by
  obtain ⟨e, he, hl⟩ := readSample_eq s
  refine ⟨e, .of_eq hl, ?_⟩
  unfold cal2Iteration
  dsimp only
  rw [he]
  split
  · unfold endCalibrate
    split
    · have key : ∀ u : State, endOperation (raise .insufficientSpread u) =
          { u with seq := { u.seq with phase := .idle },
                   ctl := { u.ctl with busy := false, done := true, code := .insufficientSpread } } := by
        intro u; unfold raise; split <;> rfl
      rw [key]
      exact .noSpread (readSample s).1 h
    · rename_i hne
      rw [not_or] at hne
      exact .calibrated _ (readSample s).1 h rfl hne.1 hne.2
  · exact .partition (readSample s).1 h (by assumption)

theorem endTimeout_eq (s : State) :
    endTimeout s = { s with
      seq := { s.seq with phase := .idle },
      ctl := { s.ctl with busy := false, done := true, locked := false, code := .syncTimeout,
                          frameLen := 0 } } := by
  unfold endTimeout raise
  split <;> rfl

theorem scanIteration_effect {s : State} (h : s.seq.phase = .scan) :
    IteratesTo s (scanIteration s) := by
  obtain ⟨e, hn, ha⟩ := nowUs_feed_eq s
  obtain ⟨t0, ht0, hl⟩ := latchStart_eq e.lastNow { s with env := e }
  rcases scanIteration_cases hn with ⟨-, eq⟩ | ⟨-, raw, r, hr, hstep⟩
  · refine ⟨e, ha, ?_⟩
    rw [eq, endTimeout_eq, hl]
    exact .timeout t0 h ht0
  obtain ⟨e', he', hl'⟩ := readSample_eq (latchStart e.lastNow { s with env := e })
  rw [hr, hl] at he'
  rw [hl] at hl'
  dsimp only at he' hl'
  subst he'
  rw [← hl'] at ht0 hstep
  refine ⟨e', ⟨hl' ▸ ha.ge, hl' ▸ ha.lt⟩, ?_⟩
  rcases hstep with ⟨t, ht, eq⟩ | ⟨k, lv, t, ht, eq⟩ <;>
    obtain ⟨m2, d, ⟨hm, hd, hT⟩, rfl⟩ := hear_eq rfl ht <;> rw [eq]
  · exact .scans t0 raw m2 d [] s.ctl.matched h ht0 ⟨hm, hd, hT⟩
  · rcases scanHold_eq k lv e'.lastNow _ with ⟨lvs, m, eq'⟩ | ⟨c, eq'⟩ <;> rw [eq']
    · exact .scans t0 raw m2 d lvs m h ht0 ⟨hm, hd, hT⟩
    · exact .matched t0 raw m2 d c h ht0 ⟨hm, hd, hT⟩

theorem settleIteration_effect {s : State} (h : s.seq.phase = .settle) :
    IteratesTo s (settleIteration s) := by
  obtain ⟨e, hn, ha⟩ := nowUs_feed_eq s
  refine ⟨e, ha, ?_⟩
  unfold settleIteration
  rw [hn]
  dsimp only
  split
  · unfold lockReached
    split
    · exact .locks h (by assumption)
    · exact .decodes h (by assumption)
  · exact .settles h

theorem decodeIteration_effect {s : State} (h : s.seq.phase = .decode) :
    IteratesTo s (decodeIteration s) := by
  obtain ⟨e, hn, ha⟩ := nowUs_feed_eq s
  rcases decodeIteration_cases hn with ⟨-, eq⟩ | ⟨-, raw, r, hr, hstep⟩
  · exact ⟨e, ha, eq ▸ .idleEnd h⟩
  obtain ⟨e', he', hl'⟩ := readSample_eq { s with env := e }
  rw [hr] at he'
  dsimp only at he' hl'
  subst he'
  refine ⟨e', ⟨hl' ▸ ha.ge, hl' ▸ ha.lt⟩, ?_⟩
  rcases hstep with ⟨t, ht, eq⟩ | ⟨k, lv, t, ht, ⟨u, hu, eq⟩ | ⟨skip, u, hu, eq⟩⟩ <;>
    obtain ⟨m2, d, hh, rfl⟩ := hear_eq hl' ht <;> rw [eq]
  · exact .listens raw m2 d 0 .noData h hh
  · rw [show u = (appendHold k lv _).2 by rw [hu]]
    exact .capacityEnd raw m2 d k lv h hh
  · rw [show u = (appendHold k lv _).2 by rw [hu]]
    exact .listens raw m2 d k lv h hh

theorem txPreIteration_effect {s : State} (h : s.seq.phase = .txPre) :
    IteratesTo s (txPreIteration s) := by
  refine ⟨(txPreIteration s).env, .of_eq ?_, ?_⟩ <;> unfold txPreIteration <;>
    simp only [bitCell_eq, feed_tx] <;> split
  · rfl
  · unfold preambleSent
    split
    · rfl
    · dsimp only; split <;> rfl
  · exact .preambleBit _ h (by assumption)
  · unfold preambleSent
    split
    · exact .preambleEnd _ h (by assumption)
    · dsimp only
      split
      · exact .transmitted 0 (.inl h)
      · exact .dataBegins _ h (by assumption) (by assumption)

theorem txDataIteration_effect {s : State} (h : s.seq.phase = .txData) :
    IteratesTo s (txDataIteration s) := by
  refine ⟨(txDataIteration s).env, .of_eq ?_, ?_⟩ <;> unfold txDataIteration <;>
    simp only [bitCell_eq, feed_tx] <;> split
  · rfl
  · split <;> rfl
  · exact .dataBit _ h
  · split
    · exact .transmitted _ (.inr h)
    · exact .nextByte _ h (by assumption)

/-- All that one iteration can do. -/
theorem iterate_effect (s : State) : IteratesTo s (iterate s) := by
  unfold iterate
  split
  case h_1 h => exact ⟨s.env, .of_eq rfl, .idle h⟩
  case h_2 h => exact cal1Iteration_effect h
  case h_3 h => exact cal2Iteration_effect h
  case h_4 h => exact scanIteration_effect h
  case h_5 h => exact settleIteration_effect h
  case h_6 h => exact decodeIteration_effect h
  case h_7 h => exact txPreIteration_effect h
  case h_8 h => exact txDataIteration_effect h

/-! ### All that a step can do -/

/-- The outcomes of one step, from the state whose host action has left the script; `issued` are the
operations whose command word that action may have written. -/
inductive StepEffect (issued : Instr → Prop) (s : State) : State → Prop
  | iteration (t : State) : IteratesTo s t → StepEffect issued s t
  /-- The reset input, after some calls of the step it cuts (70 R312). -/
  | reset (calls : List PortEvent) :
      StepEffect issued s (State.resetOf s.params (calls.foldl replay s).env s.script)
  | hostRead (e : PortEvent) : StepEffect issued s (record e s)
  /-- A write to a busy block (46 R263). -/
  | ignoredWrite : StepEffect issued s s
  | registerWrite (a : Nat) (d : HostWord) : s.ctl.busy = false →
      StepEffect issued s (writeRegister a d s)
  /-- A command for a busy block (60 R277). -/
  | dropped : StepEffect issued s { s with ctl := { s.ctl with dropped := true } }
  /-- A command that ends with an error before it starts: a failed precondition, or an illegal word
  (46 R255, 30 R85). -/
  | refused (e : Code) (locked dropped : Bool) : s.ctl.busy = false →
      (locked = true → s.ctl.locked = true) →
      StepEffect issued s { s with ctl := { s.ctl with
        done := true, locked := locked, dropped := dropped, code := e } }
  /-- A command that a free block accepts and whose precondition holds (46 R255). -/
  | command (i : Instr) : issued i → s.ctl.busy = false → preOf s i = none →
      StepEffect issued s (ruleOf i (admission (keepsLock i) s))

/-- All that a command can do. -/
theorem exec_effect {issued : Instr → Prop} {i : Instr} {s t : State}
    (hi : s.ctl.busy = false → issued i) (h : exec i s = .next t) : StepEffect issued s t := by
  rcases exec_cases h with ⟨-, rfl⟩ | ⟨hb, e, -, rfl⟩ | ⟨hb, hp, rfl⟩
  · exact .dropped
  · rw [raise_of_free _ (by exact hb)]
    exact .refused e _ false hb (fun hl => (Bool.and_eq_true_iff.1 hl).1)
  · exact .command i (hi hb) hb hp

/-- All that one step can do. -/
theorem step_effect {s t : State} (h : step s = .next t) :
    ∃ rest, StepEffect s.Issues { s with script := rest } t := by
  rcases step_cases h with ⟨hs, rfl⟩ | ⟨a, rest, hs, h⟩
  · exact ⟨s.script, .iteration _ (iterate_effect s)⟩
  refine ⟨rest, ?_⟩
  rcases act_cases h with ⟨-, rfl⟩ | ⟨-, rfl⟩ | ⟨_, calls, u, -, -, rfl⟩ | ⟨addr, -, rfl⟩ |
    ⟨addr, d, -, -, rfl⟩ | ⟨d, e, -, -, rfl⟩ | ⟨d, i, rfl, hd, h⟩
  · exact .iteration _ (iterate_effect _)
  · exact .reset []
  · rw [cutReset_eq]
    exact .reset _
  · exact .hostRead _
  · unfold hostWrite
    split
    · exact .ignoredWrite
    · rename_i hb
      exact .registerWrite addr d (Bool.eq_false_of_not_eq_true hb)
  · unfold illegalCommand
    split
    · exact .dropped
    · rename_i hb
      have hb := Bool.eq_false_of_not_eq_true hb
      rw [raise_of_free _ hb]
      exact .refused .illegalCommand _ _ hb id
  · exact exec_effect (fun hb => ⟨hb, d, rest, hs, hd⟩) h

end Sys2Proof.Proofs
end

section
/-! What the operations leave of the buffers: the shape of the two register files, the bound of the frame
buffer, and the frames of the operations that write registers. -/

namespace Sys2Proof.Proofs

open Sys2Proof Sys2Proof.Machine Sys2Proof.Config Sys2Proof.Laws

/-! ### Register files: `WIN` and `HIST` (10 R33, R34) -/

/-- A register file of `n` slots whose filled slots come last (R44 b, g). -/
def Filed {α : Type} (n : Nat) (l : List (Option α)) : Prop := l.length = n ∧ TrailingBlock l

theorem filed_replicate {α : Type} (n : Nat) : Filed n (List.replicate n (none : Option α)) :=
  ⟨List.length_replicate, n, [], by simp⟩

/-- A shift keeps the shape: the oldest slot leaves, be it empty or filled, and a filled one comes last. -/
theorem filed_shiftAppend {α : Type} {n : Nat} {l : List (Option α)} (h : Filed n l) (hn : n ≠ 0)
    (x : α) : Filed n (shiftAppend l (some x)) := by
  obtain ⟨hl, k, filled, rfl⟩ := h
  refine ⟨by rw [length_shiftAppend _ _ (fun e => hn (by rw [← hl, e]; rfl)), hl], ?_⟩
  cases k with
  | zero => exact ⟨0, filled.drop 1 ++ [x], by simp [shiftAppend]⟩
  | succ k => exact ⟨k, filled ++ [x], by simp [shiftAppend, List.replicate_succ]⟩

theorem filed_foldl_shiftAppend {α : Type} {n : Nat} {l : List (Option α)} (h : Filed n l)
    (hn : n ≠ 0) (xs : List α) : Filed n (xs.foldl (fun l x => shiftAppend l (some x)) l) := by
  induction xs generalizing l with
  | nil => exact h
  | cons x xs ih => exact ih (filed_shiftAppend h hn x)

/-! ### The frame buffer against the half-bit buffer (10 R44 d) -/

/-- Whole groups of half-bits give at most one byte each, and a flushed partial group one more. -/
def BytesBound (s : State) : Prop := fbLen s ≤ hbLen s / 16 + s.dec.partialByte.toNat

theorem byteClose_fbLen_le (start n : Nat) (s : State) :
    fbLen (byteClose start n s).2 ≤ fbLen s + 1 := by
  rcases byteClose_cases start n s with ⟨-, e⟩ | ⟨-, b, skip, -, e⟩ <;> rw [e] <;> simp [fbLen]

@[simp] theorem hbLen_byteClose (start n : Nat) (s : State) :
    hbLen (byteClose start n s).2 = hbLen s := by simp [hbLen]

@[simp] theorem hbLen_storeHalfBit (lv : Level) (s : State) :
    hbLen (storeHalfBit lv s) = hbLen s + 1 := by simp [hbLen]

@[simp] theorem fbLen_storeHalfBit (lv : Level) (s : State) :
    fbLen (storeHalfBit lv s) = fbLen s := rfl

@[simp] theorem hbLen_endOperation (s : State) : hbLen (endOperation s) = hbLen s := rfl

@[simp] theorem fbLen_endOperation (s : State) : fbLen (endOperation s) = fbLen s := rfl

@[simp] theorem hbAppend_partial (lv : Level) (s : State) :
    (hbAppend lv s).2.dec.partialByte = s.dec.partialByte := by
  rcases hbAppend_cases lv s with ⟨-, e⟩ | ⟨-, -, e⟩ | ⟨-, -, e⟩ <;> rw [e] <;> simp

theorem hbAppend_bytes {s : State} (lv : Level) (h : BytesBound s) :
    BytesBound (hbAppend lv s).2 := by
  unfold BytesBound at *
  rw [hbAppend_partial]
  rcases hbAppend_cases lv s with ⟨-, e⟩ | ⟨-, -, e⟩ | ⟨-, hg, e⟩ <;> rw [e]
  · exact h
  · rw [hbLen_storeHalfBit, fbLen_storeHalfBit]
    omega
  · have := byteClose_fbLen_le (hbLen s + 1 - 16) 16 (storeHalfBit lv s)
    rw [fbLen_storeHalfBit] at this
    rw [hbLen_byteClose, hbLen_storeHalfBit]
    omega

/-- What `HB_APPEND` keeps, appending the copies of a hold keeps. -/
theorem appendHold_induction {P : State → Prop} (hP : ∀ lv s, P s → P (hbAppend lv s).2) (n : Nat)
    (lv : Level) {s : State} (h : P s) : P (appendHold n lv s).2 := by
  induction n generalizing s with
  | zero => exact h
  | succ n ih =>
    have key := hP lv s h
    unfold appendHold
    split
    · rename_i t e; rw [e] at key; exact key
    · rename_i t e; rw [e] at key; exact ih key

theorem appendHold_bytes {s : State} (n : Nat) (lv : Level) (h : BytesBound s) :
    BytesBound (appendHold n lv s).2 :=
  appendHold_induction (fun lv _ => hbAppend_bytes lv) n lv h

theorem appendHold_partial {s : State} (n : Nat) (lv : Level) (h : s.dec.partialByte = false) :
    (appendHold n lv s).2.dec.partialByte = false :=
  appendHold_induction (P := fun s => s.dec.partialByte = false)
    (fun lv s h => (hbAppend_partial lv s).trans h) n lv h

/-- Passing to decoding in full: the phase, and the carry, if there is one, as a half-bit. -/
theorem enterDecode_cases (s : State) :
    (s.dec.carry = none ∧ enterDecode s = { s with seq := { s.seq with phase := .decode } }) ∨
    ∃ lv, s.dec.carry = some lv ∧ (enterDecode s).dec = { (hbAppend lv
      { s with seq := { s.seq with phase := .decode } }).2.dec with carry := none } := by
  unfold enterDecode
  cases h : s.dec.carry with
  | none => exact .inl ⟨rfl, by simp [h]⟩
  | some lv => exact .inr ⟨lv, rfl, by simp [h]⟩

@[simp] theorem enterDecode_partial (s : State) :
    (enterDecode s).dec.partialByte = s.dec.partialByte := by
  rcases enterDecode_cases s with ⟨-, e⟩ | ⟨lv, -, e⟩ <;> rw [e]
  exact hbAppend_partial lv _

theorem enterDecode_bytes {s : State} (h : BytesBound s) : BytesBound (enterDecode s) := by
  rcases enterDecode_cases s with ⟨-, e⟩ | ⟨lv, -, e⟩
  · rw [e]; exact h
  · have key := hbAppend_bytes lv (s := { s with seq := { s.seq with phase := .decode } }) h
    unfold BytesBound fbLen hbLen at *
    rw [e]
    exact key

/-- Completion at idle does nothing or stores one half-bit as `HB_APPEND` does (44 R209). -/
theorem completeAtIdle_cases (idle : Bool) (s : State) :
    completeAtIdle idle s = s ∨ ∃ lv, completeAtIdle idle s = (hbAppend lv s).2 := by
  unfold completeAtIdle
  split
  · rename_i q _
    split
    · rename_i h
      refine .inr ⟨.ratio q, ?_⟩
      have hne : hbLen s ≠ s.params.maxPacketHalfBits := by omega
      simp only [hbAppend, if_neg hne]
      split <;> rfl
    · exact .inl rfl
  · exact .inl rfl

/-- The final flush does nothing, or closes the byte of what is left and sets `PARTIAL` (44 R210). -/
theorem flushPartial_cases (s : State) :
    (hbLen s % 16 = 0 ∧ flushPartial s = s) ∨
    ∃ t, t = (byteClose (hbLen s - hbLen s % 16) (hbLen s % 16) s).2 ∧
      flushPartial s = { t with dec := { t.dec with partialByte := true } } := by
  unfold flushPartial
  dsimp only
  split
  · exact .inr ⟨_, rfl, rfl⟩
  · exact .inl ⟨by omega, rfl⟩

/-- The final flush of a frame without a partial byte keeps the bound. -/
theorem flushPartial_bytes {s : State} (h : BytesBound s) (hp : s.dec.partialByte = false) :
    BytesBound (flushPartial s) := by
  rcases flushPartial_cases s with ⟨-, e⟩ | ⟨t, ht, e⟩ <;> rw [e]
  · exact h
  · have h1 := byteClose_fbLen_le (hbLen s - hbLen s % 16) (hbLen s % 16) s
    have h2 := hbLen_byteClose (hbLen s - hbLen s % 16) (hbLen s % 16) s
    rw [← ht] at h1 h2
    have h3 : fbLen s ≤ hbLen s / 16 := by simpa [BytesBound, hp] using h
    show fbLen t ≤ hbLen t / 16 + 1
    omega

/-- The decoder registers that `FINALIZE` leaves are those of its two flushes. -/
theorem finalize_dec (idle : Bool) (s : State) :
    (finalize idle s).dec = (flushPartial (completeAtIdle idle s)).dec := by
  simp [finalize]

/-- The first `FINALIZE` of a frame keeps the bound. -/
theorem finalize_bytes {s : State} (idle : Bool) (h : BytesBound s) (hp : s.dec.partialByte = false) :
    BytesBound (finalize idle s) := by
  have key : BytesBound (completeAtIdle idle s) ∧ (completeAtIdle idle s).dec.partialByte = false := by
    rcases completeAtIdle_cases idle s with e | ⟨lv, e⟩ <;> rw [e]
    · exact ⟨h, hp⟩
    · exact ⟨hbAppend_bytes lv h, (hbAppend_partial lv s).trans hp⟩
  have := flushPartial_bytes key.1 key.2
  unfold BytesBound fbLen hbLen at *
  rwa [finalize_dec]

/-! ### The frames of the operations that write registers -/

/-- A host write changes the operand registers and the encoder's registers alone (10 R40). -/
@[simp] theorem writeRegister_frame (a : Nat) (d : HostWord) (s : State) :
    (writeRegister a d s).cfg = s.cfg ∧ (writeRegister a d s).cond = s.cond ∧
    (writeRegister a d s).det = s.det ∧ (writeRegister a d s).seq = s.seq ∧
    (writeRegister a d s).cal = s.cal ∧ (writeRegister a d s).dec = s.dec ∧
    (writeRegister a d s).ctl = s.ctl ∧ (writeRegister a d s).win = s.win ∧
    (writeRegister a d s).hist = s.hist ∧ (writeRegister a d s).params = s.params ∧
    (writeRegister a d s).env = s.env ∧ (writeRegister a d s).script = s.script := by
  unfold writeRegister; (repeat' split) <;> simp

/-- `SET_FREQ` writes `FREQ` and the control flags of a free block. -/
@[simp] theorem setFreq_frame (f : Nat) (s : State) :
    (setFreq f s).cond = s.cond ∧ (setFreq f s).det = s.det ∧ (setFreq f s).cal = s.cal ∧
    (setFreq f s).dec = s.dec ∧ (setFreq f s).arg = s.arg ∧ (setFreq f s).tx = s.tx ∧
    (setFreq f s).win = s.win ∧ (setFreq f s).hist = s.hist ∧ (setFreq f s).params = s.params ∧
    (setFreq f s).env = s.env ∧ (setFreq f s).script = s.script := by
  unfold setFreq; split <;> simp

/-- `SET_THRESH` writes `THR` and the control flags of a free block. -/
@[simp] theorem setThresh_frame (s : State) :
    (setThresh s).cond = s.cond ∧ (setThresh s).det = s.det ∧ (setThresh s).cal = s.cal ∧
    (setThresh s).dec = s.dec ∧ (setThresh s).arg = s.arg ∧ (setThresh s).tx = s.tx ∧
    (setThresh s).win = s.win ∧ (setThresh s).hist = s.hist ∧ (setThresh s).params = s.params ∧
    (setThresh s).env = s.env ∧ (setThresh s).script = s.script := by
  unfold setThresh; split <;> simp

/-- All that `SET_FREQ` can do to a free block (46 R257). -/
theorem setFreq_cases {s : State} (f : Nat) (hb : s.ctl.busy = false) :
    setFreq f s = { s with ctl := { s.ctl with done := true, code := .badConfig } } ∨
    (f ≠ 0 ∧ f ≤ freqMax ∧ setFreq f s =
      { s with cfg := { s.cfg with freq := f }, ctl := { s.ctl with done := true, code := .ok } }) := by
  unfold setFreq
  split
  · exact .inl (raise_of_free _ hb)
  · rename_i h; exact .inr ⟨by omega, by omega, rfl⟩

/-- All that `SET_THRESH` can do to a free block (42 R146). -/
theorem setThresh_cases {s : State} (hb : s.ctl.busy = false) :
    setThresh s = { s with ctl := { s.ctl with done := true, code := .badConfig } } ∨
    (0 < s.arg.arg0 ∧ s.arg.arg0 < adcMax * s.arg.arg1 ∧ setThresh s =
      { s with cfg := { s.cfg with thrNum := s.arg.arg0, thrDen := s.arg.arg1 },
               ctl := { s.ctl with done := true, code := .ok } }) := by
  unfold setThresh badThreshold
  split
  · exact .inl (raise_of_free _ hb)
  · rename_i h
    simp only [decide_eq_true_eq, not_or, not_le] at h
    exact .inr ⟨by omega, h.2.2, rfl⟩

/-! ### The starts of the multi-step operations -/

@[simp] theorem startCalibrate_eq (s : State) :
    startCalibrate s = { s with
      cal := { s.cal with
        calValid := false, calNum := 0, calDen := 1, cmin := adcMax, cmax := 0,
        loSum := 0, loCnt := 0, hiSum := 0, hiCnt := 0, cnt := s.arg.calScan1 },
      seq := { s.seq with op := 0x21, phase := .cal1 },
      ctl := { s.ctl with busy := true } } := rfl

@[simp] theorem startScan_eq (op : BitVec 8) (s : State) :
    startScan op s = { bufReset s with
      seq := { s.seq with op := op, phase := .scan, first := true },
      ctl := { s.ctl with matched := false, busy := true } } := rfl

@[simp] theorem startPreamble_eq (s : State) :
    startPreamble s = { s with
      tx := { s.tx with bitIdx := 0 },
      seq := { s.seq with op := 0x51, phase := .txPre },
      ctl := { s.ctl with busy := true } } := rfl

@[simp] theorem startTransmit_eq (s : State) :
    startTransmit s = { s with
      tx := { s.tx with bitIdx := 0, txIdx := 0 },
      seq := { s.seq with op := 0x52, phase := .txPre },
      ctl := { s.ctl with busy := true } } := rfl

/-- `DECODE` starts with the phase, `OP`, `BUSY` and fresh decoder registers (44 R215). -/
@[simp] theorem startDecode_frame (s : State) :
    (startDecode s).cfg = s.cfg ∧ (startDecode s).cond = s.cond ∧ (startDecode s).det = s.det ∧
    (startDecode s).seq = { s.seq with op := 0x43, phase := .decode } ∧
    (startDecode s).cal = s.cal ∧ (startDecode s).ctl = { s.ctl with busy := true } ∧
    (startDecode s).dec.carry = none ∧ (startDecode s).dec.partialByte = false ∧
    (startDecode s).arg = s.arg ∧ (startDecode s).tx = s.tx ∧ (startDecode s).win = s.win ∧
    (startDecode s).hist = s.hist ∧ (startDecode s).params = s.params ∧
    (startDecode s).env = s.env ∧ (startDecode s).script = s.script := by
  simp [startDecode]

/-! ### The two commands of the half-bit buffer -/

/-- A host-issued `HB_APPEND` writes the decoder registers, `CODE` and `DONE` (44 R205). -/
@[simp] theorem hostHbAppend_frame (lv : Level) (s : State) :
    (hostHbAppend lv s).cfg = s.cfg ∧ (hostHbAppend lv s).cond = s.cond ∧
    (hostHbAppend lv s).det = s.det ∧ (hostHbAppend lv s).seq = s.seq ∧
    (hostHbAppend lv s).cal = s.cal ∧ (hostHbAppend lv s).dec = (hbAppend lv s).2.dec ∧
    (hostHbAppend lv s).ctl = { s.ctl with done := true, code := answerCode (hbAppend lv s).1 } ∧
    (hostHbAppend lv s).arg = s.arg ∧ (hostHbAppend lv s).tx = s.tx ∧
    (hostHbAppend lv s).win = s.win ∧ (hostHbAppend lv s).hist = s.hist ∧
    (hostHbAppend lv s).params = s.params ∧ (hostHbAppend lv s).env = s.env ∧
    (hostHbAppend lv s).script = s.script := by
  simp [hostHbAppend]

/-- `FINALIZE` writes of the control registers `CODE` and the frame length alone. -/
@[simp] theorem finalize_ctl (idle : Bool) (s : State) :
    (finalize idle s).ctl = { s.ctl with
      code := frameCode (finalize idle s).dec.capx (finalize idle s).dec.ambig,
      frameLen := fbLen (finalize idle s) } := (finalize_handOver idle s).2

/-- `HB_FLUSH` is `FINALIZE` with `DONE` set (44 R212). -/
@[simp] theorem hbFlush_eq (idle : Bool) (s : State) :
    hbFlush idle s = { finalize idle s with ctl := { (finalize idle s).ctl with done := true } } := rfl

end Sys2Proof.Proofs
end

section
/-! Every step keeps R44 (10 R33, R34, R44): clause by clause for an iteration and for the rule of a
command, then for the step. -/

namespace Sys2Proof.Proofs

open Sys2Proof Sys2Proof.Machine Sys2Proof.Config Sys2Proof.Laws

/-! ### No iteration changes the parameters or the configuration -/

theorem IterationEffect.params {s t : State} (h : IterationEffect s t) : t.params = s.params := by
  cases h <;> simp

theorem IterationEffect.cfg {s t : State} (h : IterationEffect s t) : t.cfg = s.cfg := by
  cases h <;> simp

theorem IterationEffect.arg {s t : State} (h : IterationEffect s t) : t.arg = s.arg := by
  cases h <;> simp

/-! ### The clauses for an iteration -/

/-- An iteration that hears a sample shifts it into the window; no other iteration writes the window. -/
theorem IterationEffect.window {s t : State} (h : IterationEffect s t) (hs : s.Sound) :
    Filed t.params.windowN t.win := by
  have shifted (raw : Sample) : Filed s.params.windowN (shiftAppend s.win (some raw)) :=
    filed_shiftAppend hs.window (Nat.one_le_iff_ne_zero.1 hs.params.windowN_pos) raw
  have kept : Filed s.params.windowN s.win := hs.window
  rw [h.params]
  cases h
  case scans | matched => exact shifted _
  case listens | capacityEnd => simpa using shifted _
  all_goals simpa using kept

/-- Only a scan writes the history: it shifts slots in, or clears it. -/
theorem IterationEffect.history {s t : State} (h : IterationEffect s t) (hs : s.Sound) :
    Filed histLen t.hist := by
  have kept : Filed histLen s.hist := hs.history
  cases h
  case scans => exact filed_foldl_shiftAppend hs.history (by decide) _
  case matched => exact filed_replicate _
  all_goals simpa using kept

/-- `HB` and `FB` grow behind their guards alone. -/
theorem IterationEffect.capacity {s t : State} (h : IterationEffect s t) (hs : s.Sound) :
    hbLen t ≤ t.params.maxPacketHalfBits ∧ fbLen t ≤ t.params.maxPacketSize := by
  obtain ⟨hhb, hfb⟩ := hs.capacity
  have appended (raw m2 d n lv) := appendHold_lengths (n := n) (lv := lv) (s := heard raw m2 d s) hhb hfb
  rw [h.params]
  cases h
  case decodes => exact enterDecode_lengths hhb hfb
  case idleEnd => exact finalize_lengths hhb hfb
  case listens raw m2 d n lv _ _ => exact appended raw m2 d n lv
  case capacityEnd raw m2 d n lv _ _ =>
    obtain ⟨ha, ha'⟩ := appended raw m2 d n lv
    simpa using finalize_lengths (idle := false) (s := (appendHold n lv (heard raw m2 d s)).2)
      (by simpa using ha) (by simpa using ha')
  all_goals exact ⟨hhb, hfb⟩

theorem IterationEffect.debounce {s t : State} (h : IterationEffect s t) (hs : s.Sound) :
    t.det.deb ≤ debounceMin := by
  cases h
  case scans hh | matched hh => exact hh.debounce
  case listens hh | capacityEnd hh => simpa using hh.debounce
  all_goals simpa using hs.debounce

/-- An iteration goes on with `BUSY = 1` or ends the operation, phase and `BUSY` together. -/
theorem IterationEffect.busy {s t : State} (h : IterationEffect s t)
    (hs : s.ctl.busy = true ↔ s.seq.phase ≠ .idle) : t.ctl.busy = true ↔ t.seq.phase ≠ .idle := by
  cases h
  case midpoint hp _ | decodes hp _ | matched hp _ _ | dataBegins hp _ _ =>
    simpa using hs.2 (by rw [hp]; decide)
  case noSpread | calibrated | timeout | locks | idleEnd | capacityEnd | preambleEnd | transmitted =>
    simp
  all_goals simpa using hs

theorem IterationEffect.sound {s t : State} (h : IterationEffect s t) (hs : s.Sound) : t.Sound where
  params := h.params ▸ hs.params
  threshold := h.cfg ▸ hs.threshold
  history := h.history hs
  capacity := h.capacity hs
  debounce := h.debounce hs
  busy := h.busy hs.busy
  window := h.window hs

/-! ### The clauses for the rule of a command -/

@[simp] theorem ruleOf_params (i : Instr) (s : State) : (ruleOf i s).params = s.params := by
  cases i <;> simp [ruleOf]

theorem ruleOf_window (i : Instr) {s : State} (hs : s.Sound) :
    Filed s.params.windowN (ruleOf i s).win := by
  have shifted (raw : Sample) : Filed s.params.windowN (shiftAppend s.win (some raw)) :=
    filed_shiftAppend hs.window (Nat.one_le_iff_ne_zero.1 hs.params.windowN_pos) raw
  have kept : Filed s.params.windowN s.win := hs.window
  cases i
  case winPush raw | pushSample raw => simpa [ruleOf] using shifted raw
  case winReset | bufReset | synchronize | receiveFrame => exact filed_replicate _
  all_goals simpa [ruleOf] using kept

theorem ruleOf_history (i : Instr) {s : State} (hs : s.Sound) :
    Filed histLen (ruleOf i s).hist := by
  have kept : Filed histLen s.hist := hs.history
  cases i
  case histAppend m2 nd => exact filed_shiftAppend hs.history (by decide) _
  case histClear | bufReset | synchronize | receiveFrame => exact filed_replicate _
  all_goals simpa [ruleOf] using kept

theorem ruleOf_capacity (i : Instr) {s : State} (hs : s.Sound) :
    hbLen (ruleOf i s) ≤ s.params.maxPacketHalfBits ∧ fbLen (ruleOf i s) ≤ s.params.maxPacketSize := by
  obtain ⟨hhb, hfb⟩ := hs.capacity
  cases i
  case bufReset | synchronize | receiveFrame | hbReset => exact ⟨Nat.zero_le _, Nat.zero_le _⟩
  case hbAppend m2 nd => exact hbAppend_lengths hhb hfb
  case hbFlush idle => exact finalize_lengths hhb hfb
  case decode =>
    exact enterDecode_lengths (s := startOperation 0x43 .decode (hbReset s)) (Nat.zero_le _)
      (Nat.zero_le _)
  all_goals simpa [ruleOf, hbLen, fbLen] using hs.capacity

theorem ruleOf_debounce (i : Instr) {s : State} (hs : s.Sound) :
    (ruleOf i s).det.deb ≤ debounceMin := by
  cases i
  case bufReset | synchronize | receiveFrame => exact Nat.zero_le _
  all_goals simpa [ruleOf] using hs.debounce

theorem ruleOf_threshold (i : Instr) {s : State} (hs : s.Sound) (hb : s.ctl.busy = false) :
    0 < (ruleOf i s).cfg.thrNum ∧ (ruleOf i s).cfg.thrNum < adcMax * (ruleOf i s).cfg.thrDen := by
  cases i
  case setFreq f =>
    rcases setFreq_cases f.toNat hb with e | ⟨-, -, e⟩ <;> simpa [ruleOf, e] using hs.threshold
  case setThresh =>
    rcases setThresh_cases hb with e | ⟨h0, h1, e⟩
    · simpa [ruleOf, e] using hs.threshold
    · simpa [ruleOf, e] using ⟨h0, h1⟩
  all_goals simpa [ruleOf] using hs.threshold

/-- A rule ends in the step it starts, or starts an operation: phase and `BUSY` together. -/
theorem ruleOf_busy (i : Instr) {s : State} (hs : s.ctl.busy = true ↔ s.seq.phase ≠ .idle)
    (hb : s.ctl.busy = false) :
    (ruleOf i s).ctl.busy = true ↔ (ruleOf i s).seq.phase ≠ .idle := by
  cases i
  case setFreq f =>
    rcases setFreq_cases f.toNat hb with e | ⟨-, -, e⟩ <;> simpa [ruleOf, e] using hs
  case setThresh => rcases setThresh_cases hb with e | ⟨-, -, e⟩ <;> simpa [ruleOf, e] using hs
  case calibrate | synchronize | decode | receiveFrame | sendPreamble | transmitFrame => simp [ruleOf]
  all_goals simpa [ruleOf] using hs

theorem ruleOf_sound (i : Instr) {s : State} (hs : s.Sound) (hb : s.ctl.busy = false) :
    (ruleOf i s).Sound where
  params := (ruleOf_params i s).symm ▸ hs.params
  threshold := ruleOf_threshold i hs hb
  history := ruleOf_history i hs
  capacity := (ruleOf_params i s).symm ▸ ruleOf_capacity i hs
  debounce := ruleOf_debounce i hs
  busy := ruleOf_busy i hs.busy hb
  window := (ruleOf_params i s).symm ▸ ruleOf_window i hs

/-! ### The step -/

theorem resetOf_sound {p : Params} (hp : p.Legal) (env : Env) (script : List HostAction) :
    (State.resetOf p env script).Sound where
  params := hp
  threshold := ⟨hp.threshold_pos, by simpa [State.resetOf] using hp.threshold_lt⟩
  history := filed_replicate _
  capacity := ⟨Nat.zero_le _, Nat.zero_le _⟩
  debounce := Nat.zero_le _
  busy := by simp [State.resetOf]
  window := filed_replicate _

theorem StepEffect.sound {issued : Instr → Prop} {s t : State} (h : StepEffect issued s t)
    (hs : s.Sound) : t.Sound := by
  obtain ⟨params, threshold, history, capacity, debounce, busy, window⟩ := hs
  cases h with
  | iteration t h =>
    obtain ⟨e, -, h⟩ := h
    exact h.sound ⟨params, threshold, history, capacity, debounce, busy, window⟩
  | reset calls => exact resetOf_sound params _ _
  | registerWrite a d hb => constructor <;> simpa [hbLen, fbLen]
  | command i hi hb hp =>
    exact ruleOf_sound i ⟨params, threshold, history, capacity, debounce, busy, window⟩ hb
  | hostRead | ignoredWrite | dropped | refused =>
    exact ⟨params, threshold, history, capacity, debounce, busy, window⟩

end Sys2Proof.Proofs
end

section
/-! Clause (d) of R44 under the expectation of R212 (log 13), and with it every clause of R44. -/

namespace Sys2Proof.Proofs

open Sys2Proof Sys2Proof.Machine Sys2Proof.Config Sys2Proof.Laws

/-- A phase of the receive path, in which no partial byte has been flushed yet. -/
abbrev Receiving (p : Phase) : Prop := p = .scan ∨ p = .settle ∨ p = .decode

theorem frameBound_of_not_receiving {s : State} (h : BytesBound s) (hp : ¬ Receiving s.seq.phase) :
    s.FrameBound := ⟨h, fun h => absurd h hp⟩

theorem frameWithinHalfBits_of_frameBound {s : State} (h : s.FrameBound) : s.FrameWithinHalfBits :=
  h.bytes.trans (Nat.add_le_add_left (Bool.toNat_le _) _)

theorem IterationEffect.frameBound {s t : State} (h : IterationEffect s t) (hs : s.FrameBound) :
    t.FrameBound := by
  obtain ⟨hbytes, hrun⟩ := hs
  cases h
  case idle | settles => exact ⟨hbytes, hrun⟩
  case minMax hp _ | midpoint hp _ | partition hp _ | preambleBit hp _ | dataBegins hp _ _ |
      dataBit hp | nextByte hp _ =>
    exact frameBound_of_not_receiving hbytes (by simp [hp])
  case noSpread | calibrated | timeout | locks | preambleEnd | transmitted =>
    exact frameBound_of_not_receiving hbytes (by simp)
  case scans hp _ _ | matched hp _ _ => exact ⟨hbytes, fun _ => hrun (.inl hp)⟩
  case decodes hp _ =>
    exact ⟨enterDecode_bytes hbytes, fun _ => (enterDecode_partial s).trans (hrun (.inr (.inl hp)))⟩
  case idleEnd hp =>
    exact frameBound_of_not_receiving (finalize_bytes true hbytes (hrun (.inr (.inr hp)))) (by simp)
  case listens raw m2 d n lv hp _ =>
    exact ⟨appendHold_bytes n lv (s := heard raw m2 d s) hbytes,
      fun _ => appendHold_partial n lv (s := heard raw m2 d s) (hrun (.inr (.inr hp)))⟩
  case capacityEnd raw m2 d n lv hp _ =>
    exact frameBound_of_not_receiving
      (finalize_bytes false (appendHold_bytes n lv (s := heard raw m2 d s) hbytes)
        (appendHold_partial n lv (s := heard raw m2 d s) (hrun (.inr (.inr hp))))) (by simp)

/-- The rule of a command keeps the bound, unless it flushes a partial byte a second time. -/
theorem ruleOf_bytes (i : Instr) {s : State} (h : BytesBound s)
    (hf : ∀ idle, i = .hbFlush idle → s.dec.partialByte = false) : BytesBound (ruleOf i s) := by
  cases i
  case bufReset | synchronize | receiveFrame | hbReset => exact Nat.zero_le _
  case hbAppend m2 nd => exact hbAppend_bytes _ h
  case hbFlush idle => exact finalize_bytes idle h (hf idle rfl)
  case decode =>
    exact enterDecode_bytes (s := startOperation 0x43 .decode (hbReset s)) (Nat.zero_le _)
  all_goals simpa [ruleOf, BytesBound, hbLen, fbLen] using h

/-- Only the receive operations start a phase of the receive path, and they start without a partial
byte. -/
theorem ruleOf_receiving (i : Instr) {s : State} (hb : s.ctl.busy = false) (hp : s.seq.phase = .idle)
    (h : Receiving (ruleOf i s).seq.phase) : (ruleOf i s).dec.partialByte = false := by
  cases i
  case synchronize | receiveFrame | decode => simp [ruleOf]
  case setFreq f =>
    rcases setFreq_cases f.toNat hb with e | ⟨-, -, e⟩ <;> simp [ruleOf, e, hp, Receiving] at h
  case setThresh =>
    rcases setThresh_cases hb with e | ⟨-, -, e⟩ <;> simp [ruleOf, e, hp, Receiving] at h
  all_goals simp [ruleOf, hp, Receiving] at h

theorem StepEffect.frameBound {issued : Instr → Prop} {s t : State} (h : StepEffect issued s t)
    (hbusy : s.ctl.busy = true ↔ s.seq.phase ≠ .idle) (hs : s.FrameBound)
    (hf : ∀ idle, issued (.hbFlush idle) → s.dec.partialByte = false) : t.FrameBound := by
  obtain ⟨hbytes, hrun⟩ := hs
  cases h with
  | iteration t h =>
    obtain ⟨e, -, h⟩ := h
    exact h.frameBound ⟨hbytes, hrun⟩
  | reset calls => exact ⟨Nat.zero_le _, fun _ => rfl⟩
  | registerWrite a d hb =>
    refine ⟨?_, fun h => ?_⟩
    · simpa [hbLen, fbLen] using hbytes
    · simpa using hrun (by simpa using h)
  | hostRead | ignoredWrite | dropped | refused => exact ⟨hbytes, hrun⟩
  | command i hi hb hp =>
    have hidle : s.seq.phase = .idle := by
      by_contra hne
      exact absurd (hbusy.2 hne) (by simp [hb])
    exact ⟨ruleOf_bytes i hbytes (fun idle e => hf idle (e ▸ hi)), ruleOf_receiving i hb hidle⟩

/-- Settles O53: the outcomes of a step, clause by clause. -/
theorem everyStepKeepsSound : Obligations.EveryStepKeepsSound := by
  intro s t hs h
  obtain ⟨rest, h⟩ := step_effect h
  refine ⟨h.sound ⟨hs.params, hs.threshold, hs.history, hs.capacity, hs.debounce, hs.busy, hs.window⟩,
    fun hfb hf => ?_⟩
  have ht := h.frameBound hs.busy ⟨hfb.bytes, hfb.running⟩ hf
  exact ⟨ht, frameWithinHalfBits_of_frameBound ht⟩

end Sys2Proof.Proofs
end

section
/-! Every step keeps the calibration registers' widths and meaning, and a valid result legal (10 R26, R27,
41 R133, R135). -/

namespace Sys2Proof.Proofs

open Sys2Proof Sys2Proof.Machine Sys2Proof.Config Sys2Proof.Laws

/-! ### The calibration registers by themselves -/

/-- What `CalibrationSound` says of the registers in every phase. -/
structure CalWidths (c : CalRegs) : Prop where
  counts : c.cnt < 2 ^ 24 ∧ c.loCnt + c.hiCnt < 2 ^ 24
  extremes : c.cmin ≤ adcMax ∧ c.cmax ≤ adcMax ∧ c.mid2 ≤ 2 * adcMax
  sums : c.loSum ≤ adcMax * c.loCnt ∧ c.hiSum ≤ adcMax * c.hiCnt
  result : c.calNum < 2 ^ 63 ∧ c.calDen < 2 ^ 63
  legal : c.calValid = true → 0 < c.calNum ∧ c.calNum < adcMax * c.calDen

/-- What the accumulators mean while the second scan runs, and when it has just ended: no more samples than
fit a count, and each group on its side of the midpoint (R133). -/
structure Groups (c : CalRegs) : Prop where
  fits : c.cnt + c.loCnt + c.hiCnt < 2 ^ 24
  below : 2 * c.loSum + c.loCnt ≤ c.mid2 * c.loCnt
  above : c.mid2 * c.hiCnt + c.hiCnt ≤ 2 * c.hiSum

theorem sample_le (raw : Sample) : raw.toNat ≤ adcMax := by
  have := raw.isLt
  simp only [adcMax]
  omega

/-- All that one sample of the second scan can do (R133). -/
theorem scanPartition_cases (raw : Nat) (c : CalRegs) :
    (2 * raw < c.mid2 ∧ scanPartition raw c =
      { c with loSum := c.loSum + raw, loCnt := c.loCnt + 1, cnt := c.cnt - 1 }) ∨
    (c.mid2 < 2 * raw ∧ scanPartition raw c =
      { c with hiSum := c.hiSum + raw, hiCnt := c.hiCnt + 1, cnt := c.cnt - 1 }) ∨
    scanPartition raw c = { c with cnt := c.cnt - 1 } := by
  unfold scanPartition
  split
  · exact .inl ⟨by assumption, rfl⟩
  · split
    · exact .inr (.inl ⟨by assumption, rfl⟩)
    · exact .inr (.inr rfl)

theorem scanMinMax_widths {c : CalRegs} (h : CalWidths c) (raw : Sample) :
    CalWidths (scanMinMax raw.toNat c) := by
  obtain ⟨⟨hcnt, hgroups⟩, ⟨hmin, hmax, hmid⟩, sums, result, legal⟩ := h
  exact ⟨⟨(Nat.sub_le _ _).trans_lt hcnt, hgroups⟩,
    ⟨(min_le_left _ _).trans hmin, max_le hmax (sample_le raw), hmid⟩, sums, result, legal⟩

theorem scanPartition_widths {c : CalRegs} (h : CalWidths c) (hg : Groups c) (hc : 1 ≤ c.cnt)
    (raw : Sample) : CalWidths (scanPartition raw.toNat c) := by
  obtain ⟨⟨hcnt, hgroups⟩, extremes, ⟨hlo, hhi⟩, result, legal⟩ := h
  have hfits := hg.fits
  have hraw := sample_le raw
  rcases scanPartition_cases raw.toNat c with ⟨-, e⟩ | ⟨-, e⟩ | e <;> rw [e]
  · exact ⟨⟨by dsimp only; omega, by dsimp only; omega⟩, extremes,
      ⟨by rw [Nat.mul_succ]; dsimp only; omega, hhi⟩, result, legal⟩
  · exact ⟨⟨by dsimp only; omega, by dsimp only; omega⟩, extremes,
      ⟨hlo, by rw [Nat.mul_succ]; dsimp only; omega⟩, result, legal⟩
  · exact ⟨⟨by dsimp only; omega, hgroups⟩, extremes, ⟨hlo, hhi⟩, result, legal⟩

/-- A sample joins the group on its side of the midpoint, or neither. -/
theorem scanPartition_groups {c : CalRegs} (h : Groups c) (hc : 1 ≤ c.cnt) (raw : Nat) :
    Groups (scanPartition raw c) := by
  obtain ⟨fits, below, above⟩ := h
  rcases scanPartition_cases raw c with ⟨hlt, e⟩ | ⟨hgt, e⟩ | e <;> rw [e]
  · exact ⟨by dsimp only; omega, by rw [Nat.mul_succ]; dsimp only; omega, above⟩
  · exact ⟨by dsimp only; omega, below, by rw [Nat.mul_succ]; dsimp only; omega⟩
  · exact ⟨by dsimp only; omega, below, above⟩

/-- The first scan's end fixes the midpoint and the count of the second scan (R132). -/
theorem midpoint_widths {c : CalRegs} {n : Nat} (h : CalWidths c) (hn : n < 2 ^ 24) :
    CalWidths { c with mid2 := c.cmin + c.cmax, cnt := n } := by
  obtain ⟨⟨-, hgroups⟩, ⟨hmin, hmax, -⟩, sums, result, legal⟩ := h
  exact ⟨⟨hn, hgroups⟩, ⟨hmin, hmax, by dsimp only; omega⟩, sums, result, legal⟩

/-- At the start of the second scan both groups are empty. -/
theorem midpoint_groups {c : CalRegs} {n : Nat} (h : CalWidths c) (hn : n < 2 ^ 24)
    (hlo : c.loCnt = 0) (hhi : c.hiCnt = 0) :
    Groups { c with mid2 := c.cmin + c.cmax, cnt := n } := by
  have hsum := h.sums.1
  rw [hlo] at hsum
  constructor <;> simp only [hlo, hhi] <;> omega

/-- The registers at the start of a calibration (R131). -/
theorem startCalibrate_widths {c : CalRegs} {n : Nat} (h : CalWidths c) (hn : n < 2 ^ 24) :
    CalWidths { c with calValid := false, calNum := 0, calDen := 1, cmin := adcMax, cmax := 0,
                       loSum := 0, loCnt := 0, hiSum := 0, hiCnt := 0, cnt := n } :=
  ⟨⟨hn, by simp⟩, ⟨le_rfl, Nat.zero_le _, h.extremes.2.2⟩, by simp, by simp, by simp⟩

/-- The mean of two groups of `L` and `H` samples with sums `lo` and `hi`, on either side of a midpoint, is a
legal threshold (R135). -/
theorem groupMean_legal {lo hi L H m : Nat} (hL : 0 < L) (hH : 0 < H) (hm : m ≤ 2 * adcMax)
    (hbelow : 2 * lo + L ≤ m * L) (habove : m * H + H ≤ 2 * hi) (hhi : hi ≤ adcMax * H) :
    0 < lo * H + hi * L ∧ lo * H + hi * L < adcMax * (2 * L * H) := by
  have hlo : lo < adcMax * L := by
    have := hbelow.trans (Nat.mul_le_mul_right L hm)
    rw [Nat.mul_assoc] at this
    omega
  have h1 : lo * H < adcMax * L * H := Nat.mul_lt_mul_of_pos_right hlo hH
  have h2 : hi * L ≤ adcMax * H * L := Nat.mul_le_mul_right L hhi
  have h3 : 0 < hi * L := Nat.mul_pos (by omega) hL
  have h4 : adcMax * (2 * L * H) = adcMax * L * H + adcMax * H * L := by ring
  omega

/-- The result of a calibration with two groups fits its registers and is legal (R134, R135). -/
theorem calibrated_widths {c : CalRegs} (h : CalWidths c) (hg : Groups c) (hL : c.loCnt ≠ 0)
    (hH : c.hiCnt ≠ 0) :
    CalWidths { c with calNum := c.loSum * c.hiCnt + c.hiSum * c.loCnt,
                       calDen := 2 * c.loCnt * c.hiCnt, calValid := true } := by
  obtain ⟨hpos, hlt⟩ := groupMean_legal (Nat.pos_of_ne_zero hL) (Nat.pos_of_ne_zero hH)
    h.extremes.2.2 hg.below hg.above h.sums.2
  have hden : 2 * c.loCnt * c.hiCnt ≤ 2 * 2 ^ 24 * 2 ^ 24 := by
    have hcounts := h.counts.2
    exact Nat.mul_le_mul (Nat.mul_le_mul_left 2 (by omega)) (by omega)
  refine ⟨h.counts, h.extremes, h.sums, ⟨?_, ?_⟩, fun _ => ⟨hpos, hlt⟩⟩
  · simp only [adcMax] at hlt
    dsimp only
    omega
  · dsimp only
    omega

/-! ### The calibration registers in a state -/

theorem calibrationSound_iff (s : State) :
    s.CalibrationSound ↔
      (1 ≤ s.arg.calScan1 ∧ s.arg.calScan1 < 2 ^ 24 ∧ 1 ≤ s.arg.calScan2 ∧
        s.arg.calScan2 < 2 ^ 24) ∧
      CalWidths s.cal ∧
      (s.seq.phase = .cal1 → s.cal.loCnt = 0 ∧ s.cal.hiCnt = 0) ∧
      (s.seq.phase = .cal2 → 1 ≤ s.cal.cnt ∧ Groups s.cal) := by
  constructor
  · rintro ⟨scans, counts, extremes, sums, result, legal, scan1, scan2⟩
    refine ⟨scans, ⟨counts, extremes, sums, result, legal⟩, scan1, fun h => ?_⟩
    obtain ⟨hc, fits, below, above⟩ := scan2 h
    exact ⟨hc, fits, below, above⟩
  · rintro ⟨scans, ⟨counts, extremes, sums, result, legal⟩, scan1, scan2⟩
    refine ⟨scans, counts, extremes, sums, result, legal, scan1, fun h => ?_⟩
    obtain ⟨hc, fits, below, above⟩ := scan2 h
    exact ⟨hc, fits, below, above⟩

/-- Outside a calibration nothing but the widths is claimed. -/
theorem calibrationSound_of_not_calibrating {s t : State} (hs : s.CalibrationSound)
    (harg : t.arg = s.arg) (hw : CalWidths t.cal)
    (hp : t.seq.phase ≠ .cal1 ∧ t.seq.phase ≠ .cal2) : t.CalibrationSound :=
  (calibrationSound_iff t).2
    ⟨harg ▸ hs.scans, hw, fun h => absurd h hp.1, fun h => absurd h hp.2⟩

/-- What leaves the scan counts and the calibration registers, and enters no calibration, keeps it all. -/
theorem calibrationSound_of_same {s t : State} (hs : s.CalibrationSound)
    (harg1 : t.arg.calScan1 = s.arg.calScan1) (harg2 : t.arg.calScan2 = s.arg.calScan2)
    (hcal : t.cal = s.cal)
    (hp : t.seq.phase = s.seq.phase ∨ (t.seq.phase ≠ .cal1 ∧ t.seq.phase ≠ .cal2)) :
    t.CalibrationSound := by
  rw [calibrationSound_iff] at hs ⊢
  obtain ⟨scans, widths, scan1, scan2⟩ := hs
  rw [harg1, harg2, hcal]
  rcases hp with hp | ⟨hp1, hp2⟩
  · rw [hp]
    exact ⟨scans, widths, scan1, scan2⟩
  · exact ⟨scans, widths, fun h => absurd h hp1, fun h => absurd h hp2⟩

theorem IterationEffect.calibrationSound {s t : State} (h : IterationEffect s t)
    (hs : s.CalibrationSound) : t.CalibrationSound := by
  obtain ⟨⟨h1, h1', h2, h2'⟩, widths, scan1, scan2⟩ := (calibrationSound_iff s).1 hs
  cases h
  case minMax raw hp _ =>
    exact (calibrationSound_iff _).2 ⟨⟨h1, h1', h2, h2'⟩, scanMinMax_widths widths raw,
      fun _ => scan1 hp, fun h => absurd (hp.symm.trans h) (by decide)⟩
  case midpoint c raw hp e =>
    have hw : CalWidths c := e ▸ scanMinMax_widths widths raw
    obtain ⟨hlo, hhi⟩ : c.loCnt = 0 ∧ c.hiCnt = 0 := e ▸ scan1 hp
    exact (calibrationSound_iff _).2 ⟨⟨h1, h1', h2, h2'⟩, midpoint_widths hw h2', by simp,
      fun _ => ⟨h2, midpoint_groups hw h2' hlo hhi⟩⟩
  case partition raw hp hc =>
    obtain ⟨hc1, hg⟩ := scan2 hp
    exact (calibrationSound_iff _).2 ⟨⟨h1, h1', h2, h2'⟩, scanPartition_widths widths hg hc1 raw,
      fun h => absurd (hp.symm.trans h) (by decide),
      fun _ => ⟨Nat.one_le_iff_ne_zero.2 hc, scanPartition_groups hg hc1 _⟩⟩
  case noSpread raw hp =>
    obtain ⟨hc1, hg⟩ := scan2 hp
    exact calibrationSound_of_not_calibrating hs rfl (scanPartition_widths widths hg hc1 raw) (by simp)
  case calibrated c raw hp e hL hH =>
    obtain ⟨hc1, hg⟩ := scan2 hp
    exact calibrationSound_of_not_calibrating hs rfl
      (calibrated_widths (e ▸ scanPartition_widths widths hg hc1 raw)
        (e ▸ scanPartition_groups hg hc1 _) hL hH) (by simp)
  all_goals exact calibrationSound_of_same hs (by simp) (by simp) (by simp) (by simp)

theorem ruleOf_calibrationSound (i : Instr) {s : State} (hs : s.CalibrationSound)
    (hb : s.ctl.busy = false) : (ruleOf i s).CalibrationSound := by
  cases i
  case calibrate =>
    obtain ⟨h1, h1', h2, h2'⟩ := hs.scans
    obtain ⟨-, widths, -, -⟩ := (calibrationSound_iff s).1 hs
    exact (calibrationSound_iff _).2 ⟨⟨h1, h1', h2, h2'⟩, startCalibrate_widths widths h1',
      fun _ => ⟨rfl, rfl⟩, by simp [ruleOf]⟩
  case setFreq f =>
    rcases setFreq_cases f.toNat hb with e | ⟨-, -, e⟩ <;> rw [ruleOf, e] <;>
      exact calibrationSound_of_same hs rfl rfl rfl (.inl rfl)
  case setThresh =>
    rcases setThresh_cases hb with e | ⟨-, -, e⟩ <;> rw [ruleOf, e] <;>
      exact calibrationSound_of_same hs rfl rfl rfl (.inl rfl)
  all_goals
    exact calibrationSound_of_same hs (by simp [ruleOf]) (by simp [ruleOf]) (by simp [ruleOf])
      (by simp [ruleOf])

/-- A host write stores a scan count only when it is a legal one (10 R40). -/
theorem writeRegister_scans (a : Nat) (d : HostWord) {s : State} (hs : s.CalibrationSound) :
    1 ≤ (writeRegister a d s).arg.calScan1 ∧ (writeRegister a d s).arg.calScan1 < 2 ^ 24 ∧
    1 ≤ (writeRegister a d s).arg.calScan2 ∧ (writeRegister a d s).arg.calScan2 < 2 ^ 24 := by
  obtain ⟨h1, h1', h2, h2'⟩ := hs.scans
  have hd : d.toNat % 2 ^ 24 < 2 ^ 24 := Nat.mod_lt _ (by decide)
  unfold writeRegister
  repeat' split
  all_goals (try dsimp only); refine ⟨?_, ?_, ?_, ?_⟩ <;> omega

theorem resetOf_calibrationSound (p : Params) (env : Env) (script : List HostAction) :
    (State.resetOf p env script).CalibrationSound := by
  constructor <;> simp [State.resetOf, adcMax]

theorem StepEffect.calibrationSound {issued : Instr → Prop} {s t : State} (h : StepEffect issued s t)
    (hs : s.CalibrationSound) : t.CalibrationSound := by
  cases h with
  | iteration t h =>
    obtain ⟨e, -, h⟩ := h
    exact h.calibrationSound (calibrationSound_of_same hs rfl rfl rfl (.inl rfl))
  | reset calls => exact resetOf_calibrationSound _ _ _
  | registerWrite a d hb =>
    obtain ⟨-, widths, scan1, scan2⟩ := (calibrationSound_iff s).1 hs
    exact (calibrationSound_iff _).2
      ⟨writeRegister_scans a d hs, by simpa using widths, by simpa using scan1, by simpa using scan2⟩
  | command i hi hb hp =>
    exact ruleOf_calibrationSound i (calibrationSound_of_same hs rfl rfl rfl (.inl rfl)) hb
  | hostRead | ignoredWrite | dropped | refused =>
    exact calibrationSound_of_same hs rfl rfl rfl (.inl rfl)

/-- Settles O54: the outcomes of a step; the iterations of a calibration are the ones that matter. -/
theorem everyStepKeepsCalibrationSound : Obligations.EveryStepKeepsCalibrationSound := by
  intro s t hs h
  obtain ⟨rest, h⟩ := step_effect h
  exact h.calibrationSound (calibrationSound_of_same hs rfl rfl rfl (.inl rfl))

end Sys2Proof.Proofs
end

section
/-! The sequencer (10 R24, R25, R30): the phase edges, who sets `LOCKED`, and what the phase says of the
other registers; and the transmit buffer (10 R37). -/

namespace Sys2Proof.Proofs

open Sys2Proof Sys2Proof.Machine Sys2Proof.Config Sys2Proof.Laws

/-! ### Phase edges -/

/-- An iteration passes along an edge of the phase. -/
theorem IterationEffect.phaseEdge {s t : State} (h : IterationEffect s t) :
    phaseEdge s.seq.phase t.seq.phase = true := by
  cases h
  case transmitted hp => rcases hp with hp | hp <;> simp [hp, Machine.phaseEdge]
  case idle hp | settles hp => simp [hp, Machine.phaseEdge]
  case minMax hp _ | midpoint hp _ | partition hp _ | noSpread hp | calibrated hp _ _ _ =>
    simp [hp, Machine.phaseEdge]
  case timeout hp _ | scans hp _ _ | matched hp _ _ | locks hp _ | decodes hp _ =>
    simp [hp, Machine.phaseEdge]
  case idleEnd hp | listens hp _ | capacityEnd hp _ => simp [hp, Machine.phaseEdge]
  case preambleBit hp _ | preambleEnd hp _ | dataBegins hp _ _ | dataBit hp | nextByte hp _ =>
    simp [hp, Machine.phaseEdge]

/-- Settles O59: with no host action pending a step is an iteration, and each of its outcomes is an edge. -/
theorem iterationsFollowThePhaseEdges : Obligations.IterationsFollowThePhaseEdges := by
  intro s t hs h
  rcases step_cases h with ⟨-, rfl⟩ | ⟨a, rest, hs', -⟩
  · obtain ⟨e, -, h⟩ := iterate_effect s
    exact h.phaseEdge
  · rw [hs] at hs'; cases hs'

/-! ### `LOCKED` -/

/-- The rule of a command leaves the lock as admission left it. -/
theorem ruleOf_locked (i : Instr) (s : State) : (ruleOf i s).ctl.locked = s.ctl.locked := by
  cases i
  case setFreq f => simp only [ruleOf, setFreq]; split <;> simp
  case setThresh => simp only [ruleOf, setThresh]; split <;> simp
  all_goals simp [ruleOf]

/-- Of all iterations only the end of a `SYNCHRONIZE` that found the preamble sets the lock. -/
theorem IterationEffect.sets_locked {s t : State} (h : IterationEffect s t)
    (hs : s.ctl.locked = false) (ht : t.ctl.locked = true) :
    s.seq.phase = .settle ∧ s.seq.op = 0x33 ∧ t.seq.phase = .idle ∧ t.ctl.busy = false ∧
      t.ctl.done = true ∧ t.ctl.code = .ok := by
  cases h
  case locks hp hop => exact ⟨hp, hop, rfl, rfl, rfl, rfl⟩
  all_goals simp [hs] at ht

/-- Settles O30: neither a host action nor the rule of a command sets the lock. -/
theorem onlySynchronizeSetsLocked : Obligations.OnlySynchronizeSetsLocked := by
  intro s t h hs ht
  obtain ⟨rest, h⟩ := step_effect h
  cases h with
  | iteration t h =>
    obtain ⟨e, -, h⟩ := h
    exact h.sets_locked hs ht
  | refused e l d hb hl => exact absurd (hl ht) (by simp [hs])
  | command i hi hb hp => simp [ruleOf_locked, hs] at ht
  | reset calls => simp [State.resetOf] at ht
  | hostRead e | ignoredWrite | registerWrite a d hb | dropped => simp [hs] at ht

/-! ### What the phase says of the other registers -/

/-- A multi-step operation in progress (46 R255). -/
def Running (k : CtlRegs) : Prop := k.busy = true ∧ k.done = false ∧ k.locked = false

/-- `SequencerSound`, phase by phase. -/
def PhaseSound (s : State) : Phase → Prop
  | .idle => s.ctl.busy = false ∧ (s.ctl.locked = true → s.cfg.freq ≠ 0)
  | .cal1 => Running s.ctl ∧ s.seq.op = 0x21
  | .cal2 => Running s.ctl ∧ s.seq.op = 0x21
  | .scan => Running s.ctl ∧ (s.seq.op = 0x33 ∨ s.seq.op = 0x44) ∧ s.cfg.freq ≠ 0 ∧
      s.dec.hb = [] ∧ s.dec.fb = []
  | .settle => Running s.ctl ∧ (s.seq.op = 0x33 ∨ s.seq.op = 0x44) ∧ s.cfg.freq ≠ 0 ∧
      s.dec.hb = [] ∧ s.dec.fb = []
  | .decode => Running s.ctl ∧ (s.seq.op = 0x43 ∨ s.seq.op = 0x44) ∧ s.cfg.freq ≠ 0 ∧
      s.dec.carry = none
  | .txPre => Running s.ctl ∧ (s.seq.op = 0x51 ∨ (s.seq.op = 0x52 ∧ s.cfg.freq ≠ 0))
  | .txData => Running s.ctl ∧ s.seq.op = 0x52 ∧ s.cfg.freq ≠ 0 ∧ s.tx.txIdx < s.tx.txLen

theorem PhaseSound.running {s : State} {p : Phase} (h : PhaseSound s p) (hp : p ≠ .idle) :
    Running s.ctl := by
  cases p
  case idle => exact absurd rfl hp
  all_goals exact h.1

theorem sequencerSound_iff (s : State) : s.SequencerSound ↔ PhaseSound s s.seq.phase := by
  constructor
  · rintro ⟨busy, running, locked, calibrating, synchronizing, decoding, preamble, data⟩
    have run (hp : s.seq.phase ≠ .idle) : Running s.ctl :=
      ⟨busy.2 hp, (running (busy.2 hp)).1, (running (busy.2 hp)).2⟩
    cases hp : s.seq.phase
    case idle => exact ⟨by simpa [hp] using busy, locked⟩
    case cal1 => exact ⟨run (by simp [hp]), calibrating (.inl hp)⟩
    case cal2 => exact ⟨run (by simp [hp]), calibrating (.inr hp)⟩
    case scan => exact ⟨run (by simp [hp]), synchronizing (.inl hp)⟩
    case settle => exact ⟨run (by simp [hp]), synchronizing (.inr hp)⟩
    case decode => exact ⟨run (by simp [hp]), decoding hp⟩
    case txPre => exact ⟨run (by simp [hp]), preamble hp⟩
    case txData => exact ⟨run (by simp [hp]), data hp⟩
  · intro h
    have freq_of_locked (hl : s.ctl.locked = true) : s.cfg.freq ≠ 0 := by
      by_cases hp : s.seq.phase = .idle
      · rw [hp] at h; exact h.2 hl
      · obtain ⟨-, -, hl'⟩ := h.running hp
        exact absurd hl (by simp [hl'])
    have busy_iff : s.ctl.busy = true ↔ s.seq.phase ≠ .idle := by
      refine ⟨fun hb hp => ?_, fun hp => (h.running hp).1⟩
      rw [hp] at h
      exact absurd hb (by simp [h.1])
    refine ⟨busy_iff, fun hb => ?_, freq_of_locked, ?_, ?_, fun hp => ?_, fun hp => ?_, fun hp => ?_⟩
    · exact (h.running (busy_iff.1 hb)).2
    · rintro (hp | hp) <;> rw [hp] at h <;> exact h.2
    · rintro (hp | hp) <;> rw [hp] at h <;> exact h.2
    all_goals rw [hp] at h; exact h.2

/-- An operation that has ended leaves the block idle, and the lock as it was. -/
theorem phaseSound_ended {s t : State} (h : PhaseSound s s.seq.phase) (hb : t.ctl.busy = false)
    (hl : t.ctl.locked = s.ctl.locked) (hf : t.cfg.freq = s.cfg.freq) : PhaseSound t .idle := by
  refine ⟨hb, fun hlt => ?_⟩
  rw [hl] at hlt
  rw [hf]
  exact ((sequencerSound_iff s).2 h).locked hlt

theorem IterationEffect.phaseSound {s t : State} (h : IterationEffect s t)
    (hs : PhaseSound s s.seq.phase) : PhaseSound t t.seq.phase := by
  have ended := @phaseSound_ended s
  cases h
  case idle | settles => exact hs
  case minMax hp _ | partition hp _ => rw [hp] at hs ⊢; exact hs
  case midpoint hp _ => rw [hp] at hs; exact hs
  case noSpread | calibrated | preambleEnd | transmitted => exact ended hs rfl rfl rfl
  case timeout => exact ⟨rfl, by simp⟩
  case scans hp _ _ =>
    rw [hp] at hs
    simp only [hp]
    exact hs
  case matched hp _ _ =>
    rw [hp] at hs
    exact hs
  case locks hp _ => rw [hp] at hs; exact ⟨rfl, fun _ => hs.2.2.1⟩
  case decodes hp hop =>
    rw [hp] at hs
    obtain ⟨run, hop', hf, -⟩ := hs
    rw [enterDecode_seq]
    exact ⟨by simpa using run, by simpa using .inr (hop'.resolve_left hop), by simpa using hf,
      enterDecode_carry s⟩
  case idleEnd hp => exact ended hs rfl (by simp) (by simp)
  case capacityEnd hp _ => exact ended hs rfl (by simp) (by simp)
  case listens hp _ =>
    rw [hp] at hs
    simpa [hp, PhaseSound] using hs
  case preambleBit hp _ => rw [hp] at hs; simpa [hp, PhaseSound] using hs
  case dataBegins hp hop hlen =>
    rw [hp] at hs
    obtain ⟨run, hop'⟩ := hs
    obtain ⟨hop', hf⟩ := hop'.resolve_left hop
    exact ⟨run, hop', hf, Nat.pos_of_ne_zero hlen⟩
  case dataBit hp => rw [hp] at hs; simpa [hp, PhaseSound] using hs
  case nextByte hp hne =>
    rw [hp] at hs
    obtain ⟨run, hop, hf, hlt⟩ := hs
    simp only [hp]
    exact ⟨run, hop, hf, by dsimp only; omega⟩

/-- The precondition of an operation that needs the bit rate. -/
theorem freq_of_needsFreq {s : State} (h : needsFreq s = none) : s.cfg.freq ≠ 0 := by
  intro hf
  simp [needsFreq, hf] at h

theorem freq_of_needsFreqAndLock {s : State} (h : needsFreqAndLock s = none) : s.cfg.freq ≠ 0 := by
  intro hf
  simp [needsFreqAndLock, hf] at h

/-- An accepted command either ends in the same step or leaves its operation in progress. -/
theorem ruleOf_phaseSound (i : Instr) {s : State} (hs : PhaseSound s .idle) (hp : s.seq.phase = .idle)
    (hpre : preOf s i = none) :
    PhaseSound (ruleOf i (admission (keepsLock i) s))
      (ruleOf i (admission (keepsLock i) s)).seq.phase := by
  obtain ⟨hb, hl⟩ := hs
  have run (i : Instr) (hi : keepsLock i = false) : Running
      { (admission (keepsLock i) s).ctl with busy := true } := ⟨rfl, rfl, by simp [hi]⟩
  cases i
  case calibrate => exact ⟨run .calibrate rfl, rfl⟩
  case synchronize =>
    exact ⟨run .synchronize rfl, .inl rfl, freq_of_needsFreq hpre, rfl, rfl⟩
  case receiveFrame =>
    exact ⟨run .receiveFrame rfl, .inr rfl, freq_of_needsFreq hpre, rfl, rfl⟩
  case decode =>
    have hf := freq_of_needsFreqAndLock hpre
    have hrun := run .decode rfl
    simpa [ruleOf, PhaseSound] using ⟨hrun, hf⟩
  case sendPreamble => exact ⟨run .sendPreamble rfl, .inl rfl⟩
  case transmitFrame => exact ⟨run .transmitFrame rfl, .inr ⟨rfl, freq_of_needsFreq hpre⟩⟩
  case setFreq f =>
    rw [show ruleOf (.setFreq f) (admission (keepsLock (.setFreq f)) s) =
      setFreq f.toNat (admission false s) from rfl]
    rcases setFreq_cases (s := admission false s) f.toNat hb with e | ⟨-, -, e⟩ <;>
      simp [e, hp, hb, PhaseSound]
  case setThresh =>
    rw [show ruleOf .setThresh (admission (keepsLock .setThresh) s) =
      setThresh (admission false s) from rfl]
    rcases setThresh_cases (s := admission false s) hb with e | ⟨-, -, e⟩ <;>
      simp [e, hp, hb, PhaseSound]
  case nop => simpa [ruleOf, hp, hb, PhaseSound, keepsLock] using hl
  all_goals simp [ruleOf, hp, hb, PhaseSound, keepsLock]

theorem StepEffect.phaseSound {issued : Instr → Prop} {s t : State} (h : StepEffect issued s t)
    (hs : PhaseSound s s.seq.phase) : PhaseSound t t.seq.phase := by
  have idle_of_free (hb : s.ctl.busy = false) : s.seq.phase = .idle := by
    by_contra hne
    exact absurd (hs.running hne).1 (by simp [hb])
  cases h with
  | iteration t h =>
    obtain ⟨e, -, h⟩ := h
    exact h.phaseSound hs
  | reset calls => exact ⟨rfl, by simp [State.resetOf]⟩
  | registerWrite a d hb =>
    rw [idle_of_free hb] at hs
    simpa [idle_of_free hb, PhaseSound] using hs
  | hostRead | ignoredWrite | dropped => exact hs
  | refused e l d hb hl =>
    rw [idle_of_free hb] at hs
    simp only [idle_of_free hb]
    exact ⟨hb, fun h => hs.2 (hl h)⟩
  | command i hi hb hp =>
    have hidle := idle_of_free hb
    rw [hidle] at hs
    exact ruleOf_phaseSound i hs hidle hp

/-- Settles O57: the outcomes of a step, phase by phase. -/
theorem everyStepKeepsSequencerSound : Obligations.EveryStepKeepsSequencerSound := by
  intro s t hs h
  obtain ⟨rest, h⟩ := step_effect h
  rw [sequencerSound_iff] at hs ⊢
  exact h.phaseSound hs

/-! ### The transmit buffer -/

theorem IterationEffect.txMem {s t : State} (h : IterationEffect s t) : t.tx.mem = s.tx.mem := by
  cases h <;> simp

theorem ruleOf_txMem (i : Instr) (s : State) : (ruleOf i s).tx.mem = s.tx.mem := by
  cases i <;> simp [ruleOf]

/-- A host write to the window of `TX` stores one byte (10 R40). -/
theorem writeRegister_txWindow {a : Nat} (d : HostWord) {s : State}
    (ha : 0x20000 ≤ a ∧ a < 0x20000 + s.params.txMax) :
    writeRegister a d s =
      { s with tx := { s.tx with mem := memWrite s.tx.mem (a - 0x20000) (d.setWidth 8) } } := by
  unfold writeRegister
  rw [if_neg (by omega), if_neg (by omega), if_neg (by omega), if_neg (by omega), if_neg (by omega),
    if_pos ha]

/-- A host write elsewhere leaves `TX`. -/
theorem writeRegister_txMem_of_not {a : Nat} (d : HostWord) {s : State}
    (ha : ¬ (0x20000 ≤ a ∧ a < 0x20000 + s.params.txMax)) :
    (writeRegister a d s).tx.mem = s.tx.mem := by
  unfold writeRegister
  rw [if_neg ha]
  (repeat' split) <;> rfl

/-- A host write keeps the transmit buffer canonical and below `TX_MAX`. -/
theorem writeRegister_txCanonical (a : Nat) (d : HostWord) {s : State} (hs : s.TxCanonical) :
    (writeRegister a d s).TxCanonical := by
  by_cases ha : 0x20000 ≤ a ∧ a < 0x20000 + s.params.txMax
  · obtain ⟨hwf, hlt⟩ := hs
    rw [writeRegister_txWindow d ha]
    refine ⟨memWrite_wf _ _ hwf, fun c hc => ?_⟩
    rcases mem_memWrite hc with ⟨rfl, -⟩ | hc
    · dsimp only; omega
    · exact hlt c hc
  · simpa [State.TxCanonical, writeRegister_txMem_of_not d ha] using hs

/-- Settles O56: only a host write and the reset write the transmit buffer. -/
theorem everyStepKeepsTxCanonical : Obligations.EveryStepKeepsTxCanonical := by
  intro s t hs h
  obtain ⟨rest, h⟩ := step_effect h
  cases h with
  | iteration t h =>
    obtain ⟨e, -, h⟩ := h
    simpa [State.TxCanonical, h.txMem, h.params] using hs
  | reset calls => exact ⟨⟨List.Pairwise.nil, by simp [State.resetOf]⟩, by simp [State.resetOf]⟩
  | registerWrite a d hb => exact writeRegister_txCanonical a d hs
  | command i hi hb hp => simpa [State.TxCanonical, ruleOf_txMem] using hs
  | hostRead | ignoredWrite | dropped | refused => exact hs

end Sys2Proof.Proofs
end

section
/-! The ranges of the remaining registers and the flags that mirror a register (10 R21 to R43); and the state
after reset (10 R45). -/

namespace Sys2Proof.Proofs

open Sys2Proof Sys2Proof.Machine Sys2Proof.Config Sys2Proof.Laws

/-! ### The conditioner registers (R22, R30) -/

/-- What `InRange` says of the conditioner registers. -/
structure CondRange (c : CondRegs) : Prop where
  median : c.median2 ≤ 2 * adcMax
  nodata : c.nodata = true ↔ c.level = .noData
  high : c.high = true ↔ ∃ q, c.level = .ratio q ∧ 1 ≤ q

/-- The comparator of 40 R116 compares the stored ratio with 1. -/
theorem highFlag_iff {s : State} (m2 : Nat) (h : 0 < s.cfg.thrNum) :
    highFlag m2 s = true ↔ ∃ q, levelOf m2 s = .ratio q ∧ 1 ≤ q := by
  have hpos : (0 : Rat) < ((2 * s.cfg.thrNum : Nat) : Rat) := by exact_mod_cast (by omega)
  have key : (1 : Rat) ≤ mkRat ((m2 * s.cfg.thrDen : Nat) : Int) (2 * s.cfg.thrNum) ↔
      2 * s.cfg.thrNum ≤ m2 * s.cfg.thrDen := by
    rw [Rat.mkRat_eq_div, one_le_div hpos]
    exact_mod_cast Iff.rfl
  rw [highFlag, decide_eq_true_iff, ← key]
  exact ⟨fun hq => ⟨_, rfl, hq⟩, fun ⟨_, e, hq⟩ => by cases e; exact hq⟩

theorem heard_condRange {s : State} {m2 : Nat} (hm : m2 ≤ 2 * adcMax) (h : 0 < s.cfg.thrNum) :
    CondRange { median2 := m2, level := levelOf m2 s, nodata := false, high := highFlag m2 s } :=
  ⟨hm, by simp [levelOf], highFlag_iff m2 h⟩

theorem freshCond_range :
    CondRange { median2 := 0, level := .noData, nodata := true, high := false } :=
  ⟨Nat.zero_le _, by simp, by simp⟩

theorem winMedian_condRange {s : State} (hc : CondRange s.cond) (h : 0 < s.cfg.thrNum) :
    CondRange (winMedian s).cond := by
  rcases winMedian_cases s with ⟨-, e⟩ | ⟨m2, hm, e⟩ <;> rw [e]
  · exact ⟨hc.median, by simp, by simp⟩
  · exact heard_condRange (doubledMedian_le hm) h

theorem IterationEffect.condRange {s t : State} (h : IterationEffect s t) (hc : CondRange s.cond)
    (hthr : 0 < s.cfg.thrNum) : CondRange t.cond := by
  cases h
  case scans hh | matched hh => exact heard_condRange hh.median hthr
  case listens hh | capacityEnd hh => simpa using heard_condRange hh.median hthr
  all_goals simpa using hc

theorem ruleOf_condRange (i : Instr) {s : State} (hc : CondRange s.cond) (hthr : 0 < s.cfg.thrNum) :
    CondRange (ruleOf i s).cond := by
  cases i
  case winMedian => exact winMedian_condRange hc hthr
  case pushSample raw => exact winMedian_condRange (s := winPush raw s) hc hthr
  case bufReset | synchronize | receiveFrame => exact freshCond_range
  all_goals simpa [ruleOf] using hc

/-! ### The marks of the decoder (R28, R30) -/

/-- What `InRange` says of the decoder registers: the marked bytes are bytes of the frame, and `AMBIG` says
whether there is one. -/
def AmbigRange (d : DecRegs) : Prop :=
  d.ambigCount ≤ d.fb.length ∧ (d.ambig = true ↔ 0 < d.ambigCount)

theorem byteClose_ambigRange (start n : Nat) {s : State} (h : AmbigRange s.dec) :
    AmbigRange (byteClose start n s).2.dec := by
  obtain ⟨hle, hiff⟩ := h
  rcases byteClose_cases start n s with ⟨-, e⟩ | ⟨-, b, skip, -, e⟩ <;> rw [e]
  · exact ⟨hle, hiff⟩
  · cases skip
    · exact ⟨by simp; omega, by simpa using hiff⟩
    · exact ⟨by simpa using hle, by simp⟩

theorem hbAppend_ambigRange (lv : Level) {s : State} (h : AmbigRange s.dec) :
    AmbigRange (hbAppend lv s).2.dec := by
  rcases hbAppend_cases lv s with ⟨-, e⟩ | ⟨-, -, e⟩ | ⟨-, -, e⟩ <;> rw [e]
  · exact h
  · exact h
  · exact byteClose_ambigRange _ _ (s := storeHalfBit lv s) h

theorem appendHold_ambigRange (n : Nat) (lv : Level) {s : State} (h : AmbigRange s.dec) :
    AmbigRange (appendHold n lv s).2.dec :=
  appendHold_induction (P := fun s => AmbigRange s.dec) (fun lv _ => hbAppend_ambigRange lv) n lv h

theorem enterDecode_ambigRange {s : State} (h : AmbigRange s.dec) :
    AmbigRange (enterDecode s).dec := by
  rcases enterDecode_cases s with ⟨-, e⟩ | ⟨lv, -, e⟩ <;> rw [e]
  · exact h
  · exact hbAppend_ambigRange lv (s := { s with seq := { s.seq with phase := .decode } }) h

theorem finalize_ambigRange (idle : Bool) {s : State} (h : AmbigRange s.dec) :
    AmbigRange (finalize idle s).dec := by
  have completed : AmbigRange (completeAtIdle idle s).dec := by
    rcases completeAtIdle_cases idle s with e | ⟨lv, e⟩ <;> rw [e]
    · exact h
    · exact hbAppend_ambigRange lv h
  rw [finalize_dec]
  rcases flushPartial_cases (completeAtIdle idle s) with ⟨-, e⟩ | ⟨t, ht, e⟩ <;> rw [e]
  · exact completed
  · have : AmbigRange t.dec := ht ▸ byteClose_ambigRange _ _ completed
    exact this

theorem IterationEffect.ambigRange {s t : State} (h : IterationEffect s t)
    (ha : AmbigRange s.dec) : AmbigRange t.dec := by
  cases h
  case decodes => exact enterDecode_ambigRange ha
  case idleEnd => exact finalize_ambigRange _ ha
  case listens raw m2 d n lv _ _ => exact appendHold_ambigRange n lv (s := heard raw m2 d s) ha
  case capacityEnd raw m2 d n lv _ _ =>
    exact finalize_ambigRange _ (appendHold_ambigRange n lv (s := heard raw m2 d s) ha)
  all_goals exact ha

theorem ruleOf_ambigRange (i : Instr) {s : State} (ha : AmbigRange s.dec) :
    AmbigRange (ruleOf i s).dec := by
  have fresh : ∀ d : DecRegs, d.fb = [] → d.ambigCount = 0 → d.ambig = false → AmbigRange d :=
    fun d _ hc ha => ⟨by omega, by simp [hc, ha]⟩
  cases i
  case bufReset | synchronize | receiveFrame | hbReset => exact fresh _ rfl rfl rfl
  case decode =>
    exact enterDecode_ambigRange (s := startOperation 0x43 .decode (hbReset s)) (fresh _ rfl rfl rfl)
  case hbAppend m2 nd => exact hbAppend_ambigRange _ ha
  case hbFlush idle => exact finalize_ambigRange _ ha
  all_goals simpa [ruleOf] using ha

/-! ### The frame length of `RESULT` (R43) -/

theorem IterationEffect.frameLen {s t : State} (h : IterationEffect s t) (hs : s.Sound)
    (hf : s.ctl.frameLen ≤ s.params.maxPacketSize) : t.ctl.frameLen ≤ t.params.maxPacketSize := by
  have hcap := (h.capacity hs).2
  rw [h.params] at hcap ⊢
  cases h
  case idleEnd | capacityEnd => simpa using hcap
  case timeout => exact Nat.zero_le _
  all_goals simpa using hf

theorem ruleOf_frameLen (i : Instr) {s : State} (hs : s.Sound)
    (hf : s.ctl.frameLen ≤ s.params.maxPacketSize) :
    (ruleOf i s).ctl.frameLen ≤ s.params.maxPacketSize := by
  have hcap := (ruleOf_capacity i hs).2
  cases i
  case hbFlush idle => exact hcap
  case setFreq f => simp only [ruleOf, setFreq]; split <;> simpa using hf
  case setThresh => simp only [ruleOf, setThresh]; split <;> simpa using hf
  all_goals simpa [ruleOf] using hf

/-! ### The encoder's registers (R32) -/

theorem IterationEffect.transmit {s t : State} (h : IterationEffect s t)
    (hs : s.tx.txLen ≤ s.params.txMax ∧ s.tx.bitIdx ≤ 7) :
    t.tx.txLen ≤ t.params.txMax ∧ t.tx.bitIdx ≤ 7 := by
  obtain ⟨hlen, hbit⟩ := hs
  rw [h.params]
  cases h
  case preambleBit hlt => exact ⟨hlen, hlt⟩
  case preambleEnd | dataBegins | nextByte | transmitted => exact ⟨hlen, le_rfl⟩
  case dataBit => exact ⟨hlen, (Nat.sub_le _ _).trans hbit⟩
  all_goals simpa using ⟨hlen, hbit⟩

theorem ruleOf_transmit (i : Instr) {s : State}
    (hs : s.tx.txLen ≤ s.params.txMax ∧ s.tx.bitIdx ≤ 7) :
    (ruleOf i s).tx.txLen ≤ s.params.txMax ∧ (ruleOf i s).tx.bitIdx ≤ 7 := by
  cases i
  case sendPreamble | transmitFrame => exact ⟨hs.1, Nat.zero_le _⟩
  all_goals simpa [ruleOf] using hs

/-! ### Times (R23, R24) -/

theorem inInt64_zero : InInt64 0 := by unfold InInt64; decide

/-- What `InRange` says of times. -/
def TimesRange (s : State) : Prop :=
  InInt64 s.det.tLast ∧ InInt64 s.seq.tStart ∧ InInt64 s.seq.tSettle ∧ InInt64 s.env.lastNow

theorem ClockAdvance.inInt64 {e e' : Env} (h : ClockAdvance e e') (hr : InInt64 e.lastNow) :
    InInt64 e'.lastNow := ⟨hr.1.trans h.ge, h.lt hr.2⟩

@[simp] theorem finalize_lastNow (idle : Bool) (s : State) :
    (finalize idle s).env.lastNow = s.env.lastNow := by
  rw [(finalize_handOver idle s).1]

/-- Every time an iteration latches is the clock value it saw. -/
theorem IterationEffect.times {s t : State} (h : IterationEffect s t) (hs : TimesRange s) :
    TimesRange t := by
  obtain ⟨hlast, hstart, hsettle, hnow⟩ := hs
  have started {t0 : Int} (h : t0 = s.seq.tStart ∨ t0 = s.env.lastNow) : InInt64 t0 := by
    rcases h with rfl | rfl <;> assumption
  have detected {m2 : Nat} {d : DetRegs} (h : Heard s m2 d) : InInt64 d.tLast := by
    rcases h.time with e | e <;> rw [e] <;> assumption
  cases h
  case timeout ht => exact ⟨hlast, started ht, hsettle, hnow⟩
  case scans ht hh => exact ⟨detected hh, started ht, hsettle, hnow⟩
  case matched ht hh => exact ⟨detected hh, started ht, hnow, hnow⟩
  case listens hh | capacityEnd hh => simpa [TimesRange] using ⟨detected hh, hstart, hsettle, hnow⟩
  all_goals simpa [TimesRange] using ⟨hlast, hstart, hsettle, hnow⟩

theorem ruleOf_times (i : Instr) {s : State} (hb : s.ctl.busy = false) (hs : TimesRange s) :
    TimesRange (ruleOf i s) := by
  obtain ⟨hlast, hstart, hsettle, hnow⟩ := hs
  cases i
  case bufReset | synchronize | receiveFrame => exact ⟨inInt64_zero, hstart, hsettle, hnow⟩
  case setFreq f =>
    rcases setFreq_cases f.toNat hb with e | ⟨-, -, e⟩ <;>
      simpa [TimesRange, ruleOf, e] using ⟨hlast, hstart, hsettle, hnow⟩
  case setThresh =>
    rcases setThresh_cases hb with e | ⟨-, -, e⟩ <;>
      simpa [TimesRange, ruleOf, e] using ⟨hlast, hstart, hsettle, hnow⟩
  all_goals simpa [TimesRange, ruleOf] using ⟨hlast, hstart, hsettle, hnow⟩

/-- Calls made again keep the clock's range. -/
theorem replay_lastNow (l : List PortEvent) {s : State} (h : InInt64 s.env.lastNow) :
    InInt64 (l.foldl replay s).env.lastNow := by
  induction l generalizing s with
  | nil => exact h
  | cons e l ih =>
    refine ih ?_
    cases e
    case nowUs now =>
      simp only [replay, nowUs_lastNow]
      exact ⟨h.1.trans (nowUs_ge s), nowUs_lt s h.2⟩
    all_goals simpa [replay] using h

/-! ### All ranges -/

theorem inRange_iff (s : State) :
    s.InRange ↔ s.cfg.freq ≤ freqMax ∧ (s.cfg.thrNum < 2 ^ 63 ∧ s.cfg.thrDen < 2 ^ 63) ∧
      (s.arg.arg0 < 2 ^ 63 ∧ s.arg.arg1 < 2 ^ 63) ∧ CondRange s.cond ∧ AmbigRange s.dec ∧
      s.ctl.frameLen ≤ s.params.maxPacketSize ∧
      (s.tx.txLen ≤ s.params.txMax ∧ s.tx.bitIdx ≤ 7) ∧ TimesRange s :=
  ⟨fun ⟨freq, thr, args, median, nodata, high, ambig, frame, transmit, times⟩ =>
    ⟨freq, thr, args, ⟨median, nodata, high⟩, ambig, frame, transmit, times⟩,
   fun ⟨freq, thr, args, ⟨median, nodata, high⟩, ambig, frame, transmit, times⟩ =>
    ⟨freq, thr, args, median, nodata, high, ambig, frame, transmit, times⟩⟩

theorem IterationEffect.inRange {s t : State} (h : IterationEffect s t) (hs : s.Sound)
    (hr : s.InRange) : t.InRange := by
  rw [inRange_iff] at hr ⊢
  obtain ⟨freq, thr, args, cond, ambig, frame, transmit, times⟩ := hr
  rw [h.cfg, h.arg]
  exact ⟨freq, thr, args, h.condRange cond hs.threshold.1, h.ambigRange ambig, h.frameLen hs frame,
    h.transmit transmit, h.times times⟩

/-- `SET_FREQ` and `SET_THRESH` store what is in range; the other rules leave the configuration. -/
theorem ruleOf_cfgRange (i : Instr) {s : State} (hb : s.ctl.busy = false) (hr : s.InRange) :
    (ruleOf i s).cfg.freq ≤ freqMax ∧
      ((ruleOf i s).cfg.thrNum < 2 ^ 63 ∧ (ruleOf i s).cfg.thrDen < 2 ^ 63) := by
  obtain ⟨hfreq, hthr, hargs⟩ := And.intro hr.freq (And.intro hr.threshold hr.args)
  cases i
  case setFreq f =>
    rcases setFreq_cases f.toNat hb with e | ⟨-, hf, e⟩ <;> rw [ruleOf, e]
    · exact ⟨hfreq, hthr⟩
    · exact ⟨hf, hthr⟩
  case setThresh =>
    rcases setThresh_cases hb with e | ⟨-, -, e⟩ <;> rw [ruleOf, e]
    · exact ⟨hfreq, hthr⟩
    · exact ⟨hfreq, hargs⟩
  all_goals simpa [ruleOf] using ⟨hfreq, hthr⟩

theorem ruleOf_args (i : Instr) (s : State) :
    (ruleOf i s).arg.arg0 = s.arg.arg0 ∧ (ruleOf i s).arg.arg1 = s.arg.arg1 := by
  cases i <;> simp [ruleOf]

theorem ruleOf_inRange (i : Instr) {s : State} (hs : s.Sound) (hr : s.InRange)
    (hb : s.ctl.busy = false) : (ruleOf i s).InRange := by
  obtain ⟨hfreq', hthr'⟩ := ruleOf_cfgRange i hb hr
  rw [inRange_iff] at hr ⊢
  obtain ⟨-, -, args, cond, ambig, frame, transmit, times⟩ := hr
  obtain ⟨e0, e1⟩ := ruleOf_args i s
  rw [ruleOf_params, e0, e1]
  exact ⟨hfreq', hthr', args, ruleOf_condRange i cond hs.threshold.1, ruleOf_ambigRange i ambig,
    ruleOf_frameLen i hs frame, ruleOf_transmit i transmit, ruleOf_times i hb times⟩

theorem resetOf_inRange {p : Params} (hp : p.Legal) {env : Env} (h : InInt64 env.lastNow)
    (script : List HostAction) : (State.resetOf p env script).InRange := by
  have hthr : p.defaultThreshold < adcMax := hp.threshold_lt
  refine (inRange_iff _).2 ⟨Nat.zero_le _, ⟨?_, by simp [State.resetOf]⟩, by simp [State.resetOf],
    freshCond_range, ⟨le_rfl, by simp [State.resetOf]⟩, Nat.zero_le _, ⟨Nat.zero_le _, le_rfl⟩,
    inInt64_zero, inInt64_zero, inInt64_zero, h⟩
  simp only [State.resetOf, adcMax] at hthr ⊢
  omega

/-- A host write stores operands of 63 bits and a length up to `TX_MAX` (R40). -/
theorem writeRegister_inRange (a : Nat) (d : HostWord) {s : State} (hr : s.InRange) :
    (writeRegister a d s).InRange := by
  have hd : d.toNat % 2 ^ 63 < 2 ^ 63 := Nat.mod_lt _ (by decide)
  obtain ⟨freq, thr, ⟨h0, h1⟩, median, nodata, high, ambig, frame, ⟨hlen, hbit⟩, times⟩ := hr
  have args : (writeRegister a d s).arg.arg0 < 2 ^ 63 ∧ (writeRegister a d s).arg.arg1 < 2 ^ 63 := by
    unfold writeRegister
    repeat' split
    all_goals constructor <;> assumption
  have transmit : (writeRegister a d s).tx.txLen ≤ s.params.txMax ∧
      (writeRegister a d s).tx.bitIdx ≤ 7 := by
    unfold writeRegister
    repeat' split
    all_goals (try dsimp only); omega
  constructor <;> simpa [fbLen]

theorem StepEffect.inRange {issued : Instr → Prop} {s t : State} (h : StepEffect issued s t)
    (hs : s.Sound) (hr : s.InRange) : t.InRange := by
  obtain ⟨params, threshold, history, capacity, debounce, busy, window⟩ := hs
  obtain ⟨freq, thr, args, median, nodata, high, ambig, frame, transmit, times⟩ := hr
  cases h with
  | iteration t h =>
    obtain ⟨e, hclock, h⟩ := h
    obtain ⟨hlast, hstart, hsettle, hnow⟩ := times
    exact h.inRange ⟨params, threshold, history, capacity, debounce, busy, window⟩
      ⟨freq, thr, args, median, nodata, high, ambig, frame, transmit,
        hlast, hstart, hsettle, hclock.inInt64 hnow⟩
  | reset calls => exact resetOf_inRange params (replay_lastNow calls times.2.2.2) _
  | registerWrite a d hb =>
    exact writeRegister_inRange a d
      ⟨freq, thr, args, median, nodata, high, ambig, frame, transmit, times⟩
  | command i hi hb hp =>
    exact ruleOf_inRange i ⟨params, threshold, history, capacity, debounce, busy, window⟩
      ⟨freq, thr, args, median, nodata, high, ambig, frame, transmit, times⟩ hb
  | hostRead | ignoredWrite | dropped | refused =>
    exact ⟨freq, thr, args, median, nodata, high, ambig, frame, transmit, times⟩

/-- Settles O55: the outcomes of a step, register group by register group. -/
theorem everyStepKeepsInRange : Obligations.EveryStepKeepsInRange := by
  intro s t hs hr h
  obtain ⟨rest, h⟩ := step_effect h
  exact h.inRange
    ⟨hs.params, hs.threshold, hs.history, hs.capacity, hs.debounce, hs.busy, hs.window⟩
    ⟨hr.freq, hr.threshold, hr.args, hr.median, hr.nodata, hr.high, hr.ambig, hr.frame, hr.transmit,
      hr.times⟩

/-! ### After reset -/

/-- Settles O58: the reset values, invariant by invariant. -/
theorem resetMeetsTheInvariants : Obligations.ResetMeetsTheInvariants := by
  intro p script hp s
  have hbound : s.FrameBound := ⟨Nat.zero_le _, fun _ => rfl⟩
  have hclock : InInt64 Env.start.lastNow := by unfold InInt64; decide
  have htx : s.TxCanonical :=
    ⟨⟨List.Pairwise.nil, by simp [s, State.resetOf]⟩, by simp [s, State.resetOf]⟩
  exact ⟨resetOf_sound hp _ _, hbound, frameWithinHalfBits_of_frameBound hbound,
    resetOf_calibrationSound _ _ _, resetOf_inRange hp hclock _, htx,
    (sequencerSound_iff s).2 ⟨rfl, by simp [s, State.resetOf]⟩⟩

end Sys2Proof.Proofs
end

section
/-! The packed host registers `STATUS` and `RESULT`, bit by bit (10 R42, R43). -/

namespace Sys2Proof.Proofs

open Sys2Proof Sys2Proof.Machine Sys2Proof.Config Sys2Proof.Laws

/-! ### Fields of a host word -/

/-- Bit `k` of a host word whose `width` bits from `lo` on hold `n`. -/
def fieldBit (lo width n k : Nat) : Bool :=
  decide (k < 64) && decide (lo ≤ k) && decide (k - lo < width) && n.testBit (k - lo)

theorem getLsbD_field (lo width n k : Nat) :
    (field lo width n).getLsbD k = fieldBit lo width n k := by
  rw [field, BitVec.getLsbD_shiftLeft, BitVec.getLsbD_ofNat, Nat.testBit_mod_two_pow]
  by_cases hk : k < 64 <;> by_cases hlo : lo ≤ k
  · have hlt : k - lo < 64 := by omega
    simp [fieldBit, hk, hlo, hlt]
  all_goals simp [fieldBit, hk, hlo]

theorem getLsbD_flagAt {lo : Nat} (b : Bool) (k : Nat) (hlo : lo < 64) :
    (flagAt lo b).getLsbD k = (decide (k = lo) && b) := by
  rw [flagAt, getLsbD_field, fieldBit]
  by_cases hk : k = lo
  · subst hk; cases b <;> simp [hlo]
  · by_cases hle : lo ≤ k
    · have : ¬ k - lo < 1 := by omega
      simp [hk, this]
    · simp [hk, hle]

/-- A number is read from a word where its bits stand. -/
theorem toNat_div_mod_of_getLsbD {v : HostWord} {lo width n : Nat}
    (h : ∀ i, i < width → v.getLsbD (lo + i) = n.testBit i) (hn : n < 2 ^ width) :
    v.toNat / 2 ^ lo % 2 ^ width = n := by
  apply Nat.eq_of_testBit_eq
  intro i
  rw [Nat.testBit_mod_two_pow, Nat.testBit_div_two_pow]
  by_cases hi : i < width
  · rw [Nat.add_comm i lo, show v.toNat.testBit (lo + i) = n.testBit i from h i hi]
    simp [hi]
  · have : n < 2 ^ i := hn.trans_le (Nat.pow_le_pow_right (by decide) (by omega))
    simp [hi, Nat.testBit_lt_two_pow this]

theorem toNat_lt_of_getLsbD {v : HostWord} {width : Nat}
    (h : ∀ i, width ≤ i → v.getLsbD i = false) : v.toNat < 2 ^ width :=
  Nat.lt_pow_two_of_testBit _ fun i hi => h i hi

/-! ### `STATUS` -/

/-- The bits of `STATUS`, each field where R42 puts it. -/
theorem getLsbD_statusWord (s : State) (k : Nat) :
    (statusWord s).getLsbD k =
      (decide (k = 0) && s.ctl.busy || decide (k = 1) && s.ctl.done ||
        decide (k = 2) && s.ctl.locked || decide (k = 3) && s.ctl.matched ||
        decide (k = 4) && s.cond.nodata || decide (k = 5) && s.cond.high ||
        decide (k = 6) && s.tx.led || decide (k = 7) && s.cal.calValid ||
        fieldBit 8 4 (phaseCode s.seq.phase) k || fieldBit 12 3 s.det.deb k ||
        decide (k = 15) && s.det.cur.isSome || decide (k = 16) && curHigh s ||
        decide (k = 17) && s.dec.carry.isSome || decide (k = 18) && s.ctl.dropped) := by
  simp [statusWord, getLsbD_flagAt, getLsbD_field]

theorem phaseCode_lt (p : Phase) : phaseCode p < 2 ^ 4 := by cases p <;> decide

theorem curHigh_iff (s : State) : curHigh s = true ↔ ∃ q, s.det.cur = some q ∧ 1 ≤ q := by
  unfold curHigh
  cases s.det.cur <;> simp [hi]

/-- Settles O47: each bit is one of the fields, and no bit above 18 belongs to any. -/
theorem statusLayout : Obligations.StatusLayout := by
  intro s hdeb v
  have hv : v = statusWord s := rfl
  have bit (k : Nat) := hv ▸ getLsbD_statusWord s k
  have hphase : v.toNat / 2 ^ 8 % 2 ^ 4 = phaseCode s.seq.phase := by
    refine toNat_div_mod_of_getLsbD (fun i hi => ?_) (phaseCode_lt _)
    rw [bit]
    interval_cases i <;> simp [fieldBit]
  have hcount : v.toNat / 2 ^ 12 % 2 ^ 3 = s.det.deb := by
    refine toNat_div_mod_of_getLsbD (fun i hi => ?_) (by omega)
    rw [bit]
    interval_cases i <;> simp [fieldBit]
  have hhigh : v.toNat < 2 ^ 19 := by
    refine toNat_lt_of_getLsbD fun i hi => ?_
    have below (k : Nat) (hk : k < 19) : i ≠ k := by omega
    have h1 : ¬ i - 8 < 4 := by omega
    have h2 : ¬ i - 12 < 3 := by omega
    rw [bit]
    simp [fieldBit, below, h1, h2]
  refine ⟨?_, ?_, ?_, ?_, ?_, ?_, ?_, ?_, ?_, hcount, ?_, ?_, ?_, ?_, hhigh⟩
  case refine_9 => rw [show (16 : Nat) = 2 ^ 4 from rfl, hphase]; cases s.seq.phase <;> rfl
  case refine_11 => rw [← curHigh_iff, bit]; simp [fieldBit]
  all_goals rw [bit]; simp [fieldBit]

/-! ### `RESULT` -/

/-- The bits of `RESULT`, each field where R43 puts it. -/
theorem getLsbD_resultWord (s : State) (k : Nat) :
    (resultWord s).getLsbD k =
      (fieldBit 0 4 (codeNumber s.ctl.code) k || decide (k = 4) && s.dec.ambig ||
        decide (k = 5) && s.dec.capx || decide (k = 6) && s.dec.partialByte ||
        fieldBit 16 16 s.dec.ambigCount k || fieldBit 32 16 s.ctl.frameLen k) := by
  simp [resultWord, getLsbD_flagAt, getLsbD_field]

theorem codeNumber_lt (c : Code) : codeNumber c < 2 ^ 4 := by cases c <;> decide

/-- Settles O48: each bit is one of the fields, and bits 7 to 15 belong to none. -/
theorem resultLayout : Obligations.ResultLayout := by
  intro s hambig hframe v
  have hv : v = resultWord s := rfl
  have bit (k : Nat) := hv ▸ getLsbD_resultWord s k
  have hcode : v.toNat / 2 ^ 0 % 2 ^ 4 = codeNumber s.ctl.code := by
    refine toNat_div_mod_of_getLsbD (fun i hi => ?_) (codeNumber_lt _)
    rw [bit]
    interval_cases i <;> simp [fieldBit]
  have hgap : v.toNat / 2 ^ 7 % 2 ^ 9 = 0 := by
    refine toNat_div_mod_of_getLsbD (fun i hi => ?_) (by decide)
    rw [bit]
    interval_cases i <;> simp [fieldBit]
  have hcount : v.toNat / 2 ^ 16 % 2 ^ 16 = s.dec.ambigCount := by
    refine toNat_div_mod_of_getLsbD (fun i hi => ?_) hambig
    rw [bit]
    interval_cases i <;> simp [fieldBit]
  have hlen : v.toNat / 2 ^ 32 % 2 ^ 32 = s.ctl.frameLen := by
    refine toNat_div_mod_of_getLsbD (fun i hi => ?_) (hframe.trans (show 65536 < 2 ^ 32 by decide))
    have htop : 16 ≤ i → s.ctl.frameLen.testBit i = false := fun h =>
      Nat.testBit_lt_two_pow
        (hframe.trans_le (show 2 ^ 16 ≤ 2 ^ i from Nat.pow_le_pow_right (by decide) h))
    have below (k : Nat) (hk : k < 32) : 32 + i ≠ k := by omega
    have hword : 32 + i < 64 := by omega
    have hcode' : ¬ 32 + i < 4 := by omega
    have hcount' : ¬ 32 + i - 16 < 16 := by omega
    rw [bit]
    by_cases h : i < 16
    · simp [fieldBit, below, hword, hcode', hcount', h]
    · simp [fieldBit, below, hcode', hcount', htop (by omega)]
  refine ⟨?_, ?_, ?_, ?_, hgap, hcount, ?_⟩
  case refine_1 =>
    rw [Nat.pow_zero, Nat.div_one] at hcode
    rw [show (16 : Nat) = 2 ^ 4 from rfl, hcode]
    cases s.ctl.code <;> rfl
  case refine_5 => have := v.isLt; omega
  all_goals rw [bit]; simp [fieldBit]

end Sys2Proof.Proofs
end

section
/-! The host register map (10 R40, R41): its windows, its registers and its gaps, and the writes. -/

namespace Sys2Proof.Proofs

open Sys2Proof Sys2Proof.Machine Sys2Proof.Config Sys2Proof.Laws

/-! ### The windows -/

/-- Above the registers a read answers from one of the five windows, or 0. -/
theorem hostRead_above_registers {a : Nat} (ha : 0x013 < a) (s : State) :
    hostRead a s =
      if 0x100 ≤ a ∧ a < 0x100 + s.params.windowN then slotWord (winAt s (a - 0x100))
      else if 0x200 ≤ a ∧ a < 0x200 + histLen then slotCode (histAt s (a - 0x200))
      else if 0x1000 ≤ a ∧ a < 0x1000 + s.params.maxPacketHalfBits then
        slotCode (hbAt s (a - 0x1000))
      else if 0x10000 ≤ a ∧ a < 0x10000 + s.params.maxPacketSize then
        ((fbAt s (a - 0x10000)).getD 0).setWidth 64
      else if 0x20000 ≤ a ∧ a < 0x20000 + s.params.txMax then (txAt s (a - 0x20000)).setWidth 64
      else 0 := by
  unfold hostRead
  iterate 20 rw [if_neg (by omega)]

theorem hostRead_win {s : State} {i : Nat} (hi : i < s.params.windowN) :
    hostRead (0x100 + i) s = slotWord (winAt s i) := by
  rw [hostRead_above_registers (by omega), if_pos (by omega), Nat.add_sub_cancel_left]

section
variable {s : State} (hp : s.params.Legal)
include hp

theorem hostRead_hist {i : Nat} (hi : i < 16) :
    hostRead (0x200 + i) s = slotCode (histAt s i) := by
  have := hp.windowN_le
  have := hp.windowMax_le
  rw [hostRead_above_registers (by omega), if_neg (by omega), if_pos (by simp only [histLen]; omega),
    Nat.add_sub_cancel_left]

theorem hostRead_hb {i : Nat} (hi : i < s.params.maxPacketHalfBits) :
    hostRead (0x1000 + i) s = slotCode (hbAt s i) := by
  have := hp.windowN_le
  have := hp.windowMax_le
  rw [hostRead_above_registers (by omega), if_neg (by omega), if_neg (by simp only [histLen]; omega),
    if_pos (by omega), Nat.add_sub_cancel_left]

theorem hostRead_fb {i : Nat} (hi : i < s.params.maxPacketSize) :
    hostRead (0x10000 + i) s = ((fbAt s i).getD 0).setWidth 64 := by
  have := hp.windowN_le
  have := hp.windowMax_le
  have := hp.halfBits_le
  rw [hostRead_above_registers (by omega), if_neg (by omega), if_neg (by simp only [histLen]; omega),
    if_neg (by omega), if_pos (by omega), Nat.add_sub_cancel_left]

theorem hostRead_tx {i : Nat} (hi : i < s.params.txMax) :
    hostRead (0x20000 + i) s = (txAt s i).setWidth 64 := by
  have := hp.windowN_le
  have := hp.windowMax_le
  have := hp.halfBits_le
  have := hp.packet_le
  rw [hostRead_above_registers (by omega), if_neg (by omega), if_neg (by simp only [histLen]; omega),
    if_neg (by omega), if_neg (by omega), if_pos (by omega), Nat.add_sub_cancel_left]

end

/-- Settles O49: the four read windows, each through its own rule. -/
theorem hostWindowsShowTheBuffers : Obligations.HostWindowsShowTheBuffers := by
  intro s hp hwin hhist hhb hfb shown
  have coded (x : Option Level) : shown x (slotCode x) := by
    refine ⟨fun h => by rw [h]; rfl, fun h => by rw [h]; rfl, fun q h => ?_⟩
    rw [h]
    by_cases hq : 1 ≤ q <;> simp [slotCode, levelCode, hi, hq]
  refine ⟨fun i h => ?_, fun i h => ?_, fun i h => ?_, fun i h => ?_⟩
  · rw [hostRead_win (hwin ▸ h)]
    have e : winAt s i = s.win[i] := by simp [winAt, h]
    rw [e]
    cases s.win[i] with
    | none => rfl
    | some raw => exact BitVec.eq_of_toNat_eq (by simp [slotWord])
  · rw [hostRead_hist hp (hhist ▸ h)]
    have e : histAt s i = s.hist[i] := by simp [histAt, h]
    exact e ▸ coded (histAt s i)
  · rw [hostRead_hb hp h]
    exact coded _
  · rw [hostRead_fb hp h, fbAt]
    cases s.dec.fb[i]? <;> exact BitVec.eq_of_toNat_eq (by simp)

/-! ### Writes -/

/-- A step with a host write to another register than `CMD`. -/
theorem step_hostWrite {s : State} {a : Nat} {d : HostWord} {rest : List HostAction}
    (h : s.script = .write a d :: rest) (ha : a ≠ 0x000) :
    step s = .next (hostWrite a d { s with script := rest }) := by
  unfold step advance
  rw [h]
  exact if_neg ha

/-- Settles O50: the write stores one byte of `TX`, which a read of its address shows. -/
theorem txReadsBackWhatWasWritten : Obligations.TxReadsBackWhatWasWritten := by
  intro s i d rest hp hwf hb hi hs
  have read := memRead_memWrite hwf i (b := d.setWidth 8)
  refine ⟨memWrite s.tx.mem i (d.setWidth 8), ?_, memWrite_wf _ _ hwf, read, fun j hj => ?_⟩
  · have window := writeRegister_txWindow (a := 0x20000 + i) d (s := { s with script := rest })
      ⟨Nat.le_add_right _ _, Nat.add_lt_add_left hi _⟩
    rw [Nat.add_sub_cancel_left] at window
    rw [step_hostWrite hs (by omega), hostWrite, if_neg (by simp [hb]), window]
  · have before := hostRead_tx hp hj
    have after := hostRead_tx (s := { s with
      script := rest, tx := { s.tx with mem := memWrite s.tx.mem i (d.setWidth 8) } }) hp hj
    rw [before, after, txAt, txAt, read]
    split <;> rfl

/-- A write outside `TX`, with the clause on a scan count and on the length in one condition each. -/
theorem writeRegister_of_not_tx {a : Nat} (d : HostWord) {s : State}
    (ha : ¬ (0x20000 ≤ a ∧ a < 0x20000 + s.params.txMax)) :
    writeRegister a d s =
      if a = 0x003 then { s with arg := { s.arg with arg0 := d.toNat % 2 ^ 63 } }
      else if a = 0x004 then { s with arg := { s.arg with arg1 := d.toNat % 2 ^ 63 } }
      else if a = 0x00A ∧ d.toNat % 2 ^ 24 ≠ 0 then
        { s with arg := { s.arg with calScan1 := d.toNat % 2 ^ 24 } }
      else if a = 0x00B ∧ d.toNat % 2 ^ 24 ≠ 0 then
        { s with arg := { s.arg with calScan2 := d.toNat % 2 ^ 24 } }
      else if a = 0x010 ∧ d.toNat ≤ s.params.txMax then { s with tx := { s.tx with txLen := d.toNat } }
      else s := by
  unfold writeRegister
  rw [if_neg ha]
  by_cases hscan1 : a = 0x00A
  · subst hscan1
    simp
  by_cases hscan2 : a = 0x00B
  · subst hscan2
    simp
  by_cases hlen : a = 0x010
  · subst hlen
    by_cases hd : s.params.txMax < d.toNat <;> simp [hd, Nat.not_le.2, Nat.le_of_not_lt]
  simp [hscan1, hscan2, hlen]

/-- Settles O51: a busy block ignores the write, a free one stores it by the clauses of the map. -/
theorem hostWritesLandInTheirRegisters : Obligations.HostWritesLandInTheirRegisters := by
  intro s a d rest ha hs htx
  rw [step_hostWrite hs ha, hostWrite, writeRegister_of_not_tx (s := { s with script := rest }) d htx]

/-! ### Registers -/

theorem toNat_field {width n : Nat} (hw : width ≤ 64) (h : n < 2 ^ width) :
    (field 0 width n).toNat = n := by
  have hword : n < 2 ^ 64 := h.trans_le (Nat.pow_le_pow_right (by decide) hw)
  rw [field, BitVec.shiftLeft_zero, BitVec.toNat_ofNat, Nat.mod_eq_of_lt h, Nat.mod_eq_of_lt hword]

theorem toInt_ofInt_of_inInt64 {t : Int} (h : InInt64 t) : (BitVec.ofInt 64 t).toInt = t := by
  obtain ⟨h1, h2⟩ := h
  rw [BitVec.toInt_ofInt]
  exact Int.bmod_eq_of_le (by omega) (by omega)

theorem toInt_slotWord (x : Slot) :
    (slotWord x).toInt = x.elim (-1) (fun raw => (raw.toNat : Int)) := by
  cases x with
  | none => decide
  | some raw =>
    have := raw.isLt
    rw [slotWord, BitVec.toInt_eq_toNat_of_lt] <;> simp <;> omega

/-- An address that the register map does not list reads 0 (R40). -/
theorem hostRead_unlisted {s : State} {a : Nat} (hp : s.params.Legal)
    (ha : (0x013 < a ∧ a < 0x100) ∨ (0x100 + s.params.windowN ≤ a ∧ a < 0x200) ∨
      (0x210 ≤ a ∧ a < 0x1000) ∨ (0x1000 + s.params.maxPacketHalfBits ≤ a ∧ a < 0x10000) ∨
      (0x10000 + s.params.maxPacketSize ≤ a ∧ a < 0x20000) ∨ 0x20000 + s.params.txMax ≤ a) :
    hostRead a s = 0 := by
  have := hp.windowN_le
  have := hp.windowMax_le
  have := hp.halfBits_le
  have := hp.packet_le
  rw [hostRead_above_registers (by omega), if_neg (by omega), if_neg (by simp only [histLen]; omega),
    if_neg (by omega), if_neg (by omega), if_neg (by omega)]

/-- Settles O52: every register fits the field it is read in. -/
theorem hostReadsShowTheRegisters : Obligations.HostReadsShowTheRegisters := by
  intro s hs hc hr
  have hp := hs.params
  have hhalf := hs.capacity.1.trans hp.halfBits_le
  have hbytes := hs.capacity.2.trans hp.packet_le
  have hlen := hr.transmit.1.trans hp.txMax_le
  have hfreq := hr.freq
  have hmedian := hr.median
  simp only [freqMax] at hfreq
  simp only [adcMax] at hmedian
  obtain ⟨-, hscan1, -, hscan2⟩ := hc.scans
  obtain ⟨htLast, htStart, -, -⟩ := hr.times
  have valid (n d : Nat) (hn : n < 2 ^ 63) :
      (if s.cal.calValid then field 0 63 n else BitVec.ofNat 64 d).toNat =
        if s.cal.calValid then n else d % 2 ^ 64 := by
    split
    · exact toNat_field (by decide) hn
    · exact BitVec.toNat_ofNat _ _
  exact ⟨toNat_field (by decide) hr.args.1, toNat_field (by decide) hr.args.2,
    toNat_field (by decide) (by omega), toNat_field (by decide) hr.threshold.1,
    toNat_field (by decide) hr.threshold.2, valid _ 0 hc.result.1, valid _ 1 hc.result.2,
    toNat_field (by decide) hscan1, toNat_field (by decide) hscan2,
    toNat_field (by decide) (by omega), toInt_slotWord _, toNat_field le_rfl (by omega),
    toNat_field le_rfl (by omega), toNat_field le_rfl (by omega), toInt_ofInt_of_inInt64 htLast,
    toInt_ofInt_of_inInt64 htStart, rfl, fun a ha => hostRead_unlisted hp ha⟩

/-! ### The reset input -/

/-- A step that a reset may cut has a next state (60 R275). -/
theorem issueOrIterate_next (command : Option HostWord) (s : State) :
    ∃ t, issueOrIterate command s = .next t := by
  cases command with
  | none => exact ⟨_, rfl⟩
  | some w =>
    simp only [issueOrIterate, issueWord]
    split
    · rename_i i _
      rw [exec_eq_command]
      exact command_next _ _ _ _
    · exact ⟨_, rfl⟩

/-- The environment after the first `calls` calls of the step from `s` to `t`. -/
def cutEnv (calls : Nat) (s t : State) : Env :=
  (((t.env.calls.drop s.env.calls.length).take calls).foldl replay s).env

/-- The reset input leaves the block as the table of R45 says; the environment and the rest of the script
are not the block's. -/
theorem step_resets {s : State} {rest : List HostAction}
    (h : s.script = .rst :: rest ∨ ∃ command calls, s.script = .rstInside command calls :: rest) :
    ∃ e, step s = .next (State.resetOf s.params e rest) ∧
      (s.script = .rst :: rest → e = s.env) ∧
      ∀ command calls u, s.script = .rstInside command calls :: rest →
        issueOrIterate command { s with script := rest } = .next u →
        e = cutEnv calls { s with script := rest } u := by
  rcases h with h | ⟨command, calls, h⟩
  · refine ⟨s.env, ?_, fun _ => rfl, fun _ _ _ h' => ?_⟩
    · unfold step advance
      rw [h]
      rfl
    · rw [h] at h'; cases h'
  · obtain ⟨u, hu⟩ := issueOrIterate_next command { s with script := rest }
    refine ⟨cutEnv calls { s with script := rest } u, ?_, fun h' => ?_,
      fun command' calls' u' h' hu' => ?_⟩
    · unfold step advance
      rw [h]
      simp only [act, actCut, hu]
      rw [cutReset_eq]
      rfl
    · rw [h] at h'; cases h'
    · rw [h] at h'
      cases h'
      rw [hu] at hu'
      cases hu'
      rfl

/-- The calls that stand before a reset inside a step are the first ones of the step it cuts (70 R312). -/
theorem replayed_calls {command : Option HostWord} {s u : State} {l : List PortEvent} (calls : Nat)
    (h : issueOrIterate command s = .next u) (hl : u.env.calls = s.env.calls ++ l) :
    (cutEnv calls s u).calls = s.env.calls ++ l.take calls := by
  obtain ⟨l', hcalls, hreplay⟩ := issueOrIterate_reproducible h
  obtain rfl : l' = l := List.append_cancel_left (hcalls.symm.trans hl)
  rw [cutEnv, hl, List.drop_left]
  exact replay_take (by rw [hreplay, hcalls]) calls

/-- Settles O45: the reset values, and the calls of the step that a reset cuts. -/
theorem resetLeavesTheTable : Obligations.ResetLeavesTheTable := by
  refine ⟨fun s rest h => ?_, fun a => rfl⟩
  obtain ⟨e, hstep, hbetween, hinside⟩ := step_resets h
  refine ⟨_, hstep, hbetween, fun command calls u l hscript hu hl => ?_, rfl⟩
  rw [show (State.resetOf s.params e rest).env = e from rfl, hinside command calls u hscript hu]
  exact replayed_calls calls hu hl

end Sys2Proof.Proofs
end

section
/-! Host reads (20 R67): no register shows the script or the record of the ports, and these two are all
that a read changes. -/

namespace Sys2Proof.Proofs

open Sys2Proof Sys2Proof.Machine

/-- No read answers from the host's script. -/
@[simp] theorem hostRead_script (b : Nat) (s : State) (rest : List HostAction) :
    hostRead b { s with script := rest } = hostRead b s := rfl

/-- No read answers from the record of the ports (log 11), a read of `CMD` included (log 9). -/
@[simp] theorem hostRead_record (b : Nat) (e : PortEvent) (s : State) :
    hostRead b (record e s) = hostRead b s := rfl

/-- A step whose next action is a read takes it off the script and records its answer. -/
theorem step_hostRead {s : State} {a : Nat} {rest : List HostAction}
    (h : s.script = .read a :: rest) :
    step s = .next (record (.hostRead a (hostRead a s)) { s with script := rest }) := by
  unfold step advance
  rw [h]
  simp only [act, hostReadAction, hostRead_script]

/-- Settles O46: the step of a read is one record, which no later read shows. -/
theorem hostReadsHaveNoSideEffect : Obligations.HostReadsHaveNoSideEffect := by
  refine ⟨fun s a rest h => step_hostRead h, fun s a b rest h => ⟨_, step_hostRead h, ?_⟩⟩
  rw [hostRead_record, hostRead_script]

end Sys2Proof.Proofs
end

section
/-! The command word (30): the encoder writes what the decoder reads, each sub-format reads its own bits
alone, and the legal opcodes are the rows of the table. -/

namespace Sys2Proof.Proofs

open Sys2Proof Sys2Proof.Machine Sys2Proof.Laws

variable {row row' : BitVec 8 × (BitVec 24 → Instr)}

/-! ### The rows of the opcode table (R84) -/

/-- The opcode bytes of the table, group by group. -/
theorem opcodeTable_opcodes :
    opcodeTable.map (fun row => row.1.toNat) =
      List.range' 0x00 4 ++ List.range' 0x10 4 ++ List.range' 0x20 2 ++ List.range' 0x30 4 ++
        List.range' 0x40 5 ++ List.range' 0x50 3 := by decide

/-- An opcode has one row only. -/
theorem opcodeTable_row_unique (h : row ∈ opcodeTable) (h' : row' ∈ opcodeTable)
    (he : row.1 = row'.1) : row = row' := by
  have hnodup : (opcodeTable.map (fun row => row.1.toNat)).Nodup := by
    rw [opcodeTable_opcodes]
    decide
  exact List.inj_on_of_nodup_map hnodup h h' (congrArg BitVec.toNat he)

/-- A word whose opcode has a row decodes to what the row makes of its immediate. -/
theorem decodeWord_of_row {w : CmdWord} (hmem : row ∈ opcodeTable)
    (ho : row.1 = opcField w) : decodeWord w = .ok (row.2 (immField w)) := by
  cases h : decodeWord w with
  | ok i =>
    obtain ⟨row', hmem', ho', rfl⟩ := decodeWord_ok h
    rw [opcodeTable_row_unique hmem hmem' (ho.trans ho'.symm)]
  | error e => exact absurd ho ((decodeWord_error h).2 row hmem)

/-- Every row makes well-formed operations of its own opcode. -/
theorem row_wellFormed (hmem : row ∈ opcodeTable) (imm : BitVec 24) :
    (row.2 imm).WellFormed ∧ opcodeOf (row.2 imm) = row.1 := by
  have hlevel := levelField_wellFormed imm
  revert row
  simpa [opcodeTable, opcodeOf] using hlevel

/-! ### Immediate fields (R82) -/

/-- An operand in the low bits of an immediate is read back. -/
theorem extractLsb'_setWidth_self {n : Nat} (x : BitVec n) (hn : n ≤ 24) :
    (x.setWidth 24).extractLsb' 0 n = x := by
  rw [BitVec.extractLsb'_setWidth_of_le (by omega), BitVec.extractLsb'_eq_self]

/-- A level operand as the syntax of R99 spells it is read back. -/
theorem levelField_levelImm {m2 : BitVec 13} {nd : Bool} (h : levelOperandWellFormed m2 nd) :
    levelField (levelImm m2 nd) = (m2, nd) := by
  have hnd : (levelImm m2 nd).getLsbD 13 = nd := by
    rw [levelImm, BitVec.getLsbD_setWidth, BitVec.getLsbD_append]
    simp
  have hm2 : (levelImm m2 nd).extractLsb' 0 13 = m2 := by
    rw [levelImm, BitVec.extractLsb'_setWidth_of_le (by omega), BitVec.extractLsb'_append_eq_right]
  unfold levelField
  rw [hnd, hm2]
  cases nd with
  | false => rfl
  | true => rw [h rfl]; rfl

/-- A field of ones in a mask lets the field of the immediate through. -/
theorem extractLsb'_and_mask {start len : Nat} {mask : BitVec 24} (imm : BitVec 24)
    (h : mask.extractLsb' start len = BitVec.allOnes len) :
    (imm &&& mask).extractLsb' start len = imm.extractLsb' start len := by
  rw [BitVec.extractLsb'_and, h, BitVec.and_allOnes]

theorem getLsbD_and_mask {mask : BitVec 24} (imm : BitVec 24) {k : Nat} (h : mask.getLsbD k = true) :
    (imm &&& mask).getLsbD k = imm.getLsbD k := by
  rw [BitVec.getLsbD_and, h, Bool.and_true]

theorem levelField_and_mask (imm : BitVec 24) : levelField (imm &&& 0x003FFF#24) = levelField imm := by
  unfold levelField
  rw [getLsbD_and_mask imm (by decide), extractLsb'_and_mask imm (by decide)]

/-- Each row reads the bits of its sub-format alone. -/
theorem row_and_usedImmMask (hmem : row ∈ opcodeTable) (imm : BitVec 24) :
    row.2 (imm &&& usedImmMask row.1) = row.2 imm := by
  revert row
  simp [opcodeTable, usedImmMask, extractLsb'_and_mask, levelField_and_mask]

/-- The level operand of a command word, in the word's own bits (R81, R82). -/
theorem levelField_immField (w : CmdWord) :
    levelField (immField w) =
      if w.getLsbD 21 then (0, true) else (w.extractLsb' 8 13, false) := by
  have hnd : (immField w).getLsbD 13 = w.getLsbD 21 := by simp [immField]
  have hm2 : (immField w).extractLsb' 0 13 = w.extractLsb' 8 13 := by
    refine BitVec.eq_of_getLsbD_eq fun k hk => ?_
    simp [immField, hk, show k < 24 by omega]
  rw [levelField, hnd, hm2]

/-! ### Decoding and encoding (R81, R82, R99) -/

theorem opcField_encodeWord (i : Instr) : opcField (encodeWord i) = opcodeOf i := opcField_append _ _

theorem immField_encodeWord (i : Instr) : immField (encodeWord i) = immOf i := immField_append _ _

/-- Every well-formed operation is what a row of its opcode makes of its immediate. -/
theorem exists_row_of_wellFormed {i : Instr} (h : i.WellFormed) :
    ∃ row ∈ opcodeTable, row.1 = opcodeOf i ∧ row.2 (immOf i) = i := by
  cases i with
  | setFreq | winPush | winSelect | pushSample =>
    simp [opcodeTable, opcodeOf, immOf, extractLsb'_setWidth_self]
  | histAppend | hbAppend => simp [opcodeTable, opcodeOf, immOf, levelField_levelImm h]
  | hbFlush => simp [opcodeTable, opcodeOf, immOf]
  | sendBit b r => cases b <;> cases r <;> decide
  | _ => decide

/-- A word of sub-format `CL` decodes to its level operand (R82). -/
theorem decodeWord_levelOperand {w : CmdWord} {o : BitVec 8} (op : BitVec 13 → Bool → Instr)
    (hmem : (o, fun imm => op (levelField imm).1 (levelField imm).2) ∈ opcodeTable)
    (ho : opcField w = o) :
    decodeWord w = .ok (if w.getLsbD 21 then op 0 true else op (w.extractLsb' 8 13) false) := by
  rw [decodeWord_of_row hmem ho.symm]
  simp only [levelField_immField]
  split <;> rfl

/-- Settles O1: the row of an operation's opcode undoes its immediate. -/
theorem decodeInvertsEncode : Obligations.DecodeInvertsEncode := by
  intro i h
  obtain ⟨row, hmem, ho, himm⟩ := exists_row_of_wellFormed h
  rw [decodeWord_of_row hmem (ho.trans (opcField_encodeWord i).symm), immField_encodeWord, himm]

/-- Settles O2: a row reads its used bits alone, and what it makes is well formed, so that O1 writes it
back. -/
theorem unusedImmediateBitsAreIgnored : Obligations.UnusedImmediateBitsAreIgnored := by
  refine ⟨fun w w' ho himm => decodeWord_congr ho fun row hmem hrow => ?_, fun w i h => ?_,
    fun w => ?_⟩
  · rw [← row_and_usedImmMask hmem (immField w), ← row_and_usedImmMask hmem (immField w'),
      hrow, himm, ho]
  · obtain ⟨row, hmem, ho, rfl⟩ := decodeWord_ok h
    obtain ⟨hwf, hop⟩ := row_wellFormed hmem (immField w)
    exact ⟨hwf, hop.trans ho, decodeInvertsEncode _ hwf⟩
  · exact ⟨decodeWord_levelOperand .histAppend (by simp [opcodeTable]),
      decodeWord_levelOperand .hbAppend (by simp [opcodeTable])⟩

/-- Settles O4: the words written out, one by one. -/
theorem writtenWordsDecode : Obligations.WrittenWordsDecode := by
  unfold Obligations.WrittenWordsDecode
  decide

/-! ### Illegal opcodes (R85) -/

/-- An opcode byte has a row exactly when it lies in one of the six groups of the table. -/
theorem exists_row_iff (o : BitVec 8) :
    (∃ row ∈ opcodeTable, row.1 = o) ↔ o.toNat < 0x04 ∨ (0x10 ≤ o.toNat ∧ o.toNat < 0x14) ∨
      (0x20 ≤ o.toNat ∧ o.toNat < 0x22) ∨ (0x30 ≤ o.toNat ∧ o.toNat < 0x34) ∨
      (0x40 ≤ o.toNat ∧ o.toNat < 0x45) ∨ (0x50 ≤ o.toNat ∧ o.toNat < 0x53) := by
  calc (∃ row ∈ opcodeTable, row.1 = o)
    _ ↔ o.toNat ∈ opcodeTable.map (fun row => row.1.toNat) := by
      simp [-Prod.exists, BitVec.toNat_inj]
    _ ↔ _ := by
      rw [opcodeTable_opcodes]
      simp only [List.mem_append, List.mem_range'_1, or_assoc, Nat.zero_le, true_and]

theorem toNat_opcField (w : CmdWord) : (opcField w).toNat = w.toNat % 256 := by
  simp [opcField, BitVec.extractLsb'_toNat]

theorem issueWord_of_ok {w : CmdWord} {i : Instr} (h : decodeWord w = .ok i) (s : State) :
    issueWord w s = exec i s := by
  rw [issueWord, h]

theorem issueWord_of_error {w : CmdWord} {e : DecodeError} (h : decodeWord w = .error e) (s : State) :
    issueWord w s = .next (illegalCommand s) := by
  rw [issueWord, h]

/-- An illegal command on a free block raises its error, and nothing else (R85, R275). -/
theorem illegalCommand_of_free {s : State} (h : s.ctl.busy = false) :
    illegalCommand s = { s with ctl := { s.ctl with done := true, code := .illegalCommand } } := by
  rw [illegalCommand, if_neg (by simp [h]), raise_of_free _ h]

/-- Settles O3: a word is refused exactly when its opcode has no row. -/
theorem illegalOpcodesChangeCodeAndDoneOnly : Obligations.IllegalOpcodesChangeCodeAndDoneOnly := by
  intro w s hfree o illegal
  have hlegal : (∃ row ∈ opcodeTable, row.1 = opcField w) ↔ ¬ illegal := by
    rw [exists_row_iff, toNat_opcField]
    omega
  rw [← illegalCommand_of_free hfree]
  cases h : decodeWord w with
  | ok i =>
    obtain ⟨row, hmem, ho, -⟩ := decodeWord_ok h
    exact ⟨fun hill => absurd hill (hlegal.1 ⟨row, hmem, ho⟩),
      fun _ => ⟨i, rfl, issueWord_of_ok h s⟩⟩
  | error e =>
    have hnone : ¬ ∃ row ∈ opcodeTable, row.1 = opcField w :=
      fun ⟨row, hmem, ho⟩ => (decodeWord_error h).2 row hmem ho
    exact ⟨fun _ => issueWord_of_error h s, fun hok => absurd (hlegal.2 hok) hnone⟩

/-! ### Issuing a command (R80, R259) -/

/-- A step whose next action is a write to `CMD` issues the low half of the data word. -/
theorem step_writeCmd {s : State} {rest : List HostAction} {d : HostWord}
    (h : s.script = .write cmdAddress d :: rest) :
    step s = issueWord (d.setWidth 32) { s with script := rest } := by
  unfold step advance
  rw [h]
  simp only [act, if_true]

/-- A table word that stands for an instruction is a command word that decodes to it. -/
theorem decodeWord_of_decodeTableWord {nbits w : Nat} {i : Instr}
    (h : decodeTableWord nbits w = some i) :
    decodeWord (BitVec.ofNat 32 (w % 2 ^ nbits)) = .ok i := by
  unfold decodeTableWord at h
  split at h
  · cases h
    assumption
  · cases h

/-- Settles O5: a step issues the word written to `CMD`, and `withFetchWord` writes one there. -/
theorem stepRunsTheIssuedCommand : Obligations.StepRunsTheIssuedCommand := by
  refine ⟨fun s rest d i hscript hd => ?_, fun s nbits w i hw => ?_⟩
  · rw [step_writeCmd hscript, issueWord_of_ok hd]
  · have hword : (BitVec.ofNat 64 (w % 2 ^ nbits)).setWidth 32 = BitVec.ofNat 32 (w % 2 ^ nbits) :=
      BitVec.setWidth_ofNat_of_le (by decide) _
    have hscript : (s.withFetchWord nbits w).script =
        .write cmdAddress (BitVec.ofNat 64 (w % 2 ^ nbits)) :: s.script := rfl
    rw [step_writeCmd hscript, hword, issueWord_of_ok (decodeWord_of_decodeTableWord hw)]
    rfl

end Sys2Proof.Proofs
end

section
/-! The utility operations (40 R110 to R118) and the resets of the two other buffers (43 R170, 44 R204):
the order statistics of the window are told by counting, and the window's median from any sorted
arrangement of its entries. -/

namespace Sys2Proof.Proofs

open Sys2Proof Sys2Proof.Machine Sys2Proof.Config Sys2Proof.Laws

/-! ### The shift of a register file (R112) -/

/-- An element that stays moves one place down. -/
theorem getElem?_shiftAppend_of_lt {α : Type} {l : List α} {i : Nat} (x : α) (h : i + 1 < l.length) :
    (shiftAppend l x)[i]? = l[i + 1]? := by
  rw [shiftAppend, List.getElem?_append_left (by rw [List.length_drop]; omega), List.getElem?_drop,
    Nat.add_comm]

/-- The new element comes last. -/
theorem getElem?_shiftAppend_last {α : Type} {l : List α} (x : α) :
    (shiftAppend l x)[l.length - 1]? = some x := by
  rw [shiftAppend, ← List.length_drop, List.getElem?_concat_length]

/-! ### Order statistics of a sorted list -/

/-- At most `k` entries of a sorted list are less than its entry `k`. -/
theorem countP_lt_getElem_le {l : List Nat} (hl : l.Pairwise (· ≤ ·)) {k : Nat} (hk : k < l.length) :
    l.countP (fun u => decide (u < l[k])) ≤ k := by
  have htail : (l.drop k).countP (fun u => decide (u < l[k])) = 0 := by
    refine List.countP_eq_zero.2 ?_
    intro u hu
    obtain ⟨j, hj, rfl⟩ := List.mem_drop_iff_getElem.1 hu
    simpa using hl.sortedLE.getElem_le_getElem_of_le (Nat.le_add_right k j)
  calc l.countP (fun u => decide (u < l[k]))
    _ = (l.take k).countP (fun u => decide (u < l[k])) := by
      rw [← Nat.add_zero (List.countP _ (l.take k)), ← htail, ← List.countP_append,
        List.take_append_drop]
    _ ≤ (l.take k).length := List.countP_le_length
    _ ≤ k := List.length_take_le k l

/-- More than `k` entries of a sorted list are at most its entry `k`. -/
theorem lt_countP_le_getElem {l : List Nat} (hl : l.Pairwise (· ≤ ·)) {k : Nat} (hk : k < l.length) :
    k < l.countP (fun u => decide (u ≤ l[k])) := by
  have hhead : ∀ u ∈ l.take (k + 1), u ≤ l[k] := by
    intro u hu
    obtain ⟨j, hj, rfl⟩ := List.mem_take_iff_getElem.1 hu
    exact hl.sortedLE.getElem_le_getElem_of_le (by omega)
  calc k
    _ < (l.take (k + 1)).length := by rw [List.length_take]; omega
    _ = (l.take (k + 1)).countP (fun u => decide (u ≤ l[k])) :=
      (List.countP_eq_length.2 fun u hu => decide_eq_true (hhead u hu)).symm
    _ ≤ l.countP (fun u => decide (u ≤ l[k])) := (List.take_sublist _ _).countP_le

/-! ### The sorted copy of the window (R110) -/

theorem sortedSamples_perm (w : List Slot) : (sortedSamples w).Perm (validSamples w) :=
  List.perm_insertionSort _ _

theorem sortedSamples_pairwise (w : List Slot) : (sortedSamples w).Pairwise (· ≤ ·) :=
  List.pairwise_insertionSort _ _

/-- Only one arrangement of the valid entries is in order. -/
theorem sortedSamples_eq_of_perm {w : List Slot} {l : List Nat} (hl : l.Pairwise (· ≤ ·))
    (hp : l.Perm (validSamples w)) : sortedSamples w = l :=
  ((sortedSamples_perm w).trans hp.symm).eq_of_sortedLE (sortedSamples_pairwise w).sortedLE
    hl.sortedLE

/-- Counting in the sorted copy is counting the filled slots of the window. -/
theorem countP_sortedSamples (p : Nat → Bool) (w : List Slot) :
    (sortedSamples w).countP p = w.countP (fun x => x.any (fun u => p u.toNat)) := by
  rw [(sortedSamples_perm w).countP_eq, validSamples, List.countP_filterMap]
  congr 1
  funext x
  cases x <;> rfl

/-- `c` of R110: the sorted copy has one entry per filled slot. -/
theorem length_sortedSamples_eq_countP (w : List Slot) :
    (sortedSamples w).length = w.countP Option.isSome := by
  rw [← List.countP_true, countP_sortedSamples]
  rfl

/-- The sorted copy of a window of sentinels is empty. -/
theorem sortedSamples_eq_nil {w : List Slot} (h : ∀ x ∈ w, x = none) : sortedSamples w = [] := by
  refine List.eq_nil_iff_forall_not_mem.2 fun v hv => ?_
  obtain ⟨x, hx, -⟩ := mem_sortedSamples.1 hv
  cases h _ hx

/-! ### The answer of `WIN_SELECT` (R114) -/

theorem orderStatistic_eq_none {k : Nat} {w : List Slot} :
    orderStatistic k w = none ↔ w.countP Option.isSome ≤ k := by
  rw [orderStatistic, Option.map_eq_none_iff, List.getElem?_eq_none_iff,
    length_sortedSamples_eq_countP]

/-- An answer is the entry of its rank in the sorted copy, and stands in the window. -/
theorem orderStatistic_eq_some {k : Nat} {w : List Slot} {v : Sample}
    (h : orderStatistic k w = some v) : (sortedSamples w)[k]? = some v.toNat ∧ some v ∈ w := by
  obtain ⟨m, hm, hv⟩ := Option.map_eq_some_iff.1 h
  obtain ⟨x, hx, rfl⟩ := mem_sortedSamples.1 (List.mem_of_getElem? hm)
  obtain rfl : x = v := by rw [← hv, BitVec.ofNat_toNat, BitVec.setWidth_eq]
  exact ⟨hm, hx⟩

/-! ### The median (R116, R117) -/

/-- The doubled median of a list that is not empty. -/
theorem doubledMedian_of_ne_nil {l : List Nat} (h : l ≠ []) :
    doubledMedian l = some (if l.length % 2 = 1 then 2 * l.getD ((l.length - 1) / 2) 0
      else l.getD (l.length / 2 - 1) 0 + l.getD (l.length / 2) 0) := by
  rw [doubledMedian, if_neg (by rwa [List.length_eq_zero_iff])]
  split <;> rfl

/-- The entries of a sorted list of two values. -/
theorem getD_replicate_append_replicate {a b lo hi i : Nat} (h : i < a + b) :
    (List.replicate a lo ++ List.replicate b hi).getD i 0 = if i < a then lo else hi := by
  rw [List.getD_eq_getElem _ _ (by simpa using h), List.getElem_append]
  simp only [List.length_replicate, List.getElem_replicate, dite_eq_ite]

/-- The doubled median of a sorted list of two values: the more frequent one, or their sum on a tie. -/
theorem doubledMedian_replicate_append_replicate {a b : Nat} (lo hi : Nat) (h : 0 < a + b) :
    doubledMedian (List.replicate a lo ++ List.replicate b hi) =
      some (if a < b then 2 * hi else if b < a then 2 * lo else lo + hi) := by
  have hlen : (List.replicate a lo ++ List.replicate b hi).length = a + b := by simp
  rw [doubledMedian_of_ne_nil (List.length_pos_iff.1 (hlen ▸ h)), hlen,
    getD_replicate_append_replicate (by omega), getD_replicate_append_replicate (by omega),
    getD_replicate_append_replicate (by omega)]
  congr 1
  split_ifs <;> omega

/-- The median over the threshold, as one fraction (42 R147). -/
theorem levelOf_eq_estimate (m2 : Nat) (s : State) : levelOf m2 s = estimate m2 s.cfg := by
  rw [levelOf, estimate, Rat.mkRat_eq_div, mul_div_assoc', div_div_eq_mul_div]
  push_cast
  rfl

/-- A slot's share in the valid entries. -/
theorem count_validSamples (v : Sample) (w : List Slot) :
    (validSamples w).count v.toNat = w.count (some v) := by
  rw [List.count, validSamples, List.countP_filterMap, List.count]
  congr 1
  funext x
  cases x <;> simp [BitVec.toNat_inj]

/-- The sorted copy of a window of two values. -/
theorem sortedSamples_of_two {w : List Slot} {lo hi : Sample} (hlt : lo.toNat < hi.toNat)
    (hw : ∀ x ∈ w, x = none ∨ x = some lo ∨ x = some hi) :
    sortedSamples w = List.replicate (w.count (some lo)) lo.toNat ++
      List.replicate (w.count (some hi)) hi.toNat := by
  refine sortedSamples_eq_of_perm ?_ (List.Perm.symm ?_)
  · refine List.pairwise_append.2 ⟨List.pairwise_replicate.2 (.inr le_rfl),
      List.pairwise_replicate.2 (.inr le_rfl), fun u hu v hv => ?_⟩
    rw [List.eq_of_mem_replicate hu, List.eq_of_mem_replicate hv]
    exact hlt.le
  · refine (List.perm_replicate_append_replicate hlt.ne).2
      ⟨count_validSamples lo w, count_validSamples hi w, fun v hv => ?_⟩
    obtain ⟨x, hx, rfl⟩ := mem_sortedSamples.1 ((sortedSamples_perm w).mem_iff.2 hv)
    rcases hw _ hx with h | h | h <;> cases h <;> simp

/-! ### The commands on a free block -/

/-- A free block whose precondition holds runs the rule of a command, every command but `NOP` with the
lock cleared (46 R255). -/
theorem exec_of_free {s : State} {i : Instr} (hfree : s.ctl.busy = false) (hpre : preOf s i = none)
    (hlock : keepsLock i = false) :
    exec i s = .next (ruleOf i
      { s with ctl := { s.ctl with done := false, dropped := false, locked := false } }) := by
  rw [exec_eq_command, hpre, command_of_free _ _ hfree, hlock, admission, Bool.and_false]

/-- `WIN_MEDIAN` on a free block: the conditioner registers of the median, and the end of the command. -/
theorem exec_winMedian_of_free {s : State} (hfree : s.ctl.busy = false) :
    exec .winMedian s = .next { winMedian s with ctl := endedWith .ok s.ctl } := by
  rw [exec_of_free hfree rfl rfl]
  simp only [ruleOf, winMedian]
  cases doubledMedian (sortedSamples s.win) <;> rfl

/-- Settles O16: the new window is the shifted one. -/
theorem winPushShiftsTheWindow : Obligations.WinPushShiftsTheWindow := by
  intro s raw hfree hlen hpos
  refine ⟨shiftAppend s.win (some raw), exec_of_free hfree rfl rfl, ?_, fun i hi => ?_, ?_⟩
  · rw [length_shiftAppend _ _ (List.length_pos_iff.1 (hlen ▸ hpos)), hlen]
  · exact getElem?_shiftAppend_of_lt _ (hlen ▸ hi)
  · rw [← hlen, getElem?_shiftAppend_last]

/-- Settles O17: ranks in the sorted copy, counted there, are counted in the window. -/
theorem winSelectAnswersTheOrderStatistic : Obligations.WinSelectAnswersTheOrderStatistic := by
  intro s k hfree
  refine ⟨orderStatistic k.toNat s.win, exec_of_free hfree rfl rfl, orderStatistic_eq_none,
    fun v hv => ?_⟩
  obtain ⟨hrank, hmem⟩ := orderStatistic_eq_some hv
  obtain ⟨hk, hget⟩ := List.getElem?_eq_some_iff.1 hrank
  have hbelow := countP_lt_getElem_le (sortedSamples_pairwise s.win) hk
  have hupto := lt_countP_le_getElem (sortedSamples_pairwise s.win) hk
  rw [hget, countP_sortedSamples] at hbelow hupto
  exact ⟨hmem, hbelow, hupto⟩

/-- Settles O18: the two cases of the median, on the one arrangement of the entries that is in order. -/
theorem winMedianEstimatesTheLevel : Obligations.WinMedianEstimatesTheLevel := by
  intro s hfree
  rw [exec_winMedian_of_free hfree]
  refine ⟨fun hempty => ?_, fun l hne hl hp => ?_⟩
  · have hmed : doubledMedian (sortedSamples s.win) = none := by rw [sortedSamples_eq_nil hempty]; rfl
    rw [winMedian, hmed]
  · rw [winMedian, sortedSamples_eq_of_perm hl hp, doubledMedian_of_ne_nil hne]
    simp only [levelOf_eq_estimate]
    rfl

/-- Settles O20: the sorted copy is a run of the low value and then a run of the high one. -/
theorem medianFollowsTheMajority : Obligations.MedianFollowsTheMajority := by
  intro s lo hi hfree hlt hw hpos
  refine ⟨_, exec_winMedian_of_free hfree, ?_⟩
  rw [winMedian, sortedSamples_of_two hlt hw, doubledMedian_replicate_append_replicate _ _ hpos]

/-- Settles O15: each reset is its rule on the admitted state. -/
theorem bufferResetsEmptyTheirBuffers : Obligations.BufferResetsEmptyTheirBuffers :=
  fun _ hfree => ⟨exec_of_free hfree rfl rfl, exec_of_free hfree rfl rfl, exec_of_free hfree rfl rfl⟩

end Sys2Proof.Proofs
end

section
/-! The calibrator (41): the start of `CALIBRATE`, its two scans as one loop over the
samples, and the threshold that a whole `CALIBRATE` computes. -/

namespace Sys2Proof.Proofs

open Sys2Proof Sys2Proof.Machine Sys2Proof.Config Sys2Proof.Laws

/-! ### The start (R131) -/

/-- Settles O21: the start rule on the admitted state. -/
theorem calibrateStarts : Obligations.CalibrateStarts := fun _ hfree => exec_of_free hfree rfl rfl

/-! ### A scan as a loop over its samples (R132, R133) -/

/-- `s` after the sample source answered `l` and left `rest`, each sample put through `f`. -/
def afterSamples (f : Nat → CalRegs → CalRegs) (l rest : List Sample) (s : State) : State :=
  { s with cal := (l.map BitVec.toNat).foldl (fun c raw => f raw c) s.cal,
           env := { s.env with samples := rest, calls := s.env.calls ++ l.map .readSample } }

theorem afterSamples_cons (f : Nat → CalRegs → CalRegs) (raw : Sample) (l rest : List Sample)
    (s : State) :
    afterSamples f l rest (afterSamples f [raw] (l ++ rest) s) = afterSamples f (raw :: l) rest s := by
  simp [afterSamples]

/-- Phase `p` is a scan: an iteration puts one sample through `f`, which counts it, and the last one
does `finish`. -/
structure IsScan (p : Phase) (f : Nat → CalRegs → CalRegs) (finish : State → State) : Prop where
  counts : ∀ raw c, (f raw c).cnt = c.cnt - 1
  iterates : ∀ {s : State} {raw : Sample} {rest : List Sample},
    s.seq.phase = p → s.env.samples = raw :: rest →
    iterate s = if s.cal.cnt - 1 = 0 then finish (afterSamples f [raw] rest s)
      else afterSamples f [raw] rest s

/-- A whole scan: after as many iterations as samples, all of them went through `f` and the scan is
finished. -/
theorem IsScan.run {p : Phase} {f : Nat → CalRegs → CalRegs} {finish : State → State}
    (h : IsScan p f finish) {l rest : List Sample} {s : State} (hl : l ≠ []) (hscript : s.script = [])
    (hp : s.seq.phase = p) (hcnt : s.cal.cnt = l.length) (hs : s.env.samples = l ++ rest) :
    runSteps l.length s = .next (finish (afterSamples f l rest s)) := by
  induction l generalizing s with
  | nil => exact absurd rfl hl
  | cons raw l ih =>
    rw [List.length_cons, runSteps_succ _ hscript, h.iterates hp hs]
    have hleft : s.cal.cnt - 1 = l.length := by rw [hcnt, List.length_cons, Nat.add_sub_cancel]
    rw [hleft]
    by_cases hlast : l = []
    · subst hlast
      rfl
    · have hscan := ih (s := afterSamples f [raw] (l ++ rest) s) hlast hscript hp
        ((h.counts raw.toNat s.cal).trans hleft) rfl
      rw [afterSamples_cons] at hscan
      rw [if_neg (mt List.length_eq_zero_iff.1 hlast)]
      exact hscan

/-- What the last sample of the first scan begins: the second scan, about the midpoint (R132). -/
def beginPartition (s : State) : State :=
  { s with cal := { s.cal with mid2 := s.cal.cmin + s.cal.cmax, cnt := s.arg.calScan2 },
           seq := { s.seq with phase := .cal2 } }

theorem cal1_isScan : IsScan .cal1 scanMinMax beginPartition where
  counts _ _ := rfl
  iterates hp hs := by
    rw [iterate, hp]
    simp only [cal1Iteration, readSample_queued hs]
    rfl

theorem scanPartition_cnt (raw : Nat) (c : CalRegs) : (scanPartition raw c).cnt = c.cnt - 1 := by
  rcases scanPartition_cases raw c with ⟨-, e⟩ | ⟨-, e⟩ | e <;> rw [e]

theorem cal2_isScan : IsScan .cal2 scanPartition endCalibrate where
  counts := scanPartition_cnt
  iterates hp hs := by
    rw [iterate, hp]
    simp only [cal2Iteration, readSample_queued hs, scanPartition_cnt]
    rfl

/-! ### What the two scans compute -/

/-- The first scan computes the extremes (R132). -/
theorem foldl_scanMinMax (l : List Nat) (c : CalRegs) :
    l.foldl (fun c raw => scanMinMax raw c) c = { c with
      cmin := l.foldl min c.cmin, cmax := l.foldl max c.cmax, cnt := c.cnt - l.length } := by
  induction l generalizing c with
  | nil => rfl
  | cons raw l ih =>
    rw [List.foldl_cons, ih]
    simp [scanMinMax, Nat.sub_sub, Nat.add_comm 1]

/-- The second scan sums and counts the samples strictly below the midpoint and those strictly above it
(R133). -/
theorem foldl_scanPartition (l : List Nat) (c : CalRegs) :
    l.foldl (fun c raw => scanPartition raw c) c = { c with
      loSum := c.loSum + (l.filter (fun r => 2 * r < c.mid2)).sum,
      loCnt := c.loCnt + (l.filter (fun r => 2 * r < c.mid2)).length,
      hiSum := c.hiSum + (l.filter (fun r => c.mid2 < 2 * r)).sum,
      hiCnt := c.hiCnt + (l.filter (fun r => c.mid2 < 2 * r)).length,
      cnt := c.cnt - l.length } := by
  induction l generalizing c with
  | nil => rfl
  | cons raw l ih =>
    rw [List.foldl_cons, ih, scanPartition]
    rcases lt_trichotomy (2 * raw) c.mid2 with h | h | h
    · simp [h, h.le.not_gt, Nat.sub_sub, Nat.add_assoc, Nat.add_comm 1]
    · simp [h, Nat.sub_sub, Nat.add_comm 1]
    · simp [h, h.le.not_gt, Nat.sub_sub, Nat.add_assoc, Nat.add_comm 1]

/-! ### The end (R134) -/

theorem endCalibrate_of_empty_group {s : State} (h : s.cal.loCnt = 0 ∨ s.cal.hiCnt = 0) :
    endCalibrate s = { s with
      seq := { s.seq with phase := .idle },
      ctl := { s.ctl with busy := false, done := true, code := .insufficientSpread } } := by
  rw [endCalibrate, if_pos h, raise]
  split <;> rfl

theorem endCalibrate_of_two_groups {s : State} (h : ¬ (s.cal.loCnt = 0 ∨ s.cal.hiCnt = 0)) :
    endCalibrate s = { s with
      cal := { s.cal with calNum := s.cal.loSum * s.cal.hiCnt + s.cal.hiSum * s.cal.loCnt,
                          calDen := 2 * s.cal.loCnt * s.cal.hiCnt, calValid := true },
      seq := { s.seq with phase := .idle },
      ctl := { s.ctl with busy := false, done := true, code := .ok } } := by
  rw [endCalibrate, if_neg h]
  rfl

/-! ### The whole operation -/

/-- The two scans run one after the other, and the end rule on what they leave. -/
theorem runSteps_twoScans {first second rest : List Sample} {s : State} (hfirst : first ≠ [])
    (hsecond : second ≠ []) (hscript : s.script = []) (hp : s.seq.phase = .cal1)
    (hcnt : s.cal.cnt = first.length) (hscan2 : s.arg.calScan2 = second.length)
    (hs : s.env.samples = first ++ second ++ rest) :
    runSteps (first.length + second.length) s = .next (endCalibrate
      (afterSamples scanPartition second rest
        (beginPartition (afterSamples scanMinMax first (second ++ rest) s)))) := by
  rw [List.append_assoc] at hs
  rw [runSteps_add second.length (cal1_isScan.run hfirst hscript hp hcnt hs)]
  exact cal2_isScan.run hsecond hscript rfl hscan2 rfl

/-- The flags between the start of an operation and its end are the ones of a command that a free block
accepted (46 R255). -/
theorem startedFrom_ended {k : CtlRegs} (hfree : k.busy = false) (c : Code) :
    { startedFrom k with busy := false, done := true, code := c } = endedWith c k := by
  cases k
  cases hfree
  rfl

/-- Settles O22: the two scans from the started block, and the end rule on what they computed. -/
theorem calibrateComputesTheThreshold : Obligations.CalibrateComputesTheThreshold := by
  intro s first second rest hfree hscript hfirst hsecond hlen1 hlen2 hsamples mid2 lo hi
  refine ⟨_, _, calibrateStarts s hfree,
    runSteps_twoScans hfirst hsecond hscript rfl hlen1.symm hlen2.symm hsamples, ?_⟩
  have calls : s.env.calls ++ (first ++ second).map PortEvent.readSample =
      s.env.calls ++ first.map .readSample ++ second.map .readSample := by
    rw [List.map_append, List.append_assoc]
  simp only [afterSamples, beginPartition, foldl_scanMinMax, foldl_scanPartition, Nat.zero_add, calls]
  have hcount : lo.length = 0 ∨ hi.length = 0 ↔ lo = [] ∨ hi = [] := by
    simp only [List.length_eq_zero_iff]
  by_cases hempty : lo = [] ∨ hi = []
  · rw [endCalibrate_of_empty_group (hcount.2 hempty), if_pos hempty, if_pos hempty, if_pos hempty]
    exact ⟨by rw [← startedFrom_ended hfree], (decide_eq_false fun h => hempty.elim h.1 h.2).symm,
      rfl, rfl⟩
  · rw [endCalibrate_of_two_groups (mt hcount.1 hempty), if_neg hempty, if_neg hempty, if_neg hempty]
    exact ⟨by rw [← startedFrom_ended hfree], (decide_eq_true (not_or.1 hempty)).symm, rfl, rfl⟩

end Sys2Proof.Proofs
end

section
/-! The environment's calls of one iteration (41 R136, 43 R180, 44 R222, 45 R244, 60 R294):
`iterate_calls` lists them phase by phase. -/

namespace Sys2Proof.Proofs

open Sys2Proof Sys2Proof.Machine Sys2Proof.Config Sys2Proof.Laws

/-! ### What one iteration may call -/

/-- The lists of calls that an iteration in a phase may make, in order. -/
inductive IterationCalls : Phase → List PortEvent → Prop
  /-- No operation in progress (60 R288). -/
  | idle : IterationCalls .idle []
  | cal1 (raw : Sample) : IterationCalls .cal1 [.readSample raw]
  | cal2 (raw : Sample) : IterationCalls .cal2 [.readSample raw]
  /-- The timeout of a scan (43 R179). -/
  | timeout (now : Int) : IterationCalls .scan [.feed, .nowUs now]
  | scan (now : Int) (raw : Sample) : IterationCalls .scan [.feed, .nowUs now, .readSample raw]
  | settle (now : Int) : IterationCalls .settle [.feed, .nowUs now]
  /-- The idle end of a decode loop (44 R217). -/
  | idleEnd (now : Int) (frame : List Byte) :
      IterationCalls .decode [.feed, .nowUs now, .emitFrame frame]
  | decode (now : Int) (raw : Sample) : IterationCalls .decode [.feed, .nowUs now, .readSample raw]
  /-- The capacity end of a decode loop (44 R218). -/
  | capacityEnd (now : Int) (raw : Sample) (frame : List Byte) :
      IterationCalls .decode [.feed, .nowUs now, .readSample raw, .emitFrame frame]
  | txPre (b : Bool) (hp : Rat) : IterationCalls .txPre (cellEvents b hp)
  /-- The last preamble bit of a frame without data: the line is driven low (45 R243). -/
  | txPreEnd (b : Bool) (hp : Rat) : IterationCalls .txPre (cellEvents b hp ++ [.actuate false])
  | txData (b : Bool) (hp : Rat) : IterationCalls .txData (cellEvents b hp)
  /-- The last data bit of a frame: the line is driven low (45 R243). -/
  | txDataEnd (b : Bool) (hp : Rat) : IterationCalls .txData (cellEvents b hp ++ [.actuate false])

namespace IterationCalls

variable {p : Phase} {l : List PortEvent}

theorem eq_nil (h : IterationCalls p l) (hp : p = .idle) : l = [] := by
  subst hp
  cases h
  rfl

/-- A calibration iteration reads one sample and calls nothing else (41 R136). -/
theorem reads_once (h : IterationCalls p l) (hp : p = .cal1 ∨ p = .cal2) :
    ∃ raw, l = [.readSample raw] := by
  cases h
  case cal1 raw | cal2 raw => exact ⟨raw, rfl⟩
  all_goals simp at hp

/-- An iteration of a loop feeds first, and once (60 R294). -/
theorem feeds_once (h : IterationCalls p l)
    (hp : p = .scan ∨ p = .settle ∨ p = .decode ∨ p = .txPre ∨ p = .txData) :
    l.head? = some .feed ∧ l.count .feed = 1 := by
  cases h
  case idle | cal1 | cal2 => simp at hp
  all_goals simp [cellEvents]

end IterationCalls

/-- `t` comes from `s` by an iteration's calls in the phase of `s`. -/
def CallsOfIteration (s t : State) : Prop :=
  ∃ l, IterationCalls s.seq.phase l ∧ t.env.calls = s.env.calls ++ l

theorem CallsOfIteration.of {s t : State} {p : Phase} {l : List PortEvent} (h : s.seq.phase = p)
    (hl : IterationCalls p l) (hcalls : t.env.calls = s.env.calls ++ l) : CallsOfIteration s t :=
  ⟨l, h ▸ hl, hcalls⟩

/-! ### The calls of the receive loops -/

theorem nowUs_feed_calls {s c : State} {now : Int} (h : nowUs (feed s) = (now, c)) :
    c.env.calls = s.env.calls ++ [.feed, .nowUs now] := by
  have hcalls := nowUs_calls (feed s)
  rw [h, feed_env] at hcalls
  simpa using hcalls

theorem calls_of_readSample {s r : State} {raw : Sample} (h : readSample s = (raw, r)) :
    r.env.calls = s.env.calls ++ [.readSample raw] := by
  have hcalls := readSample_calls s
  rwa [h] at hcalls

/-- A push into the window and the detector's answer call nothing. -/
theorem hear_env {raw : Sample} {now : Int} {r t : State} {a : Option (Nat × Level)}
    (h : tdStep (pushSample raw r).cond.level now (pushSample raw r) = (a, t)) : t.env = r.env := by
  have key : (tdStep (pushSample raw r).cond.level now (pushSample raw r)).2.env = r.env := by simp
  rwa [h] at key

theorem env_of_appendHold {n : Nat} {lv : Level} {s t : State} {a : Answer}
    (h : appendHold n lv s = (a, t)) : t.env = s.env := by
  have key : (appendHold n lv s).2.env = s.env := by simp
  rwa [h] at key

theorem finalize_calls (idle : Bool) (s : State) :
    (finalize idle s).env.calls = s.env.calls ++ [.emitFrame (finalize idle s).dec.fb] := by
  rw [(finalize_handOver idle s).1]

theorem scanIteration_calls {s : State} (h : s.seq.phase = .scan) :
    CallsOfIteration s (scanIteration s) := by
  obtain ⟨now, c, hn⟩ : ∃ now c, nowUs (feed s) = (now, c) := ⟨_, _, rfl⟩
  have hclock := nowUs_feed_calls hn
  rcases scanIteration_cases hn with ⟨-, e⟩ | ⟨-, raw, r, hr, hpush⟩
  · exact .of h (.timeout now) (by simp [e, endTimeout, hclock])
  · have hread := calls_of_readSample hr
    refine .of h (.scan now raw) ?_
    rcases hpush with ⟨t, ht, e⟩ | ⟨k, lv, t, ht, e⟩ <;> simp [e, hear_env ht, hread, hclock]

theorem settleIteration_calls {s : State} (h : s.seq.phase = .settle) :
    CallsOfIteration s (settleIteration s) := by
  refine .of h (.settle (nowUs (feed s)).1) ?_
  unfold settleIteration lockReached
  dsimp only
  split
  · split <;> simp
  · simp

theorem decodeIteration_calls {s : State} (h : s.seq.phase = .decode) :
    CallsOfIteration s (decodeIteration s) := by
  obtain ⟨now, c, hn⟩ : ∃ now c, nowUs (feed s) = (now, c) := ⟨_, _, rfl⟩
  have hclock := nowUs_feed_calls hn
  rcases decodeIteration_cases hn with ⟨-, e⟩ | ⟨-, raw, r, hr, hpush⟩
  · exact .of h (.idleEnd now (finalize true c).dec.fb) (by simp [e, finalize_calls, hclock])
  · have hread := calls_of_readSample hr
    rcases hpush with ⟨t, ht, e⟩ | ⟨k, lv, t, ht, ⟨u, hu, e⟩ | ⟨skip, u, hu, e⟩⟩
    · exact .of h (.decode now raw) (by simp [e, hear_env ht, hread, hclock])
    · exact .of h (.capacityEnd now raw (finalize false u).dec.fb)
        (by simp [e, finalize_calls, env_of_appendHold hu, hear_env ht, hread, hclock])
    · exact .of h (.decode now raw) (by simp [e, env_of_appendHold hu, hear_env ht, hread, hclock])

/-! ### The calls of the encoder's loops -/

/-- One bit of a transmission feeds, then drives the two halves of its cell (45 R235, R244). -/
theorem bitCell_feed_calls (b : Bool) (hp : Rat) (s : State) :
    (bitCell b hp (feed s)).env.calls = s.env.calls ++ cellEvents b hp := by
  simp [cellEvents]

theorem endTransmit_calls (s : State) :
    (endTransmit s).env.calls = s.env.calls ++ [.actuate false] := rfl

theorem txPreIteration_calls {s : State} (h : s.seq.phase = .txPre) :
    CallsOfIteration s (txPreIteration s) := by
  have hcell := bitCell_feed_calls (decide (4 ≤ s.tx.bitIdx)) s.params.preambleHalfUs s
  unfold txPreIteration preambleSent
  dsimp only
  split
  · exact .of h (.txPre _ _) hcell
  · split
    · exact .of h (.txPre _ _) hcell
    · split
      · exact .of h (.txPreEnd _ _) (by rw [endTransmit_calls, hcell, List.append_assoc])
      · exact .of h (.txPre _ _) hcell

theorem txDataIteration_calls {s : State} (h : s.seq.phase = .txData) :
    CallsOfIteration s (txDataIteration s) := by
  have hcell := bitCell_feed_calls (currentBit s) (halfUs s.cfg.freq) s
  unfold txDataIteration
  dsimp only
  split
  · exact .of h (.txData _ _) hcell
  · split
    · exact .of h (.txDataEnd _ _) (by rw [endTransmit_calls, hcell, List.append_assoc])
    · exact .of h (.txData _ _) hcell

/-! ### The calls of a calibration -/

theorem cal1Iteration_calls {s : State} (h : s.seq.phase = .cal1) :
    CallsOfIteration s (cal1Iteration s) := by
  refine .of h (.cal1 (readSample s).1) ?_
  unfold cal1Iteration
  dsimp only
  split <;> exact readSample_calls s

@[simp] theorem endCalibrate_env (s : State) : (endCalibrate s).env = s.env := by
  unfold endCalibrate
  split <;> simp

theorem cal2Iteration_calls {s : State} (h : s.seq.phase = .cal2) :
    CallsOfIteration s (cal2Iteration s) := by
  refine .of h (.cal2 (readSample s).1) ?_
  unfold cal2Iteration
  dsimp only
  split
  · rw [endCalibrate_env]
    exact readSample_calls s
  · exact readSample_calls s

/-! ### Every iteration -/

/-- All that an iteration calls. -/
theorem iterate_calls (s : State) : CallsOfIteration s (iterate s) := by
  unfold iterate
  split
  case h_1 h => exact .of h .idle (List.append_nil _).symm
  case h_2 h => exact cal1Iteration_calls h
  case h_3 h => exact cal2Iteration_calls h
  case h_4 h => exact scanIteration_calls h
  case h_5 h => exact settleIteration_calls h
  case h_6 h => exact decodeIteration_calls h
  case h_7 h => exact txPreIteration_calls h
  case h_8 h => exact txDataIteration_calls h

/-- Settles O60: with no host action pending a step is an iteration, and its calls are listed. -/
theorem everyLoopIterationFeedsOnce : Obligations.EveryLoopIterationFeedsOnce := by
  intro s t hs h
  rcases step_cases h with ⟨-, rfl⟩ | ⟨a, rest, hs', -⟩
  · obtain ⟨l, hl, hcalls⟩ := iterate_calls s
    exact ⟨l, hcalls, hl.eq_nil, hl.reads_once, hl.feeds_once⟩
  · rw [hs] at hs'
    cases hs'

end Sys2Proof.Proofs
end

section
/-! The signal conditioner (42): what `SET_THRESH` installs and who else writes the configuration, and
`PUSH_SAMPLE` as a push and then a median. -/

namespace Sys2Proof.Proofs

open Sys2Proof Sys2Proof.Machine Sys2Proof.Config Sys2Proof.Laws

/-! ### The threshold (R146) -/

theorem badThreshold_iff (n d : Nat) : badThreshold n d = true ↔ d = 0 ∨ n = 0 ∨ 4095 * d ≤ n :=
  decide_eq_true_iff

/-- `SET_THRESH` on a free block, with its test on the operand registers. -/
theorem setThresh_of_free {s : State} (hfree : s.ctl.busy = false) :
    setThresh s =
      if s.arg.arg1 = 0 ∨ s.arg.arg0 = 0 ∨ 4095 * s.arg.arg1 ≤ s.arg.arg0
      then { s with ctl := { s.ctl with done := true, code := .badConfig } }
      else { s with cfg := { s.cfg with thrNum := s.arg.arg0, thrDen := s.arg.arg1 },
                    ctl := { s.ctl with done := true, code := .ok } } := by
  simp only [setThresh, badThreshold_iff, raise_of_free _ hfree, complete]

/-- The rule of no other command writes the threshold (10 R21). -/
theorem ruleOf_threshold_of_ne {i : Instr} (hi : i ≠ .setThresh) (s : State) :
    ((ruleOf i s).cfg.thrNum, (ruleOf i s).cfg.thrDen) = (s.cfg.thrNum, s.cfg.thrDen) := by
  cases i
  case setThresh => exact absurd rfl hi
  case setFreq f => simp only [ruleOf, setFreq]; split <;> simp
  all_goals simp [ruleOf]

/-- Beside the reset input, only the rule of an issued command can write the configuration (10 R21). -/
theorem step_cfg {s t : State} (h : step s = .next t) :
    s.Resets ∨ t.cfg = s.cfg ∨
      ∃ i u, s.Issues i ∧ u.cfg = s.cfg ∧ t.cfg = (ruleOf i u).cfg := by
  rcases step_cases h with ⟨-, rfl⟩ | ⟨a, rest, hs, h⟩
  · exact .inr (.inl (iterate_frame s).1)
  rcases act_cases h with ⟨-, rfl⟩ | ⟨rfl, -⟩ | ⟨command, calls, _, rfl, -, -⟩ | ⟨addr, -, rfl⟩ |
    ⟨addr, d, -, -, rfl⟩ | ⟨d, e, -, -, rfl⟩ | ⟨d, i, rfl, hd, h⟩
  · exact .inr (.inl (iterate_frame _).1)
  · exact .inl ⟨rest, .inl hs⟩
  · exact .inl ⟨rest, .inr ⟨command, calls, hs⟩⟩
  · exact .inr (.inl rfl)
  · refine .inr (.inl ?_)
    unfold hostWrite
    split <;> simp
  · refine .inr (.inl ?_)
    unfold illegalCommand
    split <;> simp
  · rcases exec_cases h with ⟨-, rfl⟩ | ⟨-, e, -, rfl⟩ | ⟨hfree, -, rfl⟩
    · exact .inr (.inl rfl)
    · exact .inr (.inl (by simp))
    · exact .inr (.inr ⟨i, admission (keepsLock i) { s with script := rest },
        ⟨hfree, d, rest, hs, hd⟩, rfl, rfl⟩)

/-- Settles O13: the rule on the admitted state; and a step that writes the configuration without a reset
runs the rule of an issued command, which for every other command keeps the threshold. -/
theorem setThreshInstallsTheThreshold : Obligations.SetThreshInstallsTheThreshold := by
  refine ⟨fun s hfree => ?_, fun s t h hne => ?_⟩
  · rw [exec_of_free hfree rfl rfl, ruleOf, setThresh_of_free (by exact hfree)]
    rfl
  · rcases step_cfg h with hreset | hkept | ⟨i, u, hissued, hu, ht⟩
    · exact .inl hreset
    · exact absurd (by rw [hkept]) hne
    · by_cases hi : i = .setThresh
      · exact .inr (hi ▸ hissued)
      · exact absurd (by rw [ht, ruleOf_threshold_of_ne hi, hu]) hne

/-! ### The sample path (R148) -/

/-- `WIN_MEDIAN` neither reads nor writes the control registers. -/
theorem winMedian_withCtl (s : State) (k : CtlRegs) :
    winMedian { s with ctl := k } = { winMedian s with ctl := k } := by
  simp only [winMedian]
  cases doubledMedian (sortedSamples s.win) <;> rfl

theorem exec_winPush_of_free {s : State} (raw : Sample) (hfree : s.ctl.busy = false) :
    exec (.winPush raw) s = .next { winPush raw s with ctl := endedWith .ok s.ctl } :=
  exec_of_free hfree rfl rfl

/-- On a free block `PUSH_SAMPLE` runs as `WIN_MEDIAN` does on the window already pushed into. -/
theorem exec_pushSample_of_free {s : State} (raw : Sample) (hfree : s.ctl.busy = false) :
    exec (.pushSample raw) s = .next { pushSample raw s with ctl := endedWith .ok s.ctl } :=
  calc exec (.pushSample raw) s
    _ = exec .winMedian (winPush raw s) :=
      (exec_of_free hfree rfl rfl).trans
        (exec_of_free (i := .winMedian) (s := winPush raw s) hfree rfl rfl).symm
    _ = .next { winMedian (winPush raw s) with ctl := endedWith .ok s.ctl } :=
      exec_winMedian_of_free hfree

/-- Settles O19: the end of `WIN_PUSH` writes control registers alone, which the median does not read; and
the window that was pushed into is not empty. -/
theorem pushSampleIsPushThenMedian : Obligations.PushSampleIsPushThenMedian := by
  intro s raw hfree
  obtain ⟨m2, -, hheard⟩ := pushSample_eq raw s
  refine ⟨_, { pushSample raw s with ctl := endedWith .ok s.ctl }, exec_winPush_of_free raw hfree, ?_,
    exec_pushSample_of_free raw hfree, ?_⟩
  · rw [exec_winMedian_of_free (by exact hfree), winMedian_withCtl]
    rfl
  · rw [hheard]
    exact ⟨rfl, rfl, _, rfl⟩

end Sys2Proof.Proofs
end

section
/-! The transition detector (43 R163, R165), one equation for each of its branches. -/

namespace Sys2Proof.Proofs

open Sys2Proof Sys2Proof.Machine Sys2Proof.Config Sys2Proof.Laws

/-! ### `TD_STEP` branch by branch (R165) -/

theorem hi_ne_iff (q c : Rat) : hi q ≠ hi c ↔ ¬ (1 ≤ q ↔ 1 ≤ c) := by
  rw [Ne, hi, hi, decide_eq_decide]

/-- The first level is adopted. -/
theorem tdStep_of_no_level {s : State} (q : Rat) (now : Int) (h : s.det.cur = none) :
    tdStep (.ratio q) now s = (none, acceptLevel q now s) := by
  simp only [tdStep, h]
  rfl

/-- A level that differs from the current one is accepted once `DEB` has reached 6. -/
theorem tdStep_of_level {s : State} {c : Rat} (q : Rat) (now : Int) (h : s.det.cur = some c) :
    tdStep (.ratio q) now s =
      if hi q ≠ hi c ∧ debounceMin ≤ countPush s.det.deb then
        (some (holdSlots (now - s.det.tLast) s.cfg.freq, .ratio c), acceptLevel q now s)
      else (none, { s with det := { s.det with deb := countPush s.det.deb } }) := by
  simp only [tdStep, h]
  rfl

/-- Settles O31: no data, the first level, and a level to compare with the current one. -/
theorem transitionDetectorStep : Obligations.TransitionDetectorStep := by
  intro s now counted
  refine ⟨rfl, fun q => ?_⟩
  refine ⟨tdStep_of_no_level q now, fun c hc => ?_⟩
  rw [tdStep_of_level q now hc]
  simp only [hi_ne_iff]
  rfl

/-! ### Debounce (R163) -/

/-- Before the sixth push nothing is answered, and a push counts one at most. -/
theorem tdStep_debounces (e : Level) (now : Int) {s : State} (h : s.det.deb < 5) :
    (tdStep e now s).1 = none ∧ (tdStep e now s).2.det.deb ≤ s.det.deb + 1 := by
  rcases tdStep_cases e now s with eq | ⟨q, -, -, eq⟩ | ⟨q, c, -, -, -, hdeb, -⟩
  · rw [eq]
    exact ⟨rfl, min_le_left _ _⟩
  · rw [eq]
    exact ⟨rfl, Nat.zero_le _⟩
  · simp only [countPush, debounceMin] at hdeb
    omega

/-- One push of a run of pushes: its answer joins the answers before it. -/
abbrev pushAll (acc : List (Option (Nat × Level)) × State) (e : Level × Int) :
    List (Option (Nat × Level)) × State :=
  (acc.1 ++ [(tdStep e.1 e.2 acc.2).1], (tdStep e.1 e.2 acc.2).2)

/-- As long as the pushes fit below the sixth, none of them is answered. -/
theorem pushAll_debounces (pushes : List (Level × Int)) (answers : List (Option (Nat × Level)))
    {s : State} (hdeb : s.det.deb + pushes.length ≤ 5) (hnone : ∀ a ∈ answers, a = none) :
    ∀ a ∈ (pushes.foldl pushAll (answers, s)).1, a = none := by
  induction pushes generalizing answers s with
  | nil => exact hnone
  | cons e pushes ih =>
    rw [List.length_cons] at hdeb
    obtain ⟨hanswer, hcount⟩ := tdStep_debounces e.1 e.2 (s := s) (by omega)
    refine ih _ (by dsimp only; omega) fun a ha => ?_
    rcases List.mem_append.1 ha with ha | ha
    · exact hnone a ha
    · rw [List.mem_singleton.1 ha, hanswer]

/-- Settles O32: five pushes after `DEB` was cleared stay below the sixth, which may be accepted. -/
theorem acceptedTransitionsAreSixPushesApart : Obligations.AcceptedTransitionsAreSixPushesApart := by
  refine ⟨fun s pushes hdeb hlen => ?_, fun s q c now hdeb hcur hflip => ?_⟩
  · exact pushAll_debounces pushes [] (by omega) (by simp)
  · have hsix : debounceMin ≤ countPush s.det.deb := by rw [hdeb]; decide
    rw [tdStep_of_level q now hcur, if_pos ⟨hflip, hsix⟩]
    exact ⟨_, rfl⟩

end Sys2Proof.Proofs
end

section
/-! The preamble history (43 R171 to R173): the suffix match slot by slot, and the two commands that shift
and test the history. -/

namespace Sys2Proof.Proofs

open Sys2Proof Sys2Proof.Machine Sys2Proof.Config Sys2Proof.Laws

/-! ### The suffix match (R172) -/

theorem slotAgrees_iff (slot : HistSlot) (p : Bool) :
    slotAgrees slot p = true ↔ ∃ q : Rat, slot = some (.ratio q) ∧ (1 ≤ q ↔ p = true) := by
  rcases slot with _ | _ | q
  · simp [slotAgrees]
  · simp [slotAgrees]
  · cases p <;> simp [slotAgrees, hi]

/-- What the test compares: the slots from 6 on, each with the pattern's symbol of its place. -/
theorem mem_zip_suffix {h : List HistSlot} {x : HistSlot × Bool} :
    x ∈ (h.drop (histLen - minSyncBits)).zip (preamblePattern.drop (histLen - minSyncBits)) ↔
      ∃ k, h[6 + k]? = some x.1 ∧ preamblePattern[6 + k]? = some x.2 := by
  simp only [List.mem_iff_getElem?, List.getElem?_zip_eq_some, List.getElem?_drop]
  rfl

theorem suffixMatches_iff {h : List HistSlot} (hlen : h.length = 16) :
    suffixMatches h = true ↔ SuffixAgrees h := by
  rw [suffixMatches, List.all_eq_true]
  constructor
  · intro hall i hlo hhi
    obtain ⟨k, rfl⟩ := Nat.exists_eq_add_of_le hlo
    have hslot := List.getElem?_eq_getElem (l := h) (i := 6 + k) (by omega)
    have hsym := List.getElem?_eq_getElem (l := preamblePattern) (i := 6 + k) hhi
    obtain ⟨q, hq, hiff⟩ := (slotAgrees_iff _ _).1 (hall (_, _) (mem_zip_suffix.2 ⟨k, hslot, hsym⟩))
    exact ⟨q, hslot.trans (congrArg some hq), by rw [hsym, Option.some_inj]; exact hiff⟩
  · rintro hagrees ⟨slot, p⟩ hmem
    obtain ⟨k, hslot, hsym⟩ := mem_zip_suffix.1 hmem
    have hk : 6 + k < 16 := hlen ▸ (List.getElem?_eq_some_iff.1 hslot).1
    obtain ⟨q, hq, hiff⟩ := hagrees (6 + k) (Nat.le_add_right 6 k) hk
    rw [hslot] at hq
    rw [hsym, Option.some_inj] at hiff
    exact (slotAgrees_iff _ _).2 ⟨q, Option.some.inj hq, hiff⟩

/-! ### The commands on a free block -/

/-- The operand of a `CL` immediate, as the statements spell it (30 R82). -/
theorem levelOperand_eq_levelMeant (m2 : BitVec 13) (nd : Bool) (s : State) :
    levelOperand m2 nd s = levelMeant m2 nd s.cfg := by
  rw [levelOperand, levelMeant, levelOf_eq_estimate]

theorem length_shiftAppend_history {h : List HistSlot} (hlen : h.length = 16) (x : HistSlot) :
    (shiftAppend h x).length = 16 := by
  rw [length_shiftAppend _ _ (List.length_pos_iff.1 (hlen ▸ by decide)), hlen]

/-- Settles O23: the new history is the shifted one. -/
theorem histAppendShiftsTheHistory : Obligations.HistAppendShiftsTheHistory := by
  intro s m2 nd hfree hlen
  refine ⟨shiftAppend s.hist (some (levelMeant m2 nd s.cfg)), ?_,
    length_shiftAppend_history hlen _, fun i hi => ?_, ?_⟩
  · rw [exec_of_free hfree rfl rfl]
    simp only [ruleOf, levelOperand_eq_levelMeant]
    rfl
  · exact getElem?_shiftAppend_of_lt _ (by omega)
  · rw [show 15 = s.hist.length - 1 by rw [hlen], getElem?_shiftAppend_last]

/-- Settles O24: `MATCH` is the answer of the suffix match. -/
theorem histMatchTestsTheSuffix : Obligations.HistMatchTestsTheSuffix :=
  fun s hfree hlen => ⟨suffixMatches s.hist, exec_of_free hfree rfl rfl, suffixMatches_iff hlen⟩

/-! ### Histories that do not match (R173) -/

/-- Fewer than ten filled slots leave slot 6 empty (R173 a). -/
theorem not_suffixAgrees_of_few {h : List HistSlot} (hlen : h.length = 16) (hblock : TrailingBlock h)
    (hfew : h.countP Option.isSome < 10) : ¬ SuffixAgrees h := by
  obtain ⟨k, filled, rfl⟩ := hblock
  have hcount : (List.replicate k (none : HistSlot) ++ filled.map some).countP Option.isSome =
      filled.length := by
    simp [List.countP_append, List.countP_replicate, List.countP_map, Function.comp_def]
  have hempty : 6 < k := by
    rw [hcount] at hfew
    rw [List.length_append, List.length_replicate, List.length_map] at hlen
    omega
  intro hagrees
  obtain ⟨q, hq, -⟩ := hagrees 6 le_rfl (by decide)
  rw [List.getElem?_append_left (by rwa [List.length_replicate]), List.getElem?_replicate,
    if_pos hempty] at hq
  cases hq

/-- Ten symbols in a row of the pattern, but for its last ten, differ from its last ten somewhere. -/
theorem preamblePattern_suffix_unique : ∀ m < 16, 10 ≤ m →
    ∃ k < 10, ¬ (preamblePattern[m - 10 + k]? = some true ↔ preamblePattern[6 + k]? = some true) := by
  decide

/-- A preamble still arriving has other symbols than its end (R173 b). -/
theorem not_suffixAgrees_of_arriving {h : List HistSlot} {m : Nat} (hlo : 10 ≤ m) (hhi : m ≤ 15)
    (hsym : ∀ k, k < 10 → ∃ q : Rat, h[6 + k]? = some (some (.ratio q)) ∧
      (1 ≤ q ↔ preamblePattern[m - 10 + k]? = some true)) : ¬ SuffixAgrees h := by
  intro hagrees
  obtain ⟨k, hk, hdiffer⟩ := preamblePattern_suffix_unique m (by omega) hlo
  obtain ⟨q, hq, harriving⟩ := hsym k hk
  obtain ⟨q', hq', hend⟩ := hagrees (6 + k) (by omega) (by omega)
  rw [hq] at hq'
  cases hq'
  exact hdiffer (harriving.symm.trans hend)

/-- Settles O25: neither kind of history has the pattern's suffix. -/
theorem partialPreambleDoesNotMatch : Obligations.PartialPreambleDoesNotMatch := by
  intro s hfree hlen
  obtain ⟨m, hexec, hmatch⟩ := histMatchTestsTheSuffix s hfree hlen
  have unmatched (hno : ¬ SuffixAgrees s.hist) :
      ∃ t, exec .histMatch s = .next t ∧ t.ctl.matched = false :=
    ⟨_, hexec, Bool.eq_false_of_not_eq_true (mt hmatch.1 hno)⟩
  exact ⟨fun hblock hfew => unmatched (not_suffixAgrees_of_few hlen hblock hfew),
    fun _ hlo hhi hsym => unmatched (not_suffixAgrees_of_arriving hlo hhi hsym)⟩

end Sys2Proof.Proofs
end

section
/-! The loops of the synchronizing operations (43 R175 to R179): their start, the settle iteration, and the
scan iteration with the appends and match tests of an ended hold. -/

namespace Sys2Proof.Proofs

open Sys2Proof Sys2Proof.Machine Sys2Proof.Config Sys2Proof.Laws

/-! ### The start (R175, 44 R220) -/

theorem needsFreq_of_ne {s : State} (h : s.cfg.freq ≠ 0) : needsFreq s = none := if_neg h

/-- Settles O26: both start rules, on the admitted state. -/
theorem scanStartsFresh : Obligations.ScanStartsFresh := by
  rintro s i op hfree hfreq (⟨rfl, rfl⟩ | ⟨rfl, rfl⟩) <;>
    exact exec_of_free hfree (needsFreq_of_ne hfreq) rfl

/-! ### The clock of an iteration -/

/-- With no host action pending a step is one iteration of the operation in progress (46 R259). -/
theorem step_of_no_action {s : State} (h : s.script = []) : step s = .next (iterate s) := by
  unfold step advance
  rw [h]

/-- `s` once an iteration fed and got the clock answer `w`. -/
abbrev clocked (w : HostWord) (rest : List HostWord) (s : State) : State :=
  { s with env := { s.env with clock := rest, lastNow := w.toInt,
                               calls := s.env.calls ++ [.feed, .nowUs w.toInt] } }

theorem nowUs_feed_queued {s : State} {w : HostWord} {rest : List HostWord}
    (hclock : s.env.clock = w :: rest) (hw : s.env.lastNow ≤ w.toInt) :
    nowUs (feed s) = (w.toInt, clocked w rest s) := by
  rw [nowUs_queued (s := feed s) hclock hw]
  simp [feed, record]

/-! ### The settle iteration (R178, R179, 44 R214) -/

theorem settleIteration_queued {s : State} {w : HostWord} {rest : List HostWord}
    (hclock : s.env.clock = w :: rest) (hw : s.env.lastNow ≤ w.toInt) :
    settleIteration s =
      if (s.params.settleUs : Int) ≤ w.toInt - s.seq.tSettle then lockReached (clocked w rest s)
      else clocked w rest s := by
  rw [settleIteration, nowUs_feed_queued hclock hw]

/-- Into an empty buffer a half-bit is stored, and no byte is closed. -/
theorem hbAppend_of_empty {s : State} (lv : Level) (hempty : s.dec.hb = [])
    (hroom : 1 ≤ s.params.maxPacketHalfBits) : hbAppend lv s = (.ok false, storeHalfBit lv s) := by
  have hlen : hbLen s = 0 := by rw [hbLen, hempty, List.length_nil]
  rcases hbAppend_cases lv s with ⟨hfull, -⟩ | ⟨-, -, e⟩ | ⟨-, hbyte, -⟩
  · omega
  · exact e
  · omega

/-- A decode loop that starts on an empty buffer has the carry, if there is one, as its first half-bit. -/
theorem enterDecode_of_empty {s : State} (hempty : s.dec.hb = [])
    (hroom : 1 ≤ s.params.maxPacketHalfBits) :
    enterDecode s = { s with
      seq := { s.seq with phase := .decode },
      dec := { s.dec with hb := s.dec.carry.toList, carry := none } } := by
  unfold enterDecode
  dsimp only
  split
  · rename_i hcarry
    rw [hcarry, Option.toList_none, ← hempty, ← hcarry]
  · rename_i lv hcarry
    rw [hbAppend_of_empty lv (by exact hempty) (by exact hroom), hcarry]
    simp [storeHalfBit, hempty]

/-- Settles O29: the delay lasts, the lock, and the way on to decoding. -/
theorem settleLocks : Obligations.SettleLocks := by
  intro s w rest hscript hphase hclock hw waited
  have hstep : step s = .next
      (if (s.params.settleUs : Int) ≤ w.toInt - s.seq.tSettle then lockReached waited else waited) := by
    rw [step_of_no_action hscript, iterate, hphase]
    exact congrArg _ (settleIteration_queued hclock hw)
  refine ⟨fun hlasts => ?_, fun hover hop => ?_, fun hover hop hempty hroom => ?_⟩
  · rw [hstep, if_neg (not_le.2 hlasts)]
  · rw [hstep, if_pos hover, lockReached, if_pos hop]
    rfl
  · have hnot : ¬ waited.seq.op = 0x33 := by
      show ¬ s.seq.op = 0x33
      rw [hop]
      decide
    rw [hstep, if_pos hover, lockReached, if_neg hnot,
      enterDecode_of_empty (by exact hempty) (by exact hroom)]

/-! ### The scan iteration (R176, R179) -/

/-- `T_START` once the first iteration has latched it. -/
abbrev scanStart (now : Int) (s : State) : Int := if s.seq.first then now else s.seq.tStart

/-- `s` once a scan iteration got the clock answer `w` and latched its start. -/
abbrev timed (w : HostWord) (rest : List HostWord) (s : State) : State :=
  { clocked w rest s with seq := { s.seq with tStart := scanStart w.toInt s, first := false } }

/-- `s` once a scan iteration has also read the sample `raw`. -/
abbrev sampled (w : HostWord) (rest : List HostWord) (raw : Sample) (more : List Sample) (s : State) :
    State :=
  { s with seq := { s.seq with tStart := scanStart w.toInt s, first := false },
           env := { s.env with clock := rest, lastNow := w.toInt, samples := more,
                               calls := s.env.calls ++ [.feed, .nowUs w.toInt, .readSample raw] } }

theorem latchStart_eq_scanStart (now : Int) (s : State) :
    latchStart now s = { s with seq := { s.seq with tStart := scanStart now s, first := false } } := by
  unfold latchStart scanStart
  split
  · rfl
  · rename_i h
    rw [← Bool.eq_false_of_not_eq_true h]

/-- What the detector answers to the sample of a scan iteration, and the state it leaves. -/
abbrev asked (w : HostWord) (rest : List HostWord) (raw : Sample) (more : List Sample) (s : State) :
    Option (Nat × Level) × State :=
  tdStep (pushSample raw (sampled w rest raw more s)).cond.level w.toInt
    (pushSample raw (sampled w rest raw more s))

section

variable {s : State} {w : HostWord} {rest : List HostWord}

theorem step_scan_of_timeout (hscript : s.script = []) (hphase : s.seq.phase = .scan)
    (hclock : s.env.clock = w :: rest) (hw : s.env.lastNow ≤ w.toInt)
    (hover : (s.params.syncTimeoutUs : Int) ≤ w.toInt - scanStart w.toInt s) :
    step s = .next (endTimeout (timed w rest s)) := by
  rw [step_of_no_action hscript, iterate, hphase]
  rcases scanIteration_cases (nowUs_feed_queued hclock hw) with ⟨-, e⟩ | ⟨hlasts, -⟩
  · simp only [e, latchStart_eq_scanStart]
  · rw [latchStart_eq_scanStart] at hlasts
    exact absurd hover (not_le.2 hlasts)

theorem step_scan_of_sample {raw : Sample} {more : List Sample} (hscript : s.script = [])
    (hphase : s.seq.phase = .scan) (hclock : s.env.clock = w :: rest) (hw : s.env.lastNow ≤ w.toInt)
    (hlasts : w.toInt - scanStart w.toInt s < s.params.syncTimeoutUs)
    (hsample : s.env.samples = raw :: more) :
    ((asked w rest raw more s).1 = none ∧ step s = .next (asked w rest raw more s).2) ∨
    ∃ k lv, (asked w rest raw more s).1 = some (k, lv) ∧
      step s = .next (scanHold k lv w.toInt (asked w rest raw more s).2) := by
  have hread : readSample (timed w rest s) = (raw, sampled w rest raw more s) := by
    rw [readSample_queued (s := timed w rest s) hsample]
    simp
  rw [step_of_no_action hscript, iterate, hphase]
  rcases scanIteration_cases (nowUs_feed_queued hclock hw) with ⟨hover, -⟩ | ⟨-, _, _, hr, hpush⟩
  · rw [latchStart_eq_scanStart] at hover
    exact absurd hover (not_le.2 hlasts)
  · rw [latchStart_eq_scanStart, hread] at hr
    cases hr
    rcases hpush with ⟨t, ht, e⟩ | ⟨k, lv, t, ht, e⟩
    · exact .inl ⟨congrArg Prod.fst ht, by simp only [e, ht]⟩
    · exact .inr ⟨k, lv, congrArg Prod.fst ht, by simp only [e, ht]⟩

end

/-! ### The slots of an ended hold (R164, R176, R177) -/

/-- An ended hold is worth one slot or two. -/
theorem tdStep_slots {e : Level} {now : Int} {s : State} {k : Nat} {lv : Level}
    (h : (tdStep e now s).1 = some (k, lv)) : k = 1 ∨ k = 2 := by
  rcases tdStep_cases e now s with eq | ⟨q, -, -, eq⟩ | ⟨q, c, -, -, -, -, eq⟩ <;> rw [eq] at h <;>
    cases h
  unfold holdSlots
  split
  · exact .inl rfl
  · exact .inr rfl

section

variable {s : State} {lv : Level} (now : Int) (n : Nat)

/-- A slot that completes the suffix begins the settle delay; of a doubled hold the slot still to come is
the carry. -/
theorem scanHold_of_match (hlen : s.hist.length = 16)
    (h : SuffixAgrees (shiftAppend s.hist (some lv))) :
    scanHold (n + 1) lv now s = { s with
      hist := List.replicate 16 none,
      dec := { s.dec with carry := if 0 < n then some lv else s.dec.carry },
      ctl := { s.ctl with matched := false },
      seq := { s.seq with tSettle := now, phase := .settle } } := by
  have hmatch : (histMatch (histAppend lv s)).ctl.matched = true :=
    (suffixMatches_iff (length_shiftAppend_history hlen _)).2 h
  rw [scanHold, if_pos hmatch]
  rfl

/-- A slot that does not complete it stays in the history, and the rest of the hold follows. -/
theorem scanHold_of_no_match (hlen : s.hist.length = 16)
    (h : ¬ SuffixAgrees (shiftAppend s.hist (some lv))) :
    scanHold (n + 1) lv now s = scanHold n lv now
      { s with hist := shiftAppend s.hist (some lv), ctl := { s.ctl with matched := false } } := by
  have hno : suffixMatches (shiftAppend s.hist (some lv)) = false :=
    Bool.eq_false_of_not_eq_true (mt (suffixMatches_iff (length_shiftAppend_history hlen _)).1 h)
  have hstays : histMatch (histAppend lv s) =
      { s with hist := shiftAppend s.hist (some lv), ctl := { s.ctl with matched := false } } := by
    rw [← hno]
    rfl
  rw [scanHold, hstays, if_neg Bool.false_ne_true]

end

/-- Settles O27: the timeout; or the detector's answer, whose one or two slots are tested one by one. -/
theorem scanTimesOut : Obligations.ScanTimesOut := by
  intro s w rest hscript hphase hclock hw start
  refine ⟨fun hover => ?_, fun hlasts hlen raw more hsample => ?_⟩
  · rw [step_scan_of_timeout hscript hphase hclock hw hover, endTimeout_eq]
  intro sampled pushed asked
  have hhist : asked.hist = s.hist := by simp [asked, pushed, sampled]
  have hdec : asked.dec = s.dec := by simp [asked, pushed, sampled]
  have hctl : asked.ctl = s.ctl := by simp [asked, pushed, sampled]
  have hlen' : asked.hist.length = 16 := hhist ▸ hlen
  rcases step_scan_of_sample hscript hphase hclock hw hlasts hsample with
    ⟨hquiet, hstep⟩ | ⟨k, lv, hends, hstep⟩
  · exact ⟨fun _ => hstep, fun k lv h => absurd (hquiet.symm.trans h) (by simp)⟩
  refine ⟨fun h => absurd (hends.symm.trans h) (by simp), fun k' lv' h => ?_⟩
  cases hends.symm.trans h
  intro h1 h2 settling scanning
  have hstep : step s = .next (scanHold k lv w.toInt asked) := hstep
  have hk := tdStep_slots hends
  refine ⟨hk, fun hmatch => ?_, fun hno hone => ?_, fun hno htwo hmatch => ?_, fun hno htwo hno' => ?_⟩
  · rw [hstep]
    rcases hk with rfl | rfl <;>
      rw [scanHold_of_match _ _ hlen' (by rw [hhist]; exact hmatch), hdec, hctl] <;> rfl
  all_goals
    subst k
    rw [hstep, scanHold_of_no_match _ _ hlen' (by rw [hhist]; exact hno)]
    simp only [hhist, hctl]
  · rfl
  · rw [scanHold_of_match _ _ (by exact length_shiftAppend_history hlen _) (by exact hmatch), hdec]
    rfl
  · rw [scanHold_of_no_match _ _ (by exact length_shiftAppend_history hlen _) (by exact hno')]
    rfl

end Sys2Proof.Proofs
end

section
/-! A synchronizing operation on an idle line (43 R181): one value pushed again and again gives one level,
which ends no hold, so that the scan runs into its timeout. -/

namespace Sys2Proof.Proofs

open Sys2Proof Sys2Proof.Machine Sys2Proof.Config Sys2Proof.Laws

/-! ### One value gives one level, and one level ends no hold -/

/-- A window of one value has that value as its median, pushed once more. -/
theorem pushSample_level_of_one {raw : Sample} {s : State} (hw : ∀ x ∈ s.win, x = none ∨ x = some raw) :
    (pushSample raw s).cond.level = estimate (2 * raw.toNat) s.cfg := by
  obtain ⟨m2, hmed, hcond⟩ := pushSample_level raw s
  have entry : ∀ v ∈ sortedSamples (shiftAppend s.win (some raw)), v = raw.toNat := by
    intro v hv
    obtain ⟨x, hx, rfl⟩ := mem_sortedSamples.1 hv
    rcases List.mem_append.1 hx with hx | hx
    · rcases hw _ (List.mem_of_mem_drop hx) with h | h <;> cases h
      rfl
    · cases List.mem_singleton.1 hx
      rfl
  obtain ⟨a, ha, b, hb, rfl⟩ := doubledMedian_eq hmed
  rw [hcond, entry a ha, entry b hb, ← two_mul, levelOf_eq_estimate]

/-- The current level, if there is one, is `e`. -/
def HoldsLevel (e : Level) (d : DetRegs) : Prop := ∀ c, d.cur = some c → e = .ratio c

/-- The level of the hold in progress ends no hold, and stays the current one. -/
theorem tdStep_of_holdsLevel {e : Level} (now : Int) {s : State} (h : HoldsLevel e s.det) :
    (tdStep e now s).1 = none ∧ HoldsLevel e (tdStep e now s).2.det := by
  rcases tdStep_cases e now s with eq | ⟨q, he, -, eq⟩ | ⟨q, c, he, hcur, hne, -, -⟩
  · rw [eq]
    exact ⟨rfl, h⟩
  · rw [eq]
    exact ⟨rfl, fun c hc => by cases hc; exact he⟩
  · cases he.symm.trans (h c hcur)
    exact absurd rfl hne

/-! ### The scan of an idle line -/

/-- A scan that began, or will begin, at `start`, and has heard nothing but `raw`. -/
structure IdleScan (raw : Sample) (start : Int) (s : State) : Prop where
  script : s.script = []
  phase : s.seq.phase = .scan
  started : ∀ w ∈ s.env.clock.head?, scanStart w.toInt s = start
  history : s.hist = List.replicate 16 none
  decoder : s.dec = freshDecoder none
  window : ∀ x ∈ s.win, x = none ∨ x = some raw
  level : HoldsLevel (estimate (2 * raw.toNat) s.cfg) s.det

/-- An iteration within the window of the timeout goes on listening, and only its calls are seen. -/
theorem IdleScan.listens {raw : Sample} {start : Int} {s : State} {w : HostWord} {rest : List HostWord}
    {more : List Sample} (h : IdleScan raw start s) (hclock : s.env.clock = w :: rest)
    (hw : s.env.lastNow ≤ w.toInt) (hlasts : w.toInt - start < s.params.syncTimeoutUs)
    (hsample : s.env.samples = raw :: more) :
    ∃ t, step s = .next t ∧ IdleScan raw start t ∧ t.params = s.params ∧
      t.env = (sampled w rest raw more s).env := by
  have hstart : scanStart w.toInt s = start := h.started w (by simp [hclock])
  have hlevel : (pushSample raw (sampled w rest raw more s)).cond.level =
      estimate (2 * raw.toNat) s.cfg := pushSample_level_of_one h.window
  have hseq : (asked w rest raw more s).2.seq = { s.seq with tStart := start, first := false } := by
    rw [← hstart]
    simp
  obtain ⟨hquiet, hholds⟩ := tdStep_of_holdsLevel w.toInt
    (s := pushSample raw (sampled w rest raw more s)) (by simpa using h.level)
  rw [← hlevel] at hquiet hholds
  rcases step_scan_of_sample h.script h.phase hclock hw (hstart ▸ hlasts) hsample with
    ⟨-, hstep⟩ | ⟨k, lv, hends, -⟩
  · refine ⟨_, hstep, ?_, by simp, by simp⟩
    exact {
      script := by simp [h.script]
      phase := by simp [h.phase]
      started := fun _ _ => by rw [scanStart, hseq, if_neg Bool.false_ne_true]
      history := by simp [h.history]
      decoder := by simp [h.decoder]
      window := by
        intro x hx
        simp only [tdStep_frame, pushSample_win] at hx
        rcases List.mem_append.1 hx with hx | hx
        · exact h.window x (List.mem_of_mem_drop hx)
        · exact .inr (List.mem_singleton.1 hx)
      level := by
        rw [show (asked w rest raw more s).2.cfg = s.cfg by simp, ← hlevel]
        exact hholds }
  · exact absurd (hquiet.symm.trans hends) (by simp)

theorem framesIn_append (l l' : List PortEvent) : framesIn (l ++ l') = framesIn l ++ framesIn l' :=
  List.filterMap_append

/-- A scan of an idle line listens through every clock answer before the timeout, and ends at the first one
that is the window after its start. -/
theorem IdleScan.run {raw : Sample} {start : Int} {ws restClock : List HostWord} {wl : HostWord}
    {restSamples : List Sample} {s : State} (h : IdleScan raw start s)
    (hclock : s.env.clock = ws ++ wl :: restClock)
    (hsamples : s.env.samples = List.replicate ws.length raw ++ restSamples)
    (hsorted : (s.env.lastNow :: (ws ++ [wl]).map BitVec.toInt).Pairwise (· ≤ ·))
    (hlasts : ∀ w ∈ ws, w.toInt - start < s.params.syncTimeoutUs)
    (hover : (s.params.syncTimeoutUs : Int) ≤ wl.toInt - start) :
    ∃ t, IdleScan raw start t ∧
      runSteps (ws.length + 1) s = .next (endTimeout (timed wl restClock t)) ∧
      t.env.samples = restSamples ∧ framesIn t.env.calls = framesIn s.env.calls := by
  induction ws generalizing s with
  | nil =>
    have hw : s.env.lastNow ≤ wl.toInt := by simpa using hsorted
    have hstart : scanStart wl.toInt s = start := h.started wl (by simp [hclock])
    refine ⟨s, h, ?_, hsamples, rfl⟩
    rw [List.length_nil, runSteps,
      step_scan_of_timeout h.script h.phase hclock hw (hstart ▸ hover)]
    rfl
  | cons w ws ih =>
    obtain ⟨hfirst, hlater⟩ := List.pairwise_cons.1 hsorted
    obtain ⟨u, hstep, hu, hparams, henv⟩ := h.listens hclock (hfirst _ (by simp))
      (hlasts w List.mem_cons_self) hsamples
    obtain ⟨t, ht, hrun, hrest, hframes⟩ := ih hu (henv ▸ rfl) (henv ▸ rfl) (henv ▸ hlater)
      (by rw [hparams]; exact fun x hx => hlasts x (List.mem_cons_of_mem _ hx)) (by rw [hparams]; exact hover)
    refine ⟨t, ht, ?_, hrest, ?_⟩
    · rw [List.length_cons, runSteps, hstep]
      exact hrun
    · rw [hframes, henv, framesIn_append]
      exact List.append_nil _

/-- The block at the start of a synchronizing operation (R175), as `ScanStartsFresh` has it. -/
abbrev scanBegun (op : BitVec 8) (s : State) : State :=
  { freshReceivePath s with
    seq := { s.seq with op := op, phase := .scan, first := true },
    ctl := { startedFrom s.ctl with matched := false } }

/-- From its start on, the scan of an idle line has heard nothing. -/
theorem idleScan_scanBegun (op : BitVec 8) (raw : Sample) {s : State} {w : HostWord}
    {rest : List HostWord} (hscript : s.script = []) (hclock : s.env.clock = w :: rest) :
    IdleScan raw w.toInt (scanBegun op s) where
  script := hscript
  phase := rfl
  started := by simp [freshReceivePath, hclock]
  history := rfl
  decoder := rfl
  window _ hx := .inl (List.eq_of_mem_replicate hx)
  level _ hc := by cases hc

/-- Settles O28: the operation starts a scan that listens through the clock answers up to the timeout. -/
theorem idleLineTimesOut : Obligations.IdleLineTimesOut := by
  intro s i raw w0 wl ws restClock restSamples hi hfree hfreq hscript _ hpos hclock hsamples hw0 hsorted
    hlasts hover
  obtain ⟨op, hexec⟩ : ∃ op, exec i s = .next (scanBegun op s) := by
    rcases hi with rfl | rfl
    · exact ⟨0x33, scanStartsFresh s _ _ hfree hfreq (.inl ⟨rfl, rfl⟩)⟩
    · exact ⟨0x44, scanStartsFresh s _ _ hfree hfreq (.inr ⟨rfl, rfl⟩)⟩
  have hsorted' : (s.env.lastNow :: ((w0 :: ws) ++ [wl]).map BitVec.toInt).Pairwise (· ≤ ·) := by
    refine List.pairwise_cons.2 ⟨List.forall_mem_map.2 (List.forall_mem_cons.2 ⟨hw0, fun w hw => ?_⟩),
      List.pairwise_map.2 hsorted⟩
    exact hw0.trans ((List.pairwise_cons.1 hsorted).1 w hw)
  obtain ⟨t, ht, hrun, hrest, hframes⟩ := (idleScan_scanBegun op raw hscript hclock).run
    (ws := w0 :: ws) hclock hsamples hsorted'
    (List.forall_mem_cons.2 ⟨by rw [sub_self]; exact_mod_cast hpos, hlasts⟩) hover
  refine ⟨_, _, hexec, hrun, ?_⟩
  rw [endTimeout_eq]
  exact ⟨rfl, rfl, rfl, rfl, rfl, rfl, ht.history, ht.decoder, hrest, rfl, by
    rw [framesIn_append, hframes]; exact List.append_nil _⟩

end Sys2Proof.Proofs
end

section
/-! The pair function and the byte function of the decoder (44 R198 to R201): which bit each complete pair of
a group gives, and the encoder's byte read back. -/

namespace Sys2Proof.Proofs

open Sys2Proof Sys2Proof.Machine Sys2Proof.Config Sys2Proof.Laws

/-! ### `PAIR` (R198) -/

theorem pair_noData_right (p : Params) (a : Level) : pair p a .noData = .ambiguous := by
  cases a <;> rfl

/-- The table of two ratios, below the epsilon test. -/
theorem pair_ratio (p : Params) (qa qb : Rat) :
    pair p (.ratio qa) (.ratio qb) =
      if 0 < p.ambigEps ∧ |qa - qb| < p.ambigEps then .ambiguous
      else if qa < 1 ∧ 1 ≤ qb then .one
      else if 1 ≤ qa ∧ qb < 1 then .zero
      else .ambiguous := by
  unfold pair
  simp only [abs_sub_lt_iff]
  by_cases heps : 0 < p.ambigEps ∧ qa - qb < p.ambigEps ∧ qb - qa < p.ambigEps
  · rw [if_pos heps, if_pos heps]
  rw [if_neg heps, if_neg heps]
  by_cases ha : 1 ≤ qa <;> by_cases hb : 1 ≤ qb <;> simp [hi, ha, hb, not_le.1, not_lt.2]

/-- Settles O33: the two no-data rows, and the table of two ratios. -/
theorem pairFollowsTheTable : Obligations.PairFollowsTheTable :=
  fun p a qa qb => ⟨rfl, pair_noData_right p a, pair_ratio p qa qb⟩

/-- The two halves of a cell, at least the epsilon apart, are the bit of their second half (30 R87). -/
theorem pair_of_cell {p : Params} {qa qb : Rat} {b : Bool} (ha : hi qa = !b) (hb : hi qb = b)
    (heps : p.ambigEps ≤ |qa - qb|) :
    pair p (.ratio qa) (.ratio qb) = if b then .one else .zero := by
  have hclear : ¬ (0 < p.ambigEps ∧ qa - qb < p.ambigEps ∧ qb - qa < p.ambigEps) := fun h =>
    absurd (abs_sub_lt_iff.2 h.2) (not_lt.2 heps)
  simp only [pair, if_neg hclear, ha, hb]
  cases b <;> rfl

/-! ### The pairs of a group (R196) -/

/-- Pair `i` of a group is complete and `PAIR` answers `r`. -/
def PairIs (p : Params) (group : List Level) (i : Nat) (r : PairBit) : Prop :=
  ∃ a b, group[2 * i]? = some a ∧ group[2 * i + 1]? = some b ∧ pair p a b = r

section

variable {p : Params} {r : PairBit} {i : Nat}

theorem not_pairIs_nil : ¬ PairIs p [] i r := by
  rintro ⟨a, b, ha, -⟩
  simp at ha

theorem not_pairIs_singleton {a : Level} : ¬ PairIs p [a] i r := by
  rintro ⟨_, b, -, hb, -⟩
  simp at hb

theorem pairIs_cons_zero {a b : Level} {rest : List Level} :
    PairIs p (a :: b :: rest) 0 r ↔ pair p a b = r := by
  simp [PairIs]

theorem pairIs_cons_succ {a b : Level} {rest : List Level} :
    PairIs p (a :: b :: rest) (i + 1) r ↔ PairIs p rest i r := by
  simp [PairIs, Nat.mul_add, Nat.add_right_comm _ 2 1]

/-- The pairs of the group that `BYTE_DECODE(start, n)` reads are the complete pairs of `HB` from `start`
on. -/
theorem pairIs_slice {s : State} {start n : Nat} :
    PairIs p ((s.dec.hb.drop start).take n) i r ↔
      2 * i + 1 < n ∧ ∃ a b, hbAt s (start + 2 * i) = some a ∧
        hbAt s (start + 2 * i + 1) = some b ∧ pair p a b = r := by
  simp only [PairIs, List.getElem?_take, List.getElem?_drop, hbAt]
  constructor
  · rintro ⟨a, b, ha, hb, hr⟩
    split at hb
    · rename_i hn
      rw [if_pos (by omega)] at ha
      exact ⟨hn, a, b, ha, hb, hr⟩
    · cases hb
  · rintro ⟨hn, a, b, ha, hb, hr⟩
    exact ⟨a, b, by rwa [if_pos (by omega)], by rwa [if_pos hn], hr⟩

end

/-! ### `BYTE_DECODE` (R200) -/

/-- One ambiguous pair discards the byte. -/
theorem decodePairs_of_ambiguous {p : Params} {k i : Nat} {group : List Level} (byte : Byte)
    (hik : i < k) (h : PairIs p group i .ambiguous) :
    decodePairs p k group byte = (p.placeholder, true) := by
  induction k generalizing i group byte with
  | zero => omega
  | succ k ih =>
    match group with
    | [] => exact absurd h not_pairIs_nil
    | [_] => exact absurd h not_pairIs_singleton
    | a :: b :: rest =>
      cases i with
      | zero => simp only [decodePairs, pairIs_cons_zero.1 h]
      | succ i =>
        have hrest := pairIs_cons_succ.1 h
        unfold decodePairs
        split
        · rfl
        · exact ih _ (by omega) hrest
        · exact ih _ (by omega) hrest

theorem getLsbD_or_bit {byte : Byte} {k i : Nat} (hi : i < 8) :
    (byte ||| (1#8 <<< k)).getLsbD i = true ↔ byte.getLsbD i = true ∨ i = k := by
  simp only [BitVec.getLsbD_or, BitVec.getLsbD_shiftLeft, BitVec.getLsbD_one, Bool.or_eq_true,
    Bool.and_eq_true, decide_eq_true_eq, Bool.not_eq_true', decide_eq_false_iff_not]
  exact or_congr_right (by omega)

/-- Without an ambiguous pair the byte is unmarked, and below bit `k` every pair that is 1 sets its bit. -/
theorem decodePairs_of_clear {p : Params} {k : Nat} {group : List Level} (byte : Byte)
    (h : ∀ i < k, ¬ PairIs p group i .ambiguous) :
    (decodePairs p k group byte).2 = false ∧
      ∀ i < 8, (decodePairs p k group byte).1.getLsbD i = true ↔
        byte.getLsbD i = true ∨ ∃ j < k, i + j + 1 = k ∧ PairIs p group j .one := by
  induction k generalizing group byte with
  | zero => simp [decodePairs]
  | succ k ih =>
    match group with
    | [] => simp [decodePairs, not_pairIs_nil]
    | [_] => simp [decodePairs, not_pairIs_singleton]
    | a :: b :: rest =>
      have hrest : ∀ i < k, ¬ PairIs p rest i .ambiguous := fun i hi hp =>
        h (i + 1) (by omega) (pairIs_cons_succ.2 hp)
      have hfirst : pair p a b ≠ .ambiguous := fun hp => h 0 (by omega) (pairIs_cons_zero.2 hp)
      have hbits (i : Nat) :
          (∃ j < k + 1, i + j + 1 = k + 1 ∧ PairIs p (a :: b :: rest) j .one) ↔
            (i = k ∧ pair p a b = .one) ∨ ∃ j < k, i + j + 1 = k ∧ PairIs p rest j .one := by
        constructor
        · rintro ⟨_ | j, hj, hij, hone⟩
          · exact .inl ⟨by omega, pairIs_cons_zero.1 hone⟩
          · exact .inr ⟨j, by omega, by omega, pairIs_cons_succ.1 hone⟩
        · rintro (⟨rfl, hone⟩ | ⟨j, hj, hij, hone⟩)
          · exact ⟨0, by omega, rfl, pairIs_cons_zero.2 hone⟩
          · exact ⟨j + 1, by omega, by omega, pairIs_cons_succ.2 hone⟩
      unfold decodePairs
      split
      · rename_i hp; exact absurd hp hfirst
      · rename_i hp
        obtain ⟨hmark, hbyte⟩ := ih (byte ||| (1#8 <<< k)) hrest
        refine ⟨hmark, fun i hi => ?_⟩
        rw [hbyte i hi, hbits, getLsbD_or_bit hi, hp]
        simp [or_assoc]
      · rename_i hp
        obtain ⟨hmark, hbyte⟩ := ih byte hrest
        refine ⟨hmark, fun i hi => ?_⟩
        rw [hbyte i hi, hbits, hp]
        simp

/-- Without an ambiguous pair, pair `i` of the group gives bit `7 - i` (R196). -/
theorem decodePairs_eight_of_clear {p : Params} {group : List Level}
    (h : ∀ i < 8, ¬ PairIs p group i .ambiguous) :
    (decodePairs p 8 group 0).2 = false ∧
      ∀ i < 8, (decodePairs p 8 group 0).1.getLsbD (7 - i) = true ↔ PairIs p group i .one := by
  obtain ⟨hmark, hbyte⟩ := decodePairs_of_clear 0 h
  refine ⟨hmark, fun i hi => ?_⟩
  rw [hbyte (7 - i) (by omega)]
  constructor
  · rintro (hno | ⟨j, hj, hij, hone⟩)
    · exact absurd hno (by simp)
    · rwa [show i = j by omega]
  · exact fun hone => .inr ⟨i, hi, by omega, hone⟩

/-- Settles O34: the pairs of the group are the complete pairs of `HB` from `start` on. -/
theorem byteDecodePacksThePairs : Obligations.ByteDecodePacksThePairs := by
  intro s start n hn _
  refine ⟨?_, fun hclear => ?_⟩
  · rintro ⟨i, a, b, hi, ha, hb, hamb⟩
    exact decodePairs_of_ambiguous 0 (by omega) (pairIs_slice.2 ⟨hi, a, b, ha, hb, hamb⟩)
  · have hgroup : ∀ i < 8, ¬ PairIs s.params ((s.dec.hb.drop start).take n) i .ambiguous := by
      intro i _ h
      obtain ⟨hi, a, b, ha, hb, hamb⟩ := pairIs_slice.1 h
      exact hclear i a b hi ha hb hamb
    obtain ⟨hmark, hbyte⟩ := decodePairs_eight_of_clear hgroup
    exact ⟨hmark, fun i hi => (hbyte i hi).trans pairIs_slice⟩

/-! ### The encoder's byte (R201 a) -/

/-- The two half-bits of bit `7 - i` on the line (30 R87). -/
theorem getElem?_symbolsOf (v : Byte) {i : Nat} (hi : i < 8) :
    (symbolsOf v)[2 * i]? = some (!v.getLsbD (7 - i)) ∧
      (symbolsOf v)[2 * i + 1]? = some (v.getLsbD (7 - i)) := by
  interval_cases i <;> exact ⟨rfl, rfl⟩

/-- Pair `i` of an encoded byte's half-bits is its bit `7 - i`. -/
theorem pairIs_of_symbols {p : Params} {v : Byte} {g : List Rat} (hg : g.map hi = symbolsOf v)
    (heps : ∀ a ∈ g, ∀ b ∈ g, hi a ≠ hi b → p.ambigEps ≤ |a - b|) {i : Nat} (hi8 : i < 8)
    {r : PairBit} :
    PairIs p (g.map .ratio) i r ↔ (if v.getLsbD (7 - i) then .one else .zero) = r := by
  obtain ⟨hfirst, hsecond⟩ := getElem?_symbolsOf v hi8
  rw [← hg, List.getElem?_map, Option.map_eq_some_iff] at hfirst hsecond
  obtain ⟨qa, ha, hia⟩ := hfirst
  obtain ⟨qb, hb, hib⟩ := hsecond
  have hapart : p.ambigEps ≤ |qa - qb| := by
    refine heps qa (List.mem_of_getElem? ha) qb (List.mem_of_getElem? hb) ?_
    rw [hia, hib]
    exact Bool.not_ne_self _
  simp [PairIs, ha, hb, pair_of_cell hia hib hapart]

/-- Settles O35: no pair of an encoded byte is ambiguous, and each gives its bit back. -/
theorem encodedByteDecodesToItself : Obligations.EncodedByteDecodesToItself := by
  intro s start v g hgroup hg heps
  have hclear : ∀ i < 8, ¬ PairIs s.params (g.map .ratio) i .ambiguous := by
    intro i hi h
    have := (pairIs_of_symbols hg heps hi).1 h
    split at this <;> cases this
  obtain ⟨hmark, hbyte⟩ := decodePairs_eight_of_clear hclear
  rw [byteDecode, hgroup]
  refine Prod.ext (BitVec.eq_of_getLsbD_eq fun i hi => ?_) hmark
  have hbit := hbyte (7 - i) (by omega)
  rw [show 7 - (7 - i) = i by omega, pairIs_of_symbols hg heps (by omega),
    show 7 - (7 - i) = i by omega] at hbit
  rw [Bool.eq_iff_iff, hbit]
  cases v.getLsbD i <;> simp

end Sys2Proof.Proofs
end

section
/-! The commands of the half-bit buffer (44 R205 to R213) and the start of `DECODE` (R214, R215): one equation
for the append, and one for the decoder registers that a finalized frame leaves. -/

namespace Sys2Proof.Proofs

open Sys2Proof Sys2Proof.Machine Sys2Proof.Config Sys2Proof.Laws

/-! ### `HB_APPEND` (R205, R207) -/

/-- `BYTE_CLOSE` in full: the byte guard, or the byte, whose mark is counted. -/
theorem byteClose_eq (start n : Nat) (s : State) :
    byteClose start n s =
      if fbLen s = s.params.maxPacketSize then (.full, { s with dec := { s.dec with capx := true } })
      else (.ok (byteDecode start n s).2, { s with dec := { s.dec with
        fb := s.dec.fb ++ [(byteDecode start n s).1],
        ambigCount := s.dec.ambigCount + (byteDecode start n s).2.toNat,
        ambig := s.dec.ambig || (byteDecode start n s).2 } }) := by
  have hcount (skip : Bool) :
      (if skip then s.dec.ambigCount + 1 else s.dec.ambigCount) = s.dec.ambigCount + skip.toNat := by
    cases skip <;> rfl
  simp only [byteClose, hcount]

/-- `HB_APPEND` in full: the half-bit guard, the store, and the close of every sixteenth half-bit. -/
theorem hbAppend_eq (lv : Level) (s : State) :
    hbAppend lv s =
      if hbLen s = s.params.maxPacketHalfBits then
        (.full, { s with dec := { s.dec with capx := true } })
      else if (hbLen s + 1) % 16 ≠ 0 then (.ok false, storeHalfBit lv s)
      else byteClose (hbLen s - 15) 16 (storeHalfBit lv s) := by
  rcases hbAppend_cases lv s with ⟨hfull, e⟩ | ⟨hroom, hopen, e⟩ | ⟨hroom, hcloses, e⟩
  · rw [e, if_pos hfull]
  · rw [e, if_neg hroom, if_pos hopen]
  · rw [e, if_neg hroom, if_neg (not_not.2 hcloses)]
    rfl

/-- A host-issued `HB_APPEND` in full: what the append leaves, with the code of its answer. -/
theorem hostHbAppend_eq (lv : Level) (s : State) :
    let stored := storeHalfBit lv s
    let r := byteDecode (hbLen s - 15) 16 stored
    hostHbAppend lv s =
      if hbLen s = s.params.maxPacketHalfBits then
        complete .capacityExceeded { s with dec := { s.dec with capx := true } }
      else if (hbLen s + 1) % 16 ≠ 0 then complete .ok stored
      else if fbLen s = s.params.maxPacketSize then
        complete .capacityExceeded { stored with dec := { stored.dec with capx := true } }
      else complete (if r.2 then .ambiguousBit else .ok) { stored with dec := { stored.dec with
        fb := s.dec.fb ++ [r.1],
        ambigCount := s.dec.ambigCount + r.2.toNat,
        ambig := s.dec.ambig || r.2 } } := by
  intro stored r
  have hcode (skip : Bool) : answerCode (.ok skip) = if skip then .ambiguousBit else .ok := by
    cases skip <;> rfl
  rw [hostHbAppend, hbAppend_eq, byteClose_eq, ← hcode]
  split
  · rfl
  split
  · rfl
  · split
    · rename_i hfull
      rw [if_pos (by exact hfull)]
      rfl
    · rename_i hroom
      rw [if_neg (by exact hroom)]
      rfl

/-- Settles O36: the append on the admitted state. -/
theorem hbAppendStoresAndClosesBytes : Obligations.HbAppendStoresAndClosesBytes := by
  intro s m2 nd hfree
  rw [exec_of_free hfree rfl rfl]
  simp only [ruleOf, levelOperand_eq_levelMeant, hostHbAppend_eq]
  rfl

/-! ### `FINALIZE` (R209, R210) -/

/-- `s` with the half-bit that completion at idle supplies (R209). -/
def completed (idle : Bool) (s : State) : State :=
  match s.det.cur with
  | some q =>
    if idle = true ∧ hbLen s % 2 = 1 ∧ hbLen s < s.params.maxPacketHalfBits then
      storeHalfBit (.ratio q) s
    else s
  | none => s

theorem completed_of_odd {s : State} {q : Rat} (hcur : s.det.cur = some q) (hodd : hbLen s % 2 = 1)
    (hroom : hbLen s < s.params.maxPacketHalfBits) : completed true s = storeHalfBit (.ratio q) s := by
  simp [completed, hcur, hodd, hroom]

theorem completed_of_not {idle : Bool} {s : State} (h : idle = false ∨ s.det.cur = none ∨
    hbLen s % 2 = 0 ∨ s.params.maxPacketHalfBits ≤ hbLen s) : completed idle s = s := by
  unfold completed
  split
  · rename_i hcur
    rw [if_neg]
    rintro ⟨hidle, hodd, hroom⟩
    rcases h with h | h | h | h
    · simp [hidle] at h
    · simp [hcur] at h
    all_goals omega
  · rfl

/-- Completion at idle stores a half-bit or does nothing. -/
theorem completed_cases (idle : Bool) (s : State) :
    completed idle s = s ∨ ∃ q, completed idle s = storeHalfBit (.ratio q) s := by
  unfold completed
  split
  · rename_i q _
    split
    · exact .inr ⟨q, rfl⟩
    · exact .inl rfl
  · exact .inl rfl

/-- The start of the group of the last half-bit, and how many half-bits of the group there are. -/
def lastGroup (s : State) : Nat × Nat :=
  ((hbLen s - 1) / 16 * 16, hbLen s - (hbLen s - 1) / 16 * 16)

theorem lastGroup_of_whole {s : State} (hpos : 0 < hbLen s) (h : hbLen s % 16 = 0) :
    lastGroup s = (hbLen s - 16, 16) := by
  rw [lastGroup, Prod.mk.injEq]
  omega

theorem lastGroup_of_partial {s : State} (h : hbLen s % 16 ≠ 0) :
    lastGroup s = (hbLen s - hbLen s % 16, hbLen s % 16) := by
  rw [lastGroup, Prod.mk.injEq]
  omega

/-- Completion at idle writes the half-bits alone. -/
theorem completed_dec (idle : Bool) (s : State) :
    (completed idle s).dec = { s.dec with hb := (completed idle s).dec.hb } := by
  rcases completed_cases idle s with e | ⟨q, e⟩ <;> rw [e]
  rfl

@[simp] theorem completed_params (idle : Bool) (s : State) :
    (completed idle s).params = s.params := by
  rcases completed_cases idle s with e | ⟨q, e⟩ <;> rw [e]
  rfl

/-- Completion at idle in full (R209): a completed group is closed. -/
theorem completeAtIdle_eq (idle : Bool) (s : State) :
    let v := completed idle s
    completeAtIdle idle s =
      if hbLen v ≠ hbLen s ∧ hbLen v % 16 = 0 then (byteClose (hbLen v - 16) 16 v).2 else v := by
  have hodd : hbLen s % 16 % 2 = 1 ↔ hbLen s % 2 = 1 := by omega
  unfold completeAtIdle completed
  simp only [hodd]
  cases s.det.cur with
  | none => simp
  | some q =>
    dsimp only
    split <;> simp

/-- The last flush of whole groups has nothing to close. -/
theorem flushPartial_of_whole {s : State} (h : hbLen s % 16 = 0) : flushPartial s = s := by
  simp [flushPartial, h]

/-- The last flush of a group that is not whole closes it and sets `PARTIAL` (R210). -/
theorem flushPartial_dec_of_partial {s : State} (h : hbLen s % 16 ≠ 0) :
    (flushPartial s).dec =
      { (byteClose (hbLen s - hbLen s % 16) (hbLen s % 16) s).2.dec with partialByte := true } := by
  simp [flushPartial, Nat.pos_of_ne_zero h]

/-- The decoder registers that `FINALIZE` leaves: nothing was left to close, or the last group is closed,
and `PARTIAL` is set when it is not whole. -/
theorem finalize_dec_eq (idle : Bool) (s : State) :
    let v := completed idle s
    (finalize idle s).dec =
      if hbLen v % 16 = 0 ∧ hbLen v = hbLen s then v.dec
      else { (byteClose (lastGroup v).1 (lastGroup v).2 v).2.dec with
        partialByte := s.dec.partialByte || decide (hbLen v % 16 ≠ 0) } := by
  intro v
  have hcomplete : completeAtIdle idle s =
      if hbLen v ≠ hbLen s ∧ hbLen v % 16 = 0 then (byteClose (hbLen v - 16) 16 v).2 else v :=
    completeAtIdle_eq idle s
  rw [finalize_dec]
  by_cases hwhole : hbLen v % 16 = 0
  · rcases completed_cases idle s with e | ⟨q, e⟩
    · have hv : v = s := e
      rw [hcomplete, hv, if_neg (fun h => h.1 rfl), flushPartial_of_whole (hv ▸ hwhole),
        if_pos ⟨hv ▸ hwhole, rfl⟩]
    · have hlen : hbLen v = hbLen s + 1 := (congrArg hbLen e).trans (hbLen_storeHalfBit _ s)
      have hpartial : (byteClose (hbLen v - 16) 16 v).2.dec.partialByte = s.dec.partialByte :=
        (byteClose_keeps (hbLen v - 16) 16 v).2.1.trans (by rw [completed_dec])
      rw [hcomplete, if_pos ⟨by omega, hwhole⟩, flushPartial_of_whole (by simpa using hwhole),
        if_neg (by omega), lastGroup_of_whole (by omega) hwhole, decide_eq_false (not_not.2 hwhole),
        Bool.or_false, ← hpartial]
  · rw [hcomplete, if_neg (fun h => hwhole h.2), flushPartial_dec_of_partial hwhole,
      if_neg (fun h => hwhole h.1), lastGroup_of_partial hwhole, decide_eq_true hwhole, Bool.or_true]

/-- The half-bits of a finalized frame are those after completion at idle. -/
theorem finalize_hb (idle : Bool) (s : State) :
    (finalize idle s).dec.hb = (completed idle s).dec.hb := by
  rw [finalize_dec_eq]
  split <;> simp

/-- `FINALIZE` in full, beside the decoder registers: the hand-over (R211, 10 R43). -/
theorem finalize_eq (idle : Bool) (s : State) :
    finalize idle s = { s with
      dec := (finalize idle s).dec,
      ctl := { s.ctl with
        code := frameCode (finalize idle s).dec.capx (finalize idle s).dec.ambig,
        frameLen := fbLen (finalize idle s) },
      env := { s.env with
        calls := s.env.calls ++ [.emitFrame (finalize idle s).dec.fb] } } := by
  rw [← (finalize_handOver idle s).1, ← (finalize_handOver idle s).2]
  have hframe := finalize_frame idle s
  generalize finalize idle s = t at hframe
  cases t
  simp only at hframe
  simp only [hframe]

/-- Settles O37: the registers of the finalized frame, and its hand-over. -/
theorem hbFlushFinalizesTheFrame : Obligations.HbFlushFinalizesTheFrame := by
  intro s idle hfree
  let a : State := { s with ctl := { s.ctl with done := false, dropped := false, locked := false } }
  have hexec : exec (.hbFlush idle) s = .next (hbFlush idle a) := exec_of_free hfree rfl rfl
  let v := completed idle a
  have hdec : (hbFlush idle a).dec = if hbLen v % 16 = 0 ∧ hbLen v = hbLen s then v.dec
      else { (byteClose (lastGroup v).1 (lastGroup v).2 v).2.dec with
        partialByte := s.dec.partialByte || decide (hbLen v % 16 ≠ 0) } := finalize_dec_eq idle a
  have hhb : (hbFlush idle a).dec.hb = v.dec.hb := finalize_hb idle a
  have hlen : hbLen (hbFlush idle a) = hbLen v := congrArg List.length hhb
  have hv : v.dec = { s.dec with hb := v.dec.hb } := completed_dec idle a
  have hparams : v.params = s.params := completed_params idle a
  have hdecode (start n : Nat) : byteDecode start n (hbFlush idle a) = byteDecode start n v := by
    rw [byteDecode, byteDecode, hhb, hparams]
    simp [a]
  refine ⟨hbFlush idle a, hexec, ?_, finalize_carry idle a, ?_, ?_, ?_, ?_⟩
  · rw [hbFlush_eq, finalize_eq]
    rfl
  · rintro q rfl hcur hodd hroom
    rw [hhb]
    exact congrArg (fun u : State => u.dec.hb) (completed_of_odd (s := a) hcur hodd hroom)
  · intro h
    rw [hhb, show v = a from completed_of_not h]
  · rw [hlen, hdec]
    split
    · rename_i h
      rw [hv, h.1]
      simp
    · rfl
  · intro nothingClosed start r
    have hr : r = byteDecode (lastGroup v).1 (lastGroup v).2 v := by
      simp only [r, start, hdecode, hlen]
      rfl
    have hnothing : nothingClosed ↔ hbLen v % 16 = 0 ∧ hbLen v = hbLen s := by
      simp only [nothingClosed, hlen]
    have hguard : fbLen v = v.params.maxPacketSize ↔ fbLen s = s.params.maxPacketSize := by
      rw [fbLen, hv, hparams]
      rfl
    rw [hdec, hnothing, byteClose_eq, ← hr]
    refine ⟨fun h => ?_, fun h hfull => ?_, fun h hroom => ?_⟩
    · rw [if_pos h, hv]
      exact ⟨rfl, rfl, rfl, rfl⟩
    · rw [if_neg h, if_pos (hguard.2 hfull), hv]
      exact ⟨rfl, rfl, rfl, rfl⟩
    · rw [if_neg h, if_neg (mt hguard.1 hroom), hv]
      exact ⟨rfl, rfl, rfl, rfl⟩

/-! ### The start of `DECODE` (R214, R215) -/

/-- A `DECODE` that is accepted runs its start rule, with the lock cleared (46 R255). -/
theorem exec_decode_of_locked {s : State} (hfree : s.ctl.busy = false) (hfreq : s.cfg.freq ≠ 0)
    (hlocked : s.ctl.locked = true) :
    exec .decode s = .next (startDecode
      { s with ctl := { s.ctl with done := false, dropped := false, locked := false } }) := by
  have hpre : needsFreqAndLock s = none := by rw [needsFreqAndLock, if_neg hfreq, if_pos hlocked]
  exact exec_of_free (i := .decode) hfree hpre rfl

/-- Settles O38: the reset empties the buffers, so the carry becomes the first half-bit. -/
theorem decodeStartsFromTheCarry : Obligations.DecodeStartsFromTheCarry := by
  intro s hfree hfreq hlocked hroom
  rw [exec_decode_of_locked hfree hfreq hlocked, startDecode,
    enterDecode_of_empty rfl (by exact hroom)]
  rfl

end Sys2Proof.Proofs
end

section
/-! The decode loop (44 R216 to R219, R222): one iteration as the idle end or the half-bits of an ended hold,
and what its two ends leave. -/

namespace Sys2Proof.Proofs

open Sys2Proof Sys2Proof.Machine Sys2Proof.Config Sys2Proof.Laws

/-! ### The ends of the loop (R217 to R219) -/

/-- `t` is `s` once a frame was finalized and decoding has ended: the code and the length are the frame's,
which is emitted last. -/
structure FrameEnd (s t : State) : Prop where
  phase : t.seq.phase = .idle
  ctl : t.ctl = { s.ctl with
    busy := false, done := true, frameLen := fbLen t,
    code := if t.dec.capx then .capacityExceeded else if t.dec.ambig then .ambiguousBit else .ok }
  env : t.env = { s.env with calls := s.env.calls ++ [.emitFrame t.dec.fb] }

theorem frameEnd_finalize (idle : Bool) (s : State) :
    FrameEnd s (endOperation (finalize idle s)) where
  phase := rfl
  ctl := by simp only [endOperation, (finalize_handOver idle s).2]; rfl
  env := (finalize_handOver idle s).1

/-- `FINALIZE` never clears `CAPX`. -/
theorem finalize_capx {idle : Bool} {s : State} (h : s.dec.capx = true) :
    (finalize idle s).dec.capx = true := by
  have hv : (completed idle s).dec.capx = true := by rw [completed_dec]; exact h
  rw [finalize_dec_eq, byteClose_eq]
  split
  · exact hv
  · dsimp only
    split
    · rfl
    · exact hv

/-! ### The half-bits of an ended hold (R216, R218) -/

section

variable {s : State} {lv : Level} (n : Nat)

theorem appendHold_of_full (h : (hbAppend lv s).1 = .full) :
    appendHold (n + 1) lv s = (.full, (hbAppend lv s).2) := by
  rw [appendHold]
  split
  · rename_i t e
    rw [e]
  · rename_i e
    rw [e] at h
    cases h

theorem appendHold_of_ok (h : (hbAppend lv s).1 ≠ .full) :
    appendHold (n + 1) lv s = appendHold n lv (hbAppend lv s).2 := by
  rw [appendHold]
  split
  · rename_i e
    rw [e] at h
    exact absurd rfl h
  · rename_i e
    rw [e]

end

/-- A guard that fires sets `CAPX`. -/
theorem hbAppend_capx {lv : Level} {s : State} (h : (hbAppend lv s).1 = .full) :
    (hbAppend lv s).2.dec.capx = true := by
  rw [hbAppend_eq, byteClose_eq] at h ⊢
  split_ifs at h ⊢
  all_goals rfl

theorem appendHold_capx {n : Nat} {lv : Level} {s : State} (h : (appendHold n lv s).1 = .full) :
    (appendHold n lv s).2.dec.capx = true := by
  induction n generalizing s with
  | zero => cases h
  | succ n ih =>
    by_cases hfull : (hbAppend lv s).1 = .full
    · rw [appendHold_of_full n hfull]
      exact hbAppend_capx hfull
    · rw [appendHold_of_ok n hfull] at h ⊢
      exact ih h

/-! ### The iteration (R216) -/

/-- What the detector's answer makes of a decode iteration: nothing, the half-bits of the ended hold, or
the capacity end. -/
def afterHold (answer : Option (Nat × Level)) (s : State) : State :=
  match answer with
  | none => s
  | some (k, lv) =>
    match (appendHold k lv s).1 with
    | .full => endOperation (finalize false (appendHold k lv s).2)
    | .ok _ => (appendHold k lv s).2

theorem afterHold_of_full {k : Nat} {lv : Level} {s : State} (h : (appendHold k lv s).1 = .full) :
    afterHold (some (k, lv)) s = endOperation (finalize false (appendHold k lv s).2) := by
  simp only [afterHold, h]

theorem afterHold_of_ok {k : Nat} {lv : Level} {s : State} (h : (appendHold k lv s).1 ≠ .full) :
    afterHold (some (k, lv)) s = (appendHold k lv s).2 := by
  unfold afterHold
  dsimp only
  split
  · exact absurd ‹_› h
  · rfl

/-- The loop goes on with the control registers as they were, or ends by capacity. -/
theorem afterHold_cases (answer : Option (Nat × Level)) (s : State) :
    ((afterHold answer s).seq = s.seq ∧ (afterHold answer s).ctl = s.ctl ∧
      (afterHold answer s).env = s.env) ∨
    ((afterHold answer s).dec.capx = true ∧ FrameEnd s (afterHold answer s)) := by
  match answer with
  | none => exact .inl ⟨rfl, rfl, rfl⟩
  | some (k, lv) =>
    by_cases h : (appendHold k lv s).1 = .full
    · obtain ⟨hphase, hctl, henv⟩ := frameEnd_finalize false (appendHold k lv s).2
      rw [afterHold_of_full h]
      exact .inr ⟨finalize_capx (appendHold_capx h), hphase, by simpa using hctl, by simpa using henv⟩
    · rw [afterHold_of_ok h]
      exact .inl ⟨by simp, by simp, by simp⟩

/-- What the detector answers to the sample that a loop reads in `s` at the clock value `now`, and the
state it leaves. -/
def hear (now : Int) (s : State) : Option (Nat × Level) × State :=
  let p := pushSample (readSample s).1 (readSample s).2
  tdStep p.cond.level now p

/-- A decode iteration in full: the idle end, or a sample and what the detector's answer makes of it. -/
theorem decodeIteration_eq (s : State) :
    let n := nowUs (feed s)
    decodeIteration s =
      if idleExceeded (n.1 - s.det.tLast) s.cfg.freq then endOperation (finalize true n.2)
      else afterHold (hear n.1 n.2).1 (hear n.1 n.2).2 := by
  intro n
  rcases decodeIteration_cases (s := s) (now := n.1) (c := n.2) rfl with
    ⟨hidle, e⟩ | ⟨hlasts, _, _, hr, ⟨t, ht, e⟩ | ⟨k, lv, t, ht, ⟨u, hu, e⟩ | ⟨skip, u, hu, e⟩⟩⟩
  · rw [if_pos hidle, e]
  all_goals
    rw [hlasts, if_neg Bool.false_ne_true, e]
    simp only [hear, hr, ht]
  · rfl
  · rw [afterHold_of_full (by rw [hu]), hu]
  · rw [afterHold_of_ok (by rw [hu]; exact Answer.noConfusion), hu]

/-- The half-bits of a single and of a doubled hold are appended one by one, until a guard fires. -/
theorem afterHold_appends {k : Nat} (lv : Level) (s : State) (hk : k = 1 ∨ k = 2) :
    let t := afterHold (some (k, lv)) s
    let one := hbAppend lv s
    let two := hbAppend lv one.2
    (one.1 = .full → t = endOperation (finalize false one.2)) ∧
    (one.1 ≠ .full → k = 1 → t = one.2) ∧
    (one.1 ≠ .full → k = 2 → two.1 = .full → t = endOperation (finalize false two.2)) ∧
    (one.1 ≠ .full → k = 2 → two.1 ≠ .full → t = two.2) := by
  intro t one two
  have hnone (u : State) : (appendHold 0 lv u).1 ≠ .full := Answer.noConfusion
  refine ⟨fun h1 => ?_, fun h1 hone => ?_, fun h1 htwo h2 => ?_, fun h1 htwo h2 => ?_⟩
  · obtain ⟨n, rfl⟩ : ∃ n, k = n + 1 := ⟨k - 1, by omega⟩
    have e := appendHold_of_full n h1
    exact (afterHold_of_full (congrArg Prod.fst e)).trans (by rw [e])
  · subst hone
    have e := appendHold_of_ok 0 h1
    exact (afterHold_of_ok (by rw [e]; exact hnone _)).trans (by rw [e]; rfl)
  · subst htwo
    have e := (appendHold_of_ok 1 h1).trans (appendHold_of_full 0 h2)
    exact (afterHold_of_full (congrArg Prod.fst e)).trans (by rw [e])
  · subst htwo
    have e := (appendHold_of_ok 1 h1).trans (appendHold_of_ok 0 h2)
    exact (afterHold_of_ok (by rw [e]; exact hnone _)).trans (by rw [e]; rfl)

theorem idleExceeded_iff {gap : Int} {freq : Nat} :
    idleExceeded gap freq = true ↔ 10000000 < gap * freq := decide_eq_true_iff

/-- Settles O39: the idle end, or what the detector's answer to the sample makes of the iteration. -/
theorem decodeEndsByIdleOrCapacity : Obligations.DecodeEndsByIdleOrCapacity := by
  intro s w rest hscript hphase hclock hw
  have hstep : step s = .next (decodeIteration s) := by
    rw [step_of_no_action hscript, iterate, hphase]
  have hcfg : (decodeIteration s).cfg = s.cfg := by
    have := (iterate_frame s).1
    rwa [iterate, hphase] at this
  have heq := decodeIteration_eq s
  simp only [nowUs_feed_queued hclock hw] at heq
  refine ⟨decodeIteration s, hstep, hcfg, ?_⟩
  by_cases hidle : 10000000 < (w.toInt - s.det.tLast) * s.cfg.freq
  · rw [if_pos (idleExceeded_iff.2 hidle)] at heq
    obtain ⟨hended, hctl, henv⟩ := heq ▸ frameEnd_finalize true (clocked w rest s)
    refine ⟨by rw [hctl], fun _ => ⟨hended, by rw [henv], by rw [henv]; simp⟩,
      fun h => absurd hidle (not_lt.2 h), fun _ => by rw [hctl]; exact ⟨rfl, rfl, rfl, rfl⟩,
      fun _ => heq, fun h => absurd hidle (not_lt.2 h)⟩
  rw [if_neg (mt idleExceeded_iff.1 hidle)] at heq
  let r := readSample (clocked w rest s)
  let a := hear w.toInt (clocked w rest s)
  have heq : decodeIteration s = afterHold a.1 a.2 := heq
  have hseq : a.2.seq = s.seq := by simp [a, hear]
  have hctl : a.2.ctl = s.ctl := by simp [a, hear]
  have hcalls : a.2.env.calls = s.env.calls ++ [.feed, .nowUs w.toInt, .readSample r.1] := by
    simp [a, r, hear]
  have hcases := afterHold_cases a.1 a.2
  simp only [← heq] at hcases
  refine ⟨?_, fun h => absurd h hidle, fun _ => ⟨r.1, ?_⟩, fun hended => ?_,
    fun h => absurd h hidle, ?_⟩
  · rcases hcases with ⟨-, hon, -⟩ | ⟨-, -, hend, -⟩
    · rw [hon, hctl]
    · rw [hend, hctl]
  · rcases hcases with ⟨honseq, honctl, honenv⟩ | ⟨hcapx, hended, -, hendenv⟩
    · exact .inl ⟨by rw [honseq, hseq, hphase], honctl.trans hctl, by rw [honenv, hcalls]⟩
    · exact .inr ⟨hended, hcapx, by rw [hendenv, hcalls]; simp⟩
  · rcases hcases with ⟨honseq, -, -⟩ | ⟨-, -, hend, -⟩
    · rw [honseq, hseq, hphase] at hended
      cases hended
    · rw [hend]
      exact ⟨rfl, rfl, rfl, rfl⟩
  · intro _ raw more hsample pushed asked
    have ha : a = tdStep pushed.cond.level w.toInt pushed := by
      simp only [a, hear, readSample_queued (s := clocked w rest s) hsample]
      rfl
    have hasked : asked = a.2 := by rw [ha]
    rw [← ha, hasked, heq]
    refine ⟨by simp [a, hear], fun hquiet => by rw [hquiet]; rfl, fun k lv hends => ?_⟩
    rw [hends]
    exact ⟨tdStep_slots hends, afterHold_appends lv a.2 (tdStep_slots hends)⟩

end Sys2Proof.Proofs
end

section
/-! `RECEIVE_FRAME` is `SYNCHRONIZE` then `DECODE` (44 R221), by simulation: the two runs are the same state
under another `OP`, and from the lock on under another `CODE` until the frame's code is written. -/

namespace Sys2Proof.Proofs

open Sys2Proof Sys2Proof.Machine Sys2Proof.Config Sys2Proof.Laws

/-! ### States that differ in `OP` and `CODE` -/

/-- `s` with another `OP`, and its `CODE` changed by `g`. -/
def relabel (op : BitVec 8) (g : Code → Code) (s : State) : State :=
  { s with seq := { s.seq with op := op }, ctl := { s.ctl with code := g s.ctl.code } }

/-- A transformer of states that neither reads nor writes `OP` and `CODE`. -/
def Blind (f : State → State) : Prop :=
  ∀ op g s, f (relabel op g s) = relabel op g (f s)

/-- An operation with an answer, of which the same holds: the answer does not depend on them either. -/
def BlindAnswer {α : Type} (f : State → α × State) : Prop :=
  ∀ op g s, f (relabel op g s) = ((f s).1, relabel op g (f s).2)

/-! ### The parts of the receive loops are blind -/

theorem nowUs_feed_blind : BlindAnswer (fun s => nowUs (feed s)) := by
  intro op g s
  dsimp only [nowUs, feed, record, relabel]
  cases s.env.clock <;> rfl

theorem readSample_blind : BlindAnswer readSample := by
  intro op g s
  dsimp only [readSample, relabel]
  cases s.env.samples <;> rfl

theorem pushSample_blind (raw : Sample) : Blind (pushSample raw) := by
  intro op g s
  dsimp only [pushSample, winMedian, winPush, relabel]
  cases doubledMedian (sortedSamples (shiftAppend s.win (some raw))) <;> rfl

theorem tdStep_blind (e : Level) (now : Int) : BlindAnswer (tdStep e now) := by
  intro op g s
  cases e with
  | noData => rfl
  | ratio q =>
    dsimp only [tdStep, relabel]
    cases s.det.cur with
    | none => rfl
    | some c => dsimp only; split <;> rfl

theorem hear_blind (now : Int) : BlindAnswer (hear now) := by
  intro op g s
  simp only [hear, readSample_blind op g s, pushSample_blind _ op g]
  exact tdStep_blind _ now op g _

theorem byteClose_blind (start n : Nat) : BlindAnswer (byteClose start n) := by
  intro op g s
  rw [byteClose_eq, byteClose_eq start n s]
  by_cases h : fbLen s = s.params.maxPacketSize
  · rw [if_pos h]
    exact if_pos h
  · rw [if_neg h]
    exact if_neg h

theorem hbAppend_blind (lv : Level) : BlindAnswer (hbAppend lv) := by
  intro op g s
  rcases hbAppend_cases lv s with ⟨h, e⟩ | ⟨h, h', e⟩ | ⟨h, h', e⟩
  all_goals rw [e, hbAppend_eq]
  · exact if_pos h
  · exact (if_neg h).trans (if_pos h')
  · exact ((if_neg h).trans (if_neg (not_not.2 h'))).trans (byteClose_blind _ 16 op g (storeHalfBit lv s))

theorem appendHold_blind (n : Nat) (lv : Level) : BlindAnswer (appendHold n lv) := by
  intro op g s
  induction n generalizing s with
  | zero => rfl
  | succ n ih =>
    have happend := hbAppend_blind lv op g s
    by_cases h : (hbAppend lv s).1 = .full
    · rw [appendHold_of_full n h, appendHold_of_full n (by rw [happend]; exact h), happend]
    · rw [appendHold_of_ok n h, appendHold_of_ok n (by rw [happend]; exact h), happend]
      exact ih _

theorem enterDecode_blind : Blind enterDecode := by
  intro op g s
  unfold enterDecode
  dsimp only [relabel]
  cases s.dec.carry with
  | none => rfl
  | some lv =>
    exact congrArg
      (fun p : Answer × State => { p.2 with dec := { p.2.dec with carry := none } })
      (hbAppend_blind lv op g { s with seq := { s.seq with phase := .decode } })

theorem latchStart_blind (now : Int) : Blind (latchStart now) := by
  intro op g s
  dsimp only [latchStart, relabel]
  split <;> rfl

theorem scanHold_blind (n : Nat) (lv : Level) (now : Int) : Blind (scanHold n lv now) := by
  intro op g s
  induction n generalizing s with
  | zero => rfl
  | succ n ih =>
    have hmatch : histMatch (histAppend lv (relabel op g s)) =
        relabel op g (histMatch (histAppend lv s)) := rfl
    rw [scanHold, scanHold, hmatch]
    by_cases h : (histMatch (histAppend lv s)).ctl.matched = true
    · rw [if_pos h]
      exact if_pos h
    · rw [if_neg h, ← ih]
      exact if_neg h

theorem completed_blind (idle : Bool) : Blind (completed idle) := by
  intro op g s
  unfold completed
  dsimp only [relabel]
  cases s.det.cur with
  | none => rfl
  | some q =>
    by_cases h : idle = true ∧ hbLen s % 2 = 1 ∧ hbLen s < s.params.maxPacketHalfBits
    · dsimp only
      rw [if_pos h]
      exact if_pos h
    · dsimp only
      rw [if_neg h]
      exact if_neg h

/-! ### The ends write `CODE` -/

theorem endTimeout_relabel (op : BitVec 8) (g : Code → Code) (s : State) :
    endTimeout (relabel op g s) = relabel op id (endTimeout s) := by
  rw [endTimeout_eq, endTimeout_eq]
  rfl

theorem finalize_relabel (op : BitVec 8) (g : Code → Code) (idle : Bool) (s : State) :
    finalize idle (relabel op g s) = relabel op id (finalize idle s) := by
  have hdec : (finalize idle (relabel op g s)).dec = (finalize idle s).dec := by
    have hgroup (v : State) : lastGroup (relabel op g v) = lastGroup v := rfl
    rw [finalize_dec_eq, finalize_dec_eq, completed_blind idle op g s, hgroup, byteClose_blind]
    rfl
  rw [finalize_eq, finalize_eq idle s]
  simp only [fbLen, hdec]
  rfl

/-! ### One iteration of each loop -/

/-- What the detector's answer makes of a scan iteration: nothing, or the slots of the ended hold. -/
def afterSlots (now : Int) (answer : Option (Nat × Level)) (s : State) : State :=
  match answer with
  | none => s
  | some (k, lv) => scanHold k lv now s

theorem afterSlots_blind (now : Int) (answer : Option (Nat × Level)) : Blind (afterSlots now answer) :=
  fun op g s => match answer with
    | none => rfl
    | some (k, lv) => scanHold_blind k lv now op g s

/-- A scan iteration in full: the timeout, or a sample and what the detector's answer makes of it. -/
theorem scanIteration_eq (s : State) :
    let n := nowUs (feed s)
    let l := latchStart n.1 n.2
    scanIteration s =
      if (s.params.syncTimeoutUs : Int) ≤ n.1 - l.seq.tStart then endTimeout l
      else afterSlots n.1 (hear n.1 l).1 (hear n.1 l).2 := by
  intro n l
  rcases scanIteration_cases (s := s) (now := n.1) (c := n.2) rfl with
    ⟨hover, e⟩ | ⟨hlasts, _, _, hr, ⟨t, ht, e⟩ | ⟨k, lv, t, ht, e⟩⟩
  · rw [if_pos hover, e]
  all_goals
    rw [if_neg (not_le.2 hlasts), e]
    simp only [hear, l, hr, ht]
    rfl

/-- A scan iteration passes over `OP`. -/
theorem scanIteration_relabel (op : BitVec 8) (s : State) :
    scanIteration (relabel op id s) = relabel op id (scanIteration s) := by
  have hclock : nowUs (feed (relabel op id s)) = _ := nowUs_feed_blind op id s
  rw [scanIteration_eq, scanIteration_eq s]
  simp only [hclock, latchStart_blind _ op id, hear_blind _ op id, afterSlots_blind _ _ op id]
  by_cases h : (s.params.syncTimeoutUs : Int) ≤
      (nowUs (feed s)).1 - (latchStart (nowUs (feed s)).1 (nowUs (feed s)).2).seq.tStart
  · rw [if_pos h, ← endTimeout_relabel op id]
    exact if_pos h
  · rw [if_neg h]
    exact if_neg h

/-- An ended operation passes over `OP`, as the frame's code is written. -/
theorem endOperation_finalize_relabel (op : BitVec 8) (g : Code → Code) (idle : Bool) (s : State) :
    endOperation (finalize idle (relabel op g s)) = relabel op id (endOperation (finalize idle s)) := by
  rw [finalize_relabel]
  rfl

/-- How an iteration of the decode loop, `f`, passes over `OP` and `CODE` from `s`: it goes on with both
as they were, or ends, with `CODE` written. -/
def PassesOver (f : State → State) (s : State) : Prop :=
  ∀ op g,
    ((f s).seq.phase = .idle ∧ f (relabel op g s) = relabel op id (f s)) ∨
    ((f s).seq = s.seq ∧ (f s).ctl = s.ctl ∧ f (relabel op g s) = relabel op g (f s))

theorem afterHold_passesOver (answer : Option (Nat × Level)) (s : State) :
    PassesOver (afterHold answer) s := by
  intro op g
  match answer with
  | none => exact .inr ⟨rfl, rfl, rfl⟩
  | some (k, lv) =>
    have happend := appendHold_blind k lv op g s
    by_cases h : (appendHold k lv s).1 = .full
    · rw [afterHold_of_full h, afterHold_of_full (by rw [happend]; exact h), happend]
      exact .inl ⟨rfl, endOperation_finalize_relabel op g false _⟩
    · rw [afterHold_of_ok h, afterHold_of_ok (by rw [happend]; exact h), happend]
      exact .inr ⟨by simp, by simp, rfl⟩

theorem decodeIteration_passesOver (s : State) : PassesOver decodeIteration s := by
  intro op g
  obtain ⟨now, c, hn⟩ : ∃ now c, nowUs (feed s) = (now, c) := ⟨_, _, rfl⟩
  have hn' : nowUs (feed (relabel op g s)) = (now, relabel op g c) := by
    simpa only [hn] using nowUs_feed_blind op g s
  have e := decodeIteration_eq s
  have e' := decodeIteration_eq (relabel op g s)
  simp only [hn] at e
  simp only [hn'] at e'
  by_cases h : idleExceeded (now - s.det.tLast) s.cfg.freq = true
  · rw [e, e', if_pos h]
    exact .inl ⟨rfl, (if_pos (by exact h)).trans (endOperation_finalize_relabel op g true c)⟩
  · have hc : c = (nowUs (feed s)).2 := by rw [hn]
    have hseq : (hear now c).2.seq = s.seq := by simp [hear, hc]
    have hctl : (hear now c).2.ctl = s.ctl := by simp [hear, hc]
    have hhear : hear now (relabel op g c) = _ := hear_blind now op g c
    rw [if_neg h] at e
    rw [if_neg (by exact h), hhear] at e'
    have hon := afterHold_passesOver (hear now c).1 (hear now c).2 op g
    rwa [hseq, hctl, ← e, ← e'] at hon

/-! ### Runs -/

/-- An idle block without a host action stays as it is (60 R288). -/
theorem runSteps_of_idle (n : Nat) {s : State} (hscript : s.script = []) (hidle : s.seq.phase = .idle) :
    runSteps n s = .next s := by
  induction n with
  | zero => rfl
  | succ n ih => rw [runSteps_succ n hscript, iterate, hidle, ih]

/-- The rest of a `RECEIVE_FRAME` from its lock on is the run of the `DECODE` issued there. -/
theorem runSteps_decode_relabel {op : BitVec 8} {g : Code → Code} {n : Nat} {d t : State}
    (hscript : d.script = []) (hphase : d.seq.phase = .decode) (hbusy : d.ctl.busy = true)
    (hrun : runSteps n (relabel op g d) = .next t) (hended : t.ctl.busy = false) :
    ∃ v, runSteps n d = .next v ∧ t = relabel op id v := by
  induction n generalizing d with
  | zero =>
    cases hrun
    exact absurd hbusy (by rw [show d.ctl.busy = false from hended]; exact Bool.false_ne_true)
  | succ n ih =>
    have hiterate : iterate d = decodeIteration d := by rw [iterate, hphase]
    have hscript' : (decodeIteration d).script = [] := by
      rw [← hiterate, (iterate_frame d).2.2.2.2.2, hscript]
    have hiterate' : iterate (relabel op g d) = decodeIteration (relabel op g d) := by
      rw [iterate, show (relabel op g d).seq.phase = .decode from hphase]
    rw [runSteps_succ n (by exact hscript), hiterate'] at hrun
    rw [runSteps_succ n hscript, hiterate]
    rcases decodeIteration_passesOver d op g with ⟨hidle, e⟩ | ⟨hseq, hctl, e⟩ <;> rw [e] at hrun
    · rw [runSteps_of_idle n (by exact hscript') (by exact hidle)] at hrun
      cases hrun
      exact ⟨_, runSteps_of_idle n hscript' hidle, rfl⟩
    · exact ih hscript' (by rw [hseq, hphase]) (by rw [hctl, hbusy]) hrun

/-! ### The run of `SYNCHRONIZE` -/

/-- A `SYNCHRONIZE` in progress that a free block accepted: it has received nothing but the carry. -/
structure Synchronizing (x : State) : Prop where
  script : x.script = []
  phase : x.seq.phase = .scan ∨ x.seq.phase = .settle
  op : x.seq.op = 0x33
  freq : x.cfg.freq ≠ 0
  running : Running x.ctl
  dropped : x.ctl.dropped = false
  fresh : x.dec = freshDecoder x.dec.carry

/-- What an iteration of a `SYNCHRONIZE` in state `x` may come to, as `x'`, and what `RECEIVE_FRAME` then
comes to, as `y'`: both go on alike, both time out alike, or `SYNCHRONIZE` locks and the `DECODE` issued
then starts in a state that `RECEIVE_FRAME` passes to but for `OP` and `CODE`. -/
inductive SynchronizesTo (x' y' : State) : Prop
  | goesOn : Synchronizing x' → y' = relabel 0x44 id x' → SynchronizesTo x' y'
  | timesOut : x'.script = [] → x'.seq.phase = .idle → x'.ctl.code = .syncTimeout →
      x'.ctl.locked = false → y' = relabel 0x44 id x' → SynchronizesTo x' y'
  | locks (d : State) (g : Code → Code) : x'.ctl.locked = true → exec .decode x' = .next d →
      d.script = [] → d.seq.phase = .decode → d.ctl.busy = true → y' = relabel 0x44 g d →
      SynchronizesTo x' y'

/-- An iteration of the scan keeps what a `SYNCHRONIZE` in progress is, or times out. -/
theorem Synchronizing.scan {x : State} (hx : Synchronizing x) (hphase : x.seq.phase = .scan) :
    SynchronizesTo (scanIteration x) (relabel 0x44 id (scanIteration x)) := by
  obtain ⟨e, -, h⟩ := scanIteration_effect hphase
  generalize scanIteration x = x' at h
  cases h
  case timeout t0 _ _ => exact .timesOut hx.script rfl rfl rfl rfl
  case scans t0 raw m2 d lvs m _ _ _ =>
    exact .goesOn ⟨hx.script, hx.phase, hx.op, hx.freq, hx.running, hx.dropped, hx.fresh⟩ rfl
  case matched t0 raw m2 d c _ _ _ =>
    refine .goesOn ⟨hx.script, .inr rfl, hx.op, hx.freq, hx.running, hx.dropped, ?_⟩ rfl
    dsimp only
    rw [hx.fresh]
    rfl
  all_goals simp_all

/-- At the end of the settle delay `RECEIVE_FRAME` passes to the state in which a `DECODE` issued at the
lock starts, but for `OP` and `CODE`. -/
theorem Synchronizing.startDecode_eq {c : State} (hc : Synchronizing c) :
    enterDecode (relabel 0x44 id c) = relabel 0x44 (fun _ => c.ctl.code) (startDecode
      { c with seq := { c.seq with phase := .idle },
               ctl := { c.ctl with busy := false, done := false, dropped := false, locked := false,
                                   code := .ok } }) := by
  have hctl : c.ctl = { c.ctl with busy := true, done := false, locked := false, dropped := false } := by
    obtain ⟨hbusy, hdone, hlocked⟩ := hc.running
    have hdropped := hc.dropped
    generalize c.ctl = k at *
    cases k
    simp_all
  rw [startDecode, ← enterDecode_blind]
  exact congrArg₂
    (fun k d => enterDecode { c with seq := { c.seq with op := 0x44, phase := .decode }, ctl := k, dec := d })
    hctl hc.fresh

/-- An iteration of the settle delay keeps it, or locks. -/
theorem Synchronizing.settle {x : State} (hx : Synchronizing x) :
    SynchronizesTo (settleIteration x) (settleIteration (relabel 0x44 id x)) := by
  obtain ⟨e, hn, -⟩ := nowUs_feed_eq x
  have hn' : nowUs (feed (relabel 0x44 id x)) = (e.lastNow, relabel 0x44 id { x with env := e }) := by
    simpa only [hn] using nowUs_feed_blind 0x44 id x
  have hc : Synchronizing { x with env := e } :=
    ⟨hx.script, hx.phase, hx.op, hx.freq, hx.running, hx.dropped, hx.fresh⟩
  rw [settleIteration, settleIteration, hn, hn']
  by_cases h : (x.params.settleUs : Int) ≤ e.lastNow - x.seq.tSettle
  · rw [if_pos (by exact h), if_pos (by exact h), lockReached, lockReached, if_pos (by exact hx.op),
      if_neg (by exact (by decide : ¬ (0x44 : BitVec 8) = 0x33)), hc.startDecode_eq]
    exact .locks _ _ rfl (exec_decode_of_locked rfl (by exact hx.freq) rfl) (by simpa using hx.script)
      (by simp) (by simp) rfl
  · rw [if_neg (by exact h), if_neg (by exact h)]
    exact .goesOn hc rfl

/-- The simulation of `RECEIVE_FRAME` by `SYNCHRONIZE`, one iteration. -/
theorem Synchronizing.iterate {x : State} (hx : Synchronizing x) :
    SynchronizesTo (iterate x) (iterate (relabel 0x44 id x)) := by
  have hy : (relabel 0x44 id x).seq.phase = x.seq.phase := rfl
  rcases hx.phase with hphase | hphase <;> rw [Machine.iterate, Machine.iterate, hy, hphase]
  · dsimp only
    rw [scanIteration_relabel]
    exact hx.scan hphase
  · exact hx.settle

/-- A run of `RECEIVE_FRAME` that has ended, split at the lock (R221): the run of `SYNCHRONIZE` from `a` that
timed out, or its run to the lock and then the run of the `DECODE` issued there. -/
def SplitRun (n : Nat) (a t : State) : Prop :=
  (∃ v, runSteps n a = .next v ∧ v.ctl.code = .syncTimeout ∧ v.ctl.locked = false ∧
    t = { v with seq := { v.seq with op := 0x44 } }) ∨
  ∃ (m : Nat) (u d v : State), m ≤ n ∧ runSteps m a = .next u ∧ u.ctl.locked = true ∧
    exec .decode u = .next d ∧ runSteps (n - m) d = .next v ∧
    t = { v with seq := { v.seq with op := 0x44 } }

/-- A run is split as the rest after its first iteration is. -/
theorem SplitRun.succ {n : Nat} {x t : State} (hscript : x.script = [])
    (h : SplitRun n (Machine.iterate x) t) : SplitRun (n + 1) x t := by
  have hrun (m : Nat) := runSteps_succ m hscript
  rcases h with ⟨v, hv, hcode, hlocked, ht⟩ | ⟨m, u, d, v, hm, hu, hlocked, hd, hv, ht⟩
  · exact .inl ⟨v, (hrun n).trans hv, hcode, hlocked, ht⟩
  · exact .inr ⟨m + 1, u, d, v, by omega, (hrun m).trans hu, hlocked, hd, by
      rwa [Nat.add_sub_add_right], ht⟩

/-- The simulation along a run, from which the `DECODE` takes over at the lock. -/
theorem Synchronizing.run {n : Nat} {x t : State} (hx : Synchronizing x)
    (hrun : runSteps n (relabel 0x44 id x) = .next t) (hended : t.ctl.busy = false) : SplitRun n x t := by
  induction n generalizing x with
  | zero =>
    cases hrun
    exact absurd hx.running.1 (by rw [show x.ctl.busy = false from hended]; exact Bool.false_ne_true)
  | succ n ih =>
    rw [runSteps_succ n (by exact hx.script)] at hrun
    refine .succ hx.script ?_
    cases hx.iterate with
    | goesOn hx' hy' =>
      rw [hy'] at hrun
      exact ih hx' hrun
    | timesOut hscript hidle hcode hlocked hy' =>
      rw [hy', runSteps_of_idle n (by exact hscript) (by exact hidle)] at hrun
      cases hrun
      exact .inl ⟨_, runSteps_of_idle n hscript hidle, hcode, hlocked, rfl⟩
    | locks d g hlocked hd hscript hphase hbusy hy' =>
      rw [hy'] at hrun
      obtain ⟨v, hv, ht⟩ := runSteps_decode_relabel hscript hphase hbusy hrun hended
      exact .inr ⟨0, _, d, v, Nat.zero_le n, rfl, hlocked, hd, hv, ht⟩

/-- Settles O40: both operations start in the same state but for `OP`, and the runs are split at the lock. -/
theorem receiveFrameIsSynchronizeThenDecode : Obligations.ReceiveFrameIsSynchronizeThenDecode := by
  intro s b t n hfree hfreq hscript hexec hrun hended
  have hsync : exec .synchronize s = .next (scanBegun 0x33 s) :=
    scanStartsFresh s _ _ hfree hfreq (.inl ⟨rfl, rfl⟩)
  have hreceive : exec .receiveFrame s = .next (scanBegun 0x44 s) :=
    scanStartsFresh s _ _ hfree hfreq (.inr ⟨rfl, rfl⟩)
  cases hreceive.symm.trans hexec
  have hx : Synchronizing (scanBegun 0x33 s) :=
    ⟨hscript, .inl rfl, rfl, hfreq, ⟨rfl, rfl, rfl⟩, rfl, rfl⟩
  exact ⟨_, hsync, hx.run hrun hended⟩

end Sys2Proof.Proofs
end

section
/-! The Manchester encoder (45): one cell of `SEND_BIT`, the starts of the two transmit operations, and their
runs, which send the bits of the preamble and of every byte of `TX` eight at a time. -/

namespace Sys2Proof.Proofs

open Sys2Proof Sys2Proof.Machine Sys2Proof.Config Sys2Proof.Laws

/-! ### One cell (R235, R236) -/

/-- `HALF_US` (30 R94) as a quotient of rationals. -/
theorem halfUs_eq (f : Nat) : halfUs f = 1000000 / (2 * (f : Rat)) := by
  rw [halfUs, Rat.mkRat_eq_div]
  push_cast
  rfl

/-- A free block refuses a command whose precondition fails: the error's code, with the lock cleared (46
R255). -/
theorem exec_of_failed {s : State} {i : Instr} {e : Code} (hfree : s.ctl.busy = false)
    (hpre : preOf s i = some e) (hlock : keepsLock i = false) :
    exec i s = .next { s with ctl := endedWith e s.ctl } := by
  rw [exec_eq_command, hpre, command_of_failed _ _ _ hfree, raise_of_free _ (by exact hfree), hlock,
    admission, Bool.and_false]
  rfl

/-- Settles O41: the precondition fails, or the rule sends the cell. -/
theorem sendBitSendsOneCell : Obligations.SendBitSendsOneCell := by
  intro s b r hfree hp
  have hhp : halfPeriod r s = hp := by rw [halfPeriod, halfUs_eq]
  refine ⟨?_, fun hrate => ?_⟩
  · rintro ⟨rfl, hzero⟩
    exact exec_of_failed hfree (if_pos hzero) rfl
  · have hpre : preOf s (.sendBit b r) = none := by
      rcases hrate with rfl | hfreq
      · rfl
      · cases r
        · exact needsFreq_of_ne hfreq
        · rfl
    rw [exec_of_free hfree hpre rfl, ← hhp]
    simp only [ruleOf, bitCell_eq]
    rfl

/-! ### The starts (R238, R240) -/

/-- Settles O42: the two start rules on the admitted state. -/
theorem transmissionStarts : Obligations.TransmissionStarts := fun _ hfree =>
  ⟨exec_of_free hfree rfl rfl, fun hfreq => exec_of_free hfree (needsFreq_of_ne hfreq) rfl⟩

/-! ### Cells sent by the loops (R241, R242) -/

/-- `s` after the bits `l` were sent at half-period `hp`, with `BIT_IDX` left at `idx`. -/
def bitsSent (hp : Rat) (l : List Bool) (idx : Nat) (s : State) : State :=
  { s with tx := { s.tx with led := l.getLastD s.tx.led, bitIdx := idx },
           env := { s.env with calls := s.env.calls ++ l.flatMap (cellEvents · hp) } }

theorem bitsSent_append (hp : Rat) (l m : List Bool) (i j : Nat) (s : State) :
    bitsSent hp m j (bitsSent hp l i s) = bitsSent hp (l ++ m) j s := by
  cases m using List.reverseRecOn <;> simp [bitsSent, ← List.append_assoc]

/-- One bit of a loop is one cell after a `Feed`. -/
theorem bitCell_feed (b : Bool) (hp : Rat) (s : State) :
    bitCell b hp (feed s) = bitsSent hp [b] s.tx.bitIdx s := by
  simp [bitCell_eq, bitsSent, cellEvents, feed, record]

/-- A run follows a sequence of states, each `k` steps after the one before. -/
theorem runSteps_mul {k n : Nat} {x : Nat → State}
    (h : ∀ i < n, runSteps k (x i) = .next (x (i + 1))) : runSteps (k * n) (x 0) = .next (x n) := by
  induction n with
  | zero => rfl
  | succ n ih =>
    rw [Nat.mul_succ, runSteps_add k (ih fun i hi => h i (hi.trans n.lt_succ_self))]
    exact h n n.lt_succ_self

/-- A loop over eight bits, bit `i` of which is sent while `BIT_IDX` is `idx i`: each of the first seven
moves the index on, and the last one does `finish`. -/
theorem runSteps_eightBits {hp : Rat} {bit : Nat → Bool} {idx : Nat → Nat} {finish : State → State}
    {s : State} (hscript : s.script = []) (hidx : s.tx.bitIdx = idx 0)
    (hmoves : ∀ i < 7, ∀ l, iterate (bitsSent hp l (idx i) s) =
      bitsSent hp [bit i] (idx (i + 1)) (bitsSent hp l (idx i) s))
    (hlast : ∀ l, iterate (bitsSent hp l (idx 7) s) =
      finish (bitsSent hp [bit 7] (idx 7) (bitsSent hp l (idx 7) s))) :
    runSteps 8 s = .next (finish (bitsSent hp ((List.range 8).map bit) (idx 7) s)) := by
  have hstart : s = bitsSent hp ((List.range 0).map bit) (idx 0) s := by simp [bitsSent, ← hidx]
  have hseven : runSteps (1 * 7) s = .next (bitsSent hp ((List.range 7).map bit) (idx 7) s) := by
    conv_lhs => rw [hstart]
    refine runSteps_mul (x := fun i => bitsSent hp ((List.range i).map bit) (idx i) s) fun i hi => ?_
    rw [runSteps_succ 0 (by exact hscript), hmoves i hi, bitsSent_append, List.range_succ,
      List.map_append]
    rfl
  rw [show 8 = 1 * 7 + 1 from rfl, runSteps_add 1 hseven, runSteps_succ 0 (by exact hscript), hlast,
    bitsSent_append, List.range_succ (n := 7), List.map_append]
  rfl

/-! ### The preamble (R241) -/

theorem preambleBits_eq : preambleBits = (List.range 8).map (fun i => decide (4 ≤ i)) := rfl

/-- A `TX_PRE` step before the last bit. -/
theorem iterate_txPre_of_lt {s : State} (hphase : s.seq.phase = .txPre) (hidx : s.tx.bitIdx < 7) :
    iterate s =
      bitsSent s.params.preambleHalfUs [decide (4 ≤ s.tx.bitIdx)] (s.tx.bitIdx + 1) s := by
  rw [iterate, hphase]
  simp only [txPreIteration, bitCell_feed]
  exact if_pos hidx

/-- The last `TX_PRE` step. -/
theorem iterate_txPre_of_eq {s : State} (hphase : s.seq.phase = .txPre) (hidx : s.tx.bitIdx = 7) :
    iterate s = preambleSent (bitsSent s.params.preambleHalfUs [true] 7 s) := by
  rw [iterate, hphase]
  simp only [txPreIteration, bitCell_feed, hidx]
  rfl

/-- Eight steps send the preamble. -/
theorem runSteps_txPre {s : State} (hscript : s.script = []) (hphase : s.seq.phase = .txPre)
    (hidx : s.tx.bitIdx = 0) :
    runSteps 8 s = .next (preambleSent (bitsSent s.params.preambleHalfUs preambleBits 7 s)) := by
  rw [preambleBits_eq]
  exact runSteps_eightBits (idx := id) hscript hidx
    (fun i hi l => iterate_txPre_of_lt (s := bitsSent s.params.preambleHalfUs l i s) hphase hi)
    (fun l => iterate_txPre_of_eq (s := bitsSent s.params.preambleHalfUs l 7 s) hphase rfl)

/-! ### The bytes (R242, R243) -/

theorem bitsMsbFirst_eq (v : Byte) :
    bitsMsbFirst v = (List.range 8).map (fun i => v.getLsbD (7 - i)) := rfl

/-- Between two bytes: the frame ends when `TX_IDX` has reached `TX_LEN`, else the data loop goes on. -/
def nextByte (s : State) : State :=
  if s.tx.txIdx = s.tx.txLen then endTransmit s else { s with seq := { s.seq with phase := .txData } }

/-- A `TX_DATA` step before the last bit of a byte. -/
theorem iterate_txData_of_pos {s : State} (hphase : s.seq.phase = .txData) (hidx : 0 < s.tx.bitIdx) :
    iterate s = bitsSent (halfUs s.cfg.freq) [currentBit s] (s.tx.bitIdx - 1) s := by
  rw [iterate, hphase]
  simp only [txDataIteration, bitCell_feed]
  exact if_pos hidx

/-- `BIT_IDX` and `TX_IDX` move to the next byte (R242). -/
def advanceByte (s : State) : State :=
  nextByte { s with tx := { s.tx with bitIdx := 7, txIdx := s.tx.txIdx + 1 } }

/-- Both ways on from a byte set the phase, whatever it was. -/
theorem advanceByte_of_phase (p : Phase) (hp : Rat) (l : List Bool) (s : State) :
    advanceByte (bitsSent hp l 0 { s with seq := { s.seq with phase := p } }) =
      advanceByte (bitsSent hp l 0 s) := by
  by_cases h : s.tx.txIdx + 1 = s.tx.txLen
  · exact (if_pos h).trans (if_pos h).symm
  · exact (if_neg h).trans (if_neg h).symm

/-- The `TX_DATA` step of the last bit of a byte. -/
theorem iterate_txData_of_zero {s : State} (hphase : s.seq.phase = .txData) (hidx : s.tx.bitIdx = 0) :
    iterate s = advanceByte (bitsSent (halfUs s.cfg.freq) [currentBit s] 0 s) := by
  rw [iterate, hphase]
  simp only [txDataIteration, bitCell_feed, hidx]
  rw [if_neg (by exact Nat.lt_irrefl 0), advanceByte, nextByte]
  split
  · rfl
  · rw [← hphase]; rfl

/-- Eight steps send one byte. -/
theorem runSteps_txData {s : State} (hscript : s.script = []) (hphase : s.seq.phase = .txData)
    (hidx : s.tx.bitIdx = 7) :
    runSteps 8 s = .next (advanceByte
      (bitsSent (halfUs s.cfg.freq) (bitsMsbFirst (txAt s s.tx.txIdx)) 0 s)) := by
  rw [bitsMsbFirst_eq]
  refine runSteps_eightBits (idx := (7 - ·)) hscript hidx (fun i hi l => ?_) (fun l => ?_)
  · exact iterate_txData_of_pos (s := bitsSent (halfUs s.cfg.freq) l (7 - i) s) hphase
      (Nat.sub_pos_of_lt hi)
  · exact iterate_txData_of_zero (s := bitsSent (halfUs s.cfg.freq) l 0 s) hphase rfl

/-- The bits of the first `n` bytes of `TX`, in the order they are sent. -/
def dataBits (n : Nat) (s : State) : List Bool :=
  (List.range n).flatMap (fun j => bitsMsbFirst (txAt s j))

theorem dataBits_succ (n : Nat) (s : State) :
    dataBits (n + 1) s = dataBits n s ++ bitsMsbFirst (txAt s n) := by
  rw [dataBits, List.range_succ, List.flatMap_append, List.flatMap_singleton]
  rfl

/-- `s`, which has sent its preamble, after the first `j` bytes. -/
def bytesSent (j : Nat) (s : State) : State :=
  bitsSent (halfUs s.cfg.freq) (dataBits j s) 7 { s with tx := { s.tx with txIdx := j } }

/-- After the preamble, `TRANSMIT_FRAME` stands before its first byte (R241). -/
theorem preambleSent_of_transmit {s : State} (hop : s.seq.op = 0x52) :
    preambleSent s = nextByte (bytesSent 0 s) := by
  have hzero : bytesSent 0 s = { s with tx := { s.tx with bitIdx := 7, txIdx := 0 } } := by
    simp [bytesSent, bitsSent, dataBits]
  rw [preambleSent, if_neg (by rw [hop]; decide), hzero, nextByte]
  simp only [eq_comm]

/-- The bits of byte `j`, and the move to the next one. -/
theorem advanceByte_bytesSent (j : Nat) (s : State) :
    advanceByte (bitsSent (halfUs s.cfg.freq) (bitsMsbFirst (txAt s j)) 0 (bytesSent j s)) =
      nextByte (bytesSent (j + 1) s) := by
  simp only [bytesSent, dataBits_succ, bitsSent_append]
  rfl

/-- Eight steps send the byte that the data loop goes on with. -/
theorem runSteps_nextByte {s : State} (hscript : s.script = []) (hidx : s.tx.bitIdx = 7)
    (hleft : s.tx.txIdx ≠ s.tx.txLen) :
    runSteps 8 (nextByte s) = .next (advanceByte
      (bitsSent (halfUs s.cfg.freq) (bitsMsbFirst (txAt s s.tx.txIdx)) 0 s)) := by
  have hdata : nextByte s = { s with seq := { s.seq with phase := .txData } } := if_neg hleft
  rw [hdata, ← advanceByte_of_phase .txData]
  exact runSteps_txData hscript rfl hidx

/-- Eight steps per byte send the data of a frame, and then it ends. -/
theorem runSteps_bytes {s : State} (hscript : s.script = []) :
    runSteps (8 * s.tx.txLen) (nextByte (bytesSent 0 s)) =
      .next (endTransmit (bytesSent s.tx.txLen s)) := by
  have hend : nextByte (bytesSent s.tx.txLen s) = endTransmit (bytesSent s.tx.txLen s) := if_pos rfl
  rw [← hend]
  refine runSteps_mul (x := fun j => nextByte (bytesSent j s)) fun j hj => ?_
  rw [← advanceByte_bytesSent]
  exact runSteps_nextByte (s := bytesSent j s) hscript rfl hj.ne

/-- A whole `TRANSMIT_FRAME` from its start: the preamble's eight steps, then eight per byte. -/
theorem runSteps_transmit {n : Nat} {s : State} (hscript : s.script = [])
    (hphase : s.seq.phase = .txPre) (hop : s.seq.op = 0x52) (hidx : s.tx.bitIdx = 0)
    (hlen : s.tx.txLen = n) :
    runSteps (8 + 8 * n) s = .next (endTransmit
      (bytesSent n (bitsSent s.params.preambleHalfUs preambleBits 7 s))) := by
  subst hlen
  rw [runSteps_add (8 * s.tx.txLen) (runSteps_txPre hscript hphase hidx),
    preambleSent_of_transmit (by exact hop)]
  exact runSteps_bytes (s := bitsSent s.params.preambleHalfUs preambleBits 7 s) hscript

/-! ### What a list of cells counts and lasts (R239, R244) -/

theorem lineLevels_append (l m : List PortEvent) :
    lineLevels (l ++ m) = lineLevels l ++ lineLevels m := List.filterMap_append

theorem waitedUs_append (l m : List PortEvent) : waitedUs (l ++ m) = waitedUs l + waitedUs m := by
  rw [waitedUs, List.map_append, List.sum_append]
  rfl

/-- One `Feed` per cell. -/
theorem count_feed_cells (hp : Rat) (l : List Bool) :
    (l.flatMap (cellEvents · hp)).count .feed = l.length := by
  induction l with
  | nil => rfl
  | cons b l ih =>
    rw [List.flatMap_cons, List.count_append, ih, List.length_cons, Nat.add_comm]
    rfl

/-- The levels of a cell are the complement of its bit, and its bit. -/
theorem lineLevels_cells (hp : Rat) (l : List Bool) :
    lineLevels (l.flatMap (cellEvents · hp)) = l.flatMap (fun b => [!b, b]) := by
  induction l with
  | nil => rfl
  | cons b l ih =>
    rw [List.flatMap_cons, lineLevels_append, ih]
    rfl

theorem length_lineLevels_cells (hp : Rat) (l : List Bool) :
    (lineLevels (l.flatMap (cellEvents · hp))).length = 2 * l.length := by
  simp [lineLevels_cells, Nat.mul_comm]

/-- Two half-periods per cell. -/
theorem waitedUs_cells (hp : Rat) (l : List Bool) :
    waitedUs (l.flatMap (cellEvents · hp)) = 2 * l.length * hp := by
  induction l with
  | nil => simp [waitedUs]
  | cons b l ih =>
    have hcell : waitedUs (cellEvents b hp) = 2 * hp := by
      simp [waitedUs, cellEvents, two_mul]
    rw [List.flatMap_cons, waitedUs_append, ih, hcell, List.length_cons]
    push_cast
    ring

theorem length_dataBits (n : Nat) (s : State) : (dataBits n s).length = 8 * n := by
  simp [dataBits, bitsMsbFirst, Nat.mul_comm]

/-! ### The two operations -/

/-- Settles O43: the start, and the eight steps of the preamble. -/
theorem sendPreambleDrivesThePattern : Obligations.SendPreambleDrivesThePattern := by
  intro s hfree hscript events
  refine ⟨lineLevels_cells _ _, _, (transmissionStarts s hfree).1, ?_⟩
  rw [runSteps_txPre (by exact hscript) rfl rfl, ← startedFrom_ended hfree]
  rfl

/-- Settles O44: the preamble's eight steps, then eight per byte; and what the cells count and last. -/
theorem transmitFrameSendsTheBytes : Obligations.TransmitFrameSendsTheBytes := by
  intro s hfree hscript hfreq n half events
  have hevents : events = preambleBits.flatMap (cellEvents · s.params.preambleHalfUs) ++
      (dataBits n s).flatMap (cellEvents · half) ++ [.actuate false] := by
    rw [dataBits, List.flatMap_assoc]
  rw [hevents]
  refine ⟨⟨_, (transmissionStarts s hfree).2 hfreq, ?_⟩, ?_, ?_, ?_⟩
  · have hhalf : halfUs s.cfg.freq = half := halfUs_eq _
    rw [← startedFrom_ended hfree, ← hhalf, ← List.append_assoc, ← List.append_assoc]
    exact runSteps_transmit (by exact hscript) rfl rfl rfl rfl
  · rw [List.count_append, List.count_append, count_feed_cells, count_feed_cells, length_dataBits]
    rfl
  · rw [lineLevels_append, lineLevels_append, List.length_append, List.length_append,
      length_lineLevels_cells, length_lineLevels_cells, length_dataBits]
    change 16 + 2 * (8 * n) + 1 = 17 + 16 * n
    omega
  · have hlow : waitedUs [.actuate false] = 0 := by simp [waitedUs]
    rw [waitedUs_append, waitedUs_append, waitedUs_cells, waitedUs_cells, length_dataBits, hlow,
      show preambleBits.length = 8 from rfl]
    push_cast
    ring

end Sys2Proof.Proofs
end

section
/-! The control operations (46): what every accepted command leaves of `LOCKED` and `DROPPED`, who writes
`FREQ`, the preconditions, the fresh receive path, and the step without a host action. -/

namespace Sys2Proof.Proofs

open Sys2Proof Sys2Proof.Machine Sys2Proof.Config Sys2Proof.Laws

/-! ### `LOCKED` and `DROPPED` (R255, R256) -/

/-- The rule of a command leaves `DROPPED` as admission left it. -/
theorem ruleOf_dropped (i : Instr) (s : State) : (ruleOf i s).ctl.dropped = s.ctl.dropped := by
  cases i
  case setFreq f => simp only [ruleOf, setFreq]; split <;> simp
  case setThresh => simp only [ruleOf, setThresh]; split <;> simp
  all_goals simp [ruleOf]

/-- A command on a free block clears `DROPPED`, and keeps `LOCKED` only if it is `NOP`, whether its
precondition holds or not. -/
theorem exec_flags_of_free {s t : State} {i : Instr} (hfree : s.ctl.busy = false)
    (h : exec i s = .next t) :
    t.ctl.locked = (s.ctl.locked && keepsLock i) ∧ t.ctl.dropped = false := by
  rcases exec_cases h with ⟨hbusy, -⟩ | ⟨-, e, -, rfl⟩ | ⟨-, -, rfl⟩
  · simp [hfree] at hbusy
  · simp
  · simp [ruleOf_locked, ruleOf_dropped]

/-- A command never stops the machine (60 R275). -/
theorem exec_next (i : Instr) (s : State) : ∃ t, exec i s = .next t :=
  exec_eq_command i s ▸ command_next _ _ _ _

/-- `NOP` on a free block: its rule on the state admitted with the lock kept. -/
theorem exec_nop_of_free {s : State} (hfree : s.ctl.busy = false) :
    exec .nop s =
      .next { s with ctl := { s.ctl with done := true, dropped := false, code := .ok } } := by
  have hkept : (s.ctl.locked && keepsLock .nop) = s.ctl.locked := Bool.and_true _
  rw [exec_eq_command, preOf, command_of_free _ _ hfree, admission, hkept]
  rfl

/-- Settles O11: `NOP` by its rule, and every other command by what admission clears. -/
theorem nopAloneKeepsTheLock : Obligations.NopAloneKeepsTheLock := by
  refine fun s hfree => ⟨exec_nop_of_free hfree, fun i hi => ?_⟩
  obtain ⟨t, ht⟩ := exec_next i s
  obtain ⟨hlocked, hdropped⟩ := exec_flags_of_free hfree ht
  have hclears : keepsLock i = false := decide_eq_false hi
  exact ⟨t, ht, by rw [hlocked, hclears, Bool.and_false], hdropped⟩

/-! ### `FREQ` (R257) -/

/-- `SET_FREQ` on a free block, with its test on the operand. -/
theorem setFreq_of_free {s : State} (f : Nat) (hfree : s.ctl.busy = false) :
    setFreq f s =
      if 0 < f ∧ f ≤ 500000
      then { s with cfg := { s.cfg with freq := f }, ctl := { s.ctl with done := true, code := .ok } }
      else { s with ctl := { s.ctl with done := true, code := .badConfig } } := by
  have htest : (f = 0 ∨ freqMax < f) ↔ ¬ (0 < f ∧ f ≤ 500000) := by
    unfold freqMax; omega
  simp only [setFreq, htest, raise_of_free _ hfree, complete, ite_not]

/-- Only the rule of `SET_FREQ` can write `FREQ`, and it writes its operand. -/
theorem ruleOf_freq_cases (i : Instr) (s : State) :
    (ruleOf i s).cfg.freq = s.cfg.freq ∨
      ∃ f : BitVec 19, i = .setFreq f ∧ (ruleOf i s).cfg.freq = f.toNat := by
  cases i
  case setFreq f =>
    simp only [ruleOf, setFreq]
    split
    · exact .inl (by simp)
    · exact .inr ⟨f, rfl, rfl⟩
  case setThresh => left; simp only [ruleOf, setThresh]; split <;> simp
  all_goals left; simp [ruleOf]

/-- Settles O12: the rule on the admitted state; and a step that writes the configuration without a reset
runs the rule of an issued command, of which only `SET_FREQ` writes `FREQ`. -/
theorem setFreqInstallsTheBitRate : Obligations.SetFreqInstallsTheBitRate := by
  refine ⟨fun s f hfree => ?_, fun s t h hne => ?_⟩
  · rw [exec_of_free hfree rfl rfl, ruleOf, setFreq_of_free _ (by exact hfree)]
    rfl
  · rcases step_cfg h with hreset | hkept | ⟨i, u, hissued, hu, ht⟩
    · exact .inl hreset
    · exact absurd (by rw [hkept]) hne
    · rcases ruleOf_freq_cases i u with hsame | ⟨f, rfl, hf⟩
      · exact absurd (by rw [ht, hsame, hu]) hne
      · exact .inr ⟨f, hissued, by rw [ht, hf]⟩

/-! ### The step without a host action (R259, 60 R288) -/

/-- With the host idle a step is one iteration of the operation in progress (R259, log 16). -/
theorem step_of_tick {s : State} {rest : List HostAction} (h : s.script = .tick :: rest) :
    step s = .next (iterate { s with script := rest }) := by
  unfold step advance
  rw [h]
  rfl

theorem iterate_of_idle {s : State} (h : s.seq.phase = .idle) : iterate s = s := by
  unfold iterate
  rw [h]

/-- Settles O7: an empty script, an idle moment of the host, and an idle block. -/
theorem stepRunsOneIteration : Obligations.StepRunsOneIteration :=
  ⟨fun _ => step_of_no_action, fun _ _ => step_of_tick, fun _ => iterate_of_idle⟩

/-! ### Preconditions (R255) -/

theorem needsFreq_of_zero {s : State} (h : s.cfg.freq = 0) : needsFreq s = some .badConfig := if_pos h

/-- The bit rate is tested before the lock. -/
theorem needsFreqAndLock_of_zero {s : State} (h : s.cfg.freq = 0) :
    needsFreqAndLock s = some .badConfig := if_pos h

theorem needsFreqAndLock_of_unlocked {s : State} (hfreq : s.cfg.freq ≠ 0)
    (hlock : s.ctl.locked = false) : needsFreqAndLock s = some .notLocked := by
  simp [needsFreqAndLock, hfreq, hlock]

/-- Settles O10: each operation of the table of R255 by the precondition it fails. -/
theorem preconditionsAreChecked : Obligations.PreconditionsAreChecked := by
  refine fun s hfree => ⟨fun hzero i hi => ?_, fun hfreq hlock =>
    exec_of_failed hfree (needsFreqAndLock_of_unlocked hfreq hlock) rfl⟩
  rcases hi with rfl | rfl | rfl | rfl | ⟨b, rfl⟩
  case inr.inr.inr.inl => exact exec_of_failed hfree (needsFreqAndLock_of_zero hzero) rfl
  all_goals exact exec_of_failed hfree (needsFreq_of_zero hzero) rfl

/-! ### `BUF_RESET` (R258) -/

/-- The resets that `BUF_RESET` is made of leave the fresh receive path, and clear `MATCH`. -/
theorem bufReset_eq (s : State) :
    bufReset s = { freshReceivePath s with ctl := { s.ctl with matched := false } } := rfl

/-- Settles O14: the rule is the fresh receive path, on the admitted state. -/
theorem bufResetFreshensTheReceivePath : Obligations.BufResetFreshensTheReceivePath := by
  intro s hfree
  rw [exec_of_free hfree rfl rfl]
  simp only [ruleOf, bufReset_eq]
  rfl

end Sys2Proof.Proofs
end

section
/-! Errors and dropped commands (60): a busy block drops every command, and no step stops the machine. -/

namespace Sys2Proof.Proofs

open Sys2Proof Sys2Proof.Machine Sys2Proof.Laws

/-! ### Commands on a busy block (R277) -/

theorem exec_of_busy {s : State} (i : Instr) (hbusy : s.ctl.busy = true) :
    exec i s = .next (dropCommand s) := by
  rw [exec_eq_command, command_of_busy _ _ _ hbusy]

/-- A busy block drops a word of an illegal opcode as it drops a command. -/
theorem illegalCommand_of_busy {s : State} (hbusy : s.ctl.busy = true) :
    illegalCommand s = dropCommand s := if_pos hbusy

/-- Whatever its opcode, a word issued to a busy block is dropped. -/
theorem issueWord_of_busy {s : State} (w : CmdWord) (hbusy : s.ctl.busy = true) :
    issueWord w s = .next (dropCommand s) := by
  cases h : decodeWord w with
  | ok i => rw [issueWord_of_ok h, exec_of_busy i hbusy]
  | error e => rw [issueWord_of_error h, illegalCommand_of_busy hbusy]

/-- Settles O8: for the word and for the operation, the command is dropped. -/
theorem busyBlockDropsCommands : Obligations.BusyBlockDropsCommands := fun _ hbusy =>
  ⟨fun w => issueWord_of_busy w hbusy, fun i => exec_of_busy i hbusy⟩

/-! ### No step stops the machine (R275, R281) -/

theorem issueWord_next (w : CmdWord) (s : State) : ∃ t, issueWord w s = .next t := by
  cases h : decodeWord w with
  | ok i =>
    rw [issueWord_of_ok h]
    exact exec_next i s
  | error e => exact ⟨illegalCommand s, issueWord_of_error h s⟩

/-- A reset inside a step cuts a next state, for the step it cuts has one (70 R312). -/
theorem actCut_next (command : Option HostWord) (calls : Nat) (s : State) :
    ∃ t, actCut command calls s = .next t := by
  obtain ⟨u, hu⟩ := issueOrIterate_next command s
  exact ⟨cutReset calls s u, by rw [actCut, hu]⟩

/-- A write to `CMD` issues its word; a write to any other register is a host write (R259). -/
theorem act_write (addr : Nat) (d : HostWord) (s : State) :
    act (.write addr d) s =
      if addr = cmdAddress then issueWord (d.setWidth 32) s else .next (hostWrite addr d s) := rfl

/-- Every host action, and the reset input, has a next state. -/
theorem act_next (a : HostAction) (s : State) : ∃ t, act a s = .next t := by
  cases a with
  | read addr => exact ⟨hostReadAction addr s, rfl⟩
  | write addr d =>
    rw [act_write]
    split
    · exact issueWord_next _ s
    · exact ⟨hostWrite addr d s, rfl⟩
  | tick => exact ⟨iterate s, rfl⟩
  | rst => exact ⟨resetBlock s, rfl⟩
  | rstInside command calls => exact actCut_next command calls s

/-- With a host action pending, a step is that action (R259). -/
theorem step_of_action {s : State} {a : HostAction} {rest : List HostAction}
    (h : s.script = a :: rest) : step s = act a { s with script := rest } := by
  unfold step advance
  rw [h]

/-- Settles O6: an iteration when no host action is pending, else the action. -/
theorem stepNeverStops : Obligations.StepNeverStops := by
  intro s
  cases h : s.script with
  | nil => exact ⟨iterate s, step_of_no_action h⟩
  | cons a rest =>
    rw [step_of_action h]
    exact act_next a _

end Sys2Proof.Proofs
end

section
/-! Hazards (70): all that a step of a busy block can do, and that none of it writes the configuration. -/

namespace Sys2Proof.Proofs

open Sys2Proof Sys2Proof.Machine Sys2Proof.Laws

/-! ### No configuration changes under a running operation (R320) -/

/-- A busy block ignores a write to any other register than `CMD` (R263). -/
theorem hostWrite_of_busy (a : Nat) (d : HostWord) {s : State} (hbusy : s.ctl.busy = true) :
    hostWrite a d s = s := if_pos hbusy

/-- All that one host action other than a reset can do to a busy block. -/
theorem act_cases_of_busy {a : HostAction} {s t : State} (hbusy : s.ctl.busy = true)
    (hrst : a ≠ .rst) (hcut : ∀ command calls, a ≠ .rstInside command calls)
    (h : act a s = .next t) :
    t = iterate s ∨ t = dropCommand s ∨ t = s ∨ ∃ addr, t = hostReadAction addr s := by
  cases a with
  | read addr => cases h; exact .inr (.inr (.inr ⟨addr, rfl⟩))
  | write addr d =>
    rw [act_write, issueWord_of_busy _ hbusy, hostWrite_of_busy _ _ hbusy] at h
    split at h
    · cases h; exact .inr (.inl rfl)
    · cases h; exact .inr (.inr (.inl rfl))
  | tick => cases h; exact .inl rfl
  | rst => exact absurd rfl hrst
  | rstInside command calls => exact absurd rfl (hcut command calls)

/-- All that one step without a reset can do to a busy block, once the host's action has left the
script: an iteration, a dropped command, an ignored write, or a read. -/
theorem step_cases_of_busy {s t : State} (hbusy : s.ctl.busy = true) (hreset : ¬ s.Resets)
    (h : step s = .next t) :
    ∃ u : State, (∃ rest, u = { s with script := rest }) ∧
      (t = iterate u ∨ t = dropCommand u ∨ t = u ∨ ∃ addr, t = hostReadAction addr u) := by
  rcases step_cases h with ⟨-, rfl⟩ | ⟨a, rest, hscript, hact⟩
  · exact ⟨s, ⟨s.script, rfl⟩, .inl rfl⟩
  · refine ⟨{ s with script := rest }, ⟨rest, rfl⟩, act_cases_of_busy hbusy ?_ ?_ hact⟩
    · rintro rfl
      exact hreset ⟨rest, .inl hscript⟩
    · rintro command calls rfl
      exact hreset ⟨rest, .inr ⟨command, calls, hscript⟩⟩

/-- Settles O9: an iteration keeps the configuration by its frame, and what else can happen to a busy
block writes `DROPPED` and the environment alone. -/
theorem configurationFixedWhileBusy : Obligations.ConfigurationFixedWhileBusy := by
  intro s t hbusy hreset h
  obtain ⟨u, ⟨rest, rfl⟩, rfl | rfl | rfl | ⟨addr, rfl⟩⟩ := step_cases_of_busy hbusy hreset h
  · obtain ⟨hcfg, harg, hmem, hlen, hparams, -⟩ := iterate_frame { s with script := rest }
    exact ⟨hcfg, harg, hmem, hlen, hparams⟩
  all_goals exact ⟨rfl, rfl, rfl, rfl, rfl⟩

end Sys2Proof.Proofs
end
